-- ==== Sys2Proof/Word.lean ====
section
/-! DEFINITION. The word types of the block: every register, bus word and sample cell is 32 bits (spec 00_scope R9). -/

namespace Sys2Proof

/-- A register, a bus word, a sample cell, a command word (R9). -/
abbrev Word := BitVec 32

/-- A byte of the address space (R60, R67). -/
abbrev Byte := BitVec 8

/-- A plane dimension or an index: a 16-bit unsigned field (R9). -/
abbrev Half := BitVec 16

end Sys2Proof
end

