-- ==== Sys2Proof/Config.lean ====
section
/-! DEFINITION. The block's parameters with the defaults of spec 00_scope R8, and the free values:
constants with no body, of which no proof can see a value. -/

namespace Sys2Proof

/-- CAST_ROUND: how TO_RGB's re-cast rounds a binary32 value to an integer (R8, R172). -/
inductive CastRound where
  | trunc
  | rne
  deriving DecidableEq, Repr

/-- UPSAMPLE_FILTER: the block's own LANCZOS3_Q14 (R152), or any other filter that meets the contract
of R151, taken uninterpreted. -/
inductive FilterChoice where
  | lanczos3Q14
  | other
  deriving DecidableEq, Repr

/-- STREAM_BYTE_ORDER of 2-byte samples in the host-side stream (R8, R82). -/
inductive ByteOrder where
  | le
  | be
  deriving DecidableEq, Repr

/-- The implementation parameters of R8, but BASE (`Config.base`). -/
structure Params where
  maxW : Nat
  maxH : Nat
  castRound : CastRound
  upsampleFilter : FilterChoice
  streamByteOrder : ByteOrder
  deriving DecidableEq, Repr

/-- The defaults R8 decides. -/
def Params.default : Params where
  maxW := 4096
  maxH := 4096
  castRound := .trunc
  upsampleFilter := .lanczos3Q14
  streamByteOrder := .le

/-- The legal values of R8 and its two constraints. -/
def Params.legal (p : Params) : Bool :=
  decide (1 ≤ p.maxW) && decide (p.maxW ≤ 65535) && decide (1 ≤ p.maxH) && decide (p.maxH ≤ 65535) &&
    decide (3 * p.maxW * p.maxH * 4 ≤ 2 ^ 28) && decide (p.maxW * p.maxH * 4 ≤ 2 ^ 28)

/-- BASE, the block's place in the host's address space: OPEN (R8, 93 U18; log 20). -/
opaque Config.base : Nat

/-- Free value: what a byte of IN or OUT holds that nothing has written since the n-th assertion of
reset (R51, 93 U5 and U8; log 5). Arguments: how often reset was asserted, the byte's offset. -/
opaque Config.unwrittenByte : Nat → Nat → Byte

/-- Free value: what the n-th result read in the busy window answers (R233, 93 U4; log 4). -/
opaque Config.busyRead : Nat → Word

/-- The binary32 operation whose result R12 leaves unstated for some operands. -/
inductive FloatOp where
  | add
  | mul
  | div
  | clip
  | cast
  deriving DecidableEq, Repr

/-- Free value: a binary32 operation where no rule gives a number: a NaN operand, opposite infinities added, an infinity
times 0, a zero divisor, an infinity over an infinity or cast to an integer (log 11). -/
opaque Config.nonFinite : FloatOp → Word → Word → Word

/-- Free value: cell n of what an uninterpreted filter makes of a plane (R151, 93 U1; log 9, log 10).
Arguments: the plane's cells, its W and H, the target W and H, the sample type's code, n. -/
opaque Config.filterCell : List Word → Nat → Nat → Nat → Nat → Nat → Nat → Word

end Sys2Proof
end

