-- ==== Sys2Proof/Machine/Frame.lean ====
section
/-! DEFINITION. The frame store of spec 10_state R20 to R27 and the result codes of 60_exceptions R200, as data. -/

namespace Sys2Proof.Machine

/-- The element type of all present planes (R25). Code 3, "other", is never held by a frame. -/
inductive SampleType where
  | u8
  | u16
  | f32
  deriving DecidableEq, Repr

/-- chromaFormat (R27). -/
inductive ChromaFormat where
  | gray
  | yuv444
  | yuv422
  | yuv420
  | yuv411
  | yuv440
  deriving DecidableEq, Repr

/-- A number of planes or of channels that the block can hold: 0, 1 or 3 (R23, R45). -/
inductive PlaneCount where
  | none
  | one
  | three
  deriving DecidableEq, Repr

/-- The three planes and their staging buffers (R21, R47). -/
inductive PlaneId where
  | plane1
  | plane2
  | plane3
  deriving DecidableEq, Repr

/-- A working plane register (R21): cell (r, c) is `cells` at r·W + c. -/
structure Plane where
  w : Half
  h : Half
  cells : List Word
  deriving DecidableEq, Repr

/-- The frame state (R20). -/
structure Frame where
  init : Bool
  planes : PlaneCount
  p1 : Plane
  p2 : Plane
  p3 : Plane
  sampleType : SampleType
  bitDepth : BitVec 5
  fmt : ChromaFormat
  deriving DecidableEq, Repr

/-- OUT_DIM and OUT_INFO: the extent and type of the last export (R44, R45). -/
structure OutInfo where
  w : Half
  h : Half
  ch : PlaneCount
  stype : SampleType
  valid : Bool
  deriving DecidableEq, Repr

/-- The result codes (R200). Codes 11 to 15 are never produced. -/
inductive ResultCode where
  | ok
  | invalidSampleType
  | inconsistentChromaSize
  | unknownSubsampling
  | uninitializedFrame
  | invalidIndexArity
  | notApplicable
  | alreadyFull
  | requiresFull444
  | indexOutOfRange
  | illegalCommand
  deriving DecidableEq, Repr

/-- The code of a sample type: u8 = 0, u16 = 1, f32 = 2 (R25). -/
def SampleType.code : SampleType → Nat
  | .u8 => 0
  | .u16 => 1
  | .f32 => 2

/-- The storage width in bits of a sample type (R113, R155). -/
def SampleType.width : SampleType → Nat
  | .u8 => 8
  | .u16 => 16
  | .f32 => 32

/-- The code of a chroma format (R27). -/
def ChromaFormat.code : ChromaFormat → Nat
  | .gray => 0
  | .yuv444 => 1
  | .yuv422 => 2
  | .yuv420 => 3
  | .yuv411 => 4
  | .yuv440 => 5

/-- The number a plane or channel count stands for (R23, R45). -/
def PlaneCount.toNat : PlaneCount → Nat
  | .none => 0
  | .one => 1
  | .three => 3

/-- k of P[k] and IN[k] (R11). -/
def PlaneId.number : PlaneId → Nat
  | .plane1 => 1
  | .plane2 => 2
  | .plane3 => 3

/-- The number of a result code (R200). -/
def ResultCode.code : ResultCode → Nat
  | .ok => 0
  | .invalidSampleType => 1
  | .inconsistentChromaSize => 2
  | .unknownSubsampling => 3
  | .uninitializedFrame => 4
  | .invalidIndexArity => 5
  | .notApplicable => 6
  | .alreadyFull => 7
  | .requiresFull444 => 8
  | .indexOutOfRange => 9
  | .illegalCommand => 10

/-- A plane register that holds no plane: P2 and P3 of a one-plane frame (R23; log 7), and all three at reset (log 6). -/
def Plane.absent : Plane where
  w := 0
  h := 0
  cells := []

/-- The working plane register P[k] (R21). -/
def Frame.plane (f : Frame) : PlaneId → Plane
  | .plane1 => f.p1
  | .plane2 => f.p2
  | .plane3 => f.p3

end Sys2Proof.Machine
end

