-- ==== Sys2Proof/Machine/HostAgent.lean ====
section
/-! DEFINITION. The host as data (spec 00_scope R16, R17; 30_encoding R101): its scratch temporaries, its operations and
the position in its program. None of it is state of the block. -/

namespace Sys2Proof.Machine

/-- The name of a host-side temporary t0..t7 (R101). -/
inductive Temp where
  | t0
  | t1
  | t2
  | t3
  | t4
  | t5
  | t6
  | t7
  deriving DecidableEq, Repr

/-- The values of the temporaries (R101). -/
structure Temps where
  v0 : Word
  v1 : Word
  v2 : Word
  v3 : Word
  v4 : Word
  v5 : Word
  v6 : Word
  v7 : Word
  deriving DecidableEq, Repr

/-- One host operation (R101). `sw OFF, V` is `write 4 OFF V` and `lw tN, OFF` is `read 4 tN OFF`; the first
argument is the access's width in bytes, so that a width R66 refuses can be written down. A label is the index of
the operation it marks (log 14). -/
inductive HostOp where
  | write (bytes : Nat) (off value : Word)
  | read (bytes : Nat) (t : Temp) (off : Word)
  | andi (td ts : Temp) (k : Word)
  | srli (td ts : Temp) (k : Nat)
  | bnez (t : Temp) (target : Nat)
  deriving DecidableEq, Repr

/-- The host: its program, the index of its next operation, its temporaries. -/
structure HostAgent where
  prog : List HostOp
  pc : Nat
  temps : Temps
  deriving DecidableEq, Repr

/-- Whose turn it is (R16, R71): the engine's, the host's, or the reset input is asserted (R230). -/
inductive Turn where
  | engine
  | host
  | resetAsserted
  deriving DecidableEq, Repr

/-- Reads a temporary. -/
def Temps.get (ts : Temps) : Temp → Word
  | .t0 => ts.v0
  | .t1 => ts.v1
  | .t2 => ts.v2
  | .t3 => ts.v3
  | .t4 => ts.v4
  | .t5 => ts.v5
  | .t6 => ts.v6
  | .t7 => ts.v7

/-- Writes a temporary. -/
def Temps.set (ts : Temps) (t : Temp) (v : Word) : Temps :=
  match t with
  | .t0 => { ts with v0 := v }
  | .t1 => { ts with v1 := v }
  | .t2 => { ts with v2 := v }
  | .t3 => { ts with v3 := v }
  | .t4 => { ts with v4 := v }
  | .t5 => { ts with v5 := v }
  | .t6 => { ts with v6 := v }
  | .t7 => { ts with v7 := v }

/-- `sw OFF, V` (R101). -/
def HostOp.sw (off value : Word) : HostOp := .write 4 off value

/-- `lw tN, OFF` (R101). -/
def HostOp.lw (t : Temp) (off : Word) : HostOp := .read 4 t off

end Sys2Proof.Machine
end

