-- ==== Sys2Proof/Machine/State.lean ====
section
/-! DEFINITION. The machine's state (spec 10_state), the ways a step can stop, and the state after reset (R51, R230). -/

namespace Sys2Proof.Machine

/-- The bytes of IN[1..3] and OUT that have been written since reset, by block offset, offsets strictly rising.
An unlisted byte reads as `none` here: nothing has written it (log 5). -/
abbrev Memory := List Host.Cell

/-- The block never stops by itself: an error is a result code in STATUS.RESULT, not a trap or a fault (R202, R215),
so no fault reason exists. -/
inductive Fault where
  deriving DecidableEq, Repr

/-- Why a step is refused. -/
inductive Refusal where
  /-- Raised by an arm of `exec` whose instruction has no meaning yet; no arm does. Safe. -/
  | notModelled (mnemonic : String)
  /-- Raised by a host step that makes a bus access narrower or wider than 32 bits or not at a multiple of 4
  (R66, 93 U7; log 19). Safe. -/
  | busAccessForm
  /-- Raised by a host step that writes CMD, IN_CFG, IN_DIM1..3, IDX or an IN[k] cell from a CMD write until the host
  reads STATUS with BUSY = 0 (R233, 93 U6; log 19). Safe. -/
  | hostWriteWhileBusy
  deriving DecidableEq, Repr

/-- All state of the block (10_state), the host that drives it (R16), and the schedule (R71). -/
structure State where
  /-- The parameters of R8, fixed when the block is built; no step writes them. -/
  params : Params
  /-- The frame (R20). -/
  frame : Frame
  /-- STATUS.RESULT, and with it STATUS.ERR (R36). -/
  result : ResultCode
  /-- RDATA (R40). -/
  rdata : Word
  /-- IN_CFG (R41). -/
  inCfg : Word
  /-- IN_DIM1 (R42). -/
  inDim1 : Word
  /-- IN_DIM2 (R42). -/
  inDim2 : Word
  /-- IN_DIM3 (R42). -/
  inDim3 : Word
  /-- IDX (R43). -/
  idx : Word
  /-- OUT_DIM and OUT_INFO (R44, R45). -/
  out : OutInfo
  /-- The cells of IN[1..3] and OUT (R47, R48). -/
  mem : Memory
  /-- `pending` (R49): the word written to CMD while its command has not run, else `none`. -/
  pending : Option Word
  /-- A CMD write has happened and the host has not read STATUS with BUSY = 0 since (R233; log 3). -/
  busyWindow : Bool
  /-- The host (R16, R101). -/
  host : HostAgent
  /-- The model's own: the coming turns of the schedule R71 leaves open; when empty, the engine goes first (log 1). -/
  sched : List Turn
  /-- The model's own: how many result reads have drawn a free value (log 4). -/
  draws : Nat
  /-- The model's own: how often the reset input was asserted (log 5). -/
  resets : Nat
  deriving DecidableEq, Repr

/-- The frame after reset: uninitialized (R51). The values of R51's "unspecified" fields are the model's (log 6). -/
def Frame.uninitialized : Frame where
  init := false
  planes := .none
  p1 := .absent
  p2 := .absent
  p3 := .absent
  sampleType := .u8
  bitDepth := 0
  fmt := .gray

/-- OUT_DIM = 0 and OUT_INFO = 0 (R44, R45). -/
def OutInfo.empty : OutInfo where
  w := 0
  h := 0
  ch := .none
  stype := .u8
  valid := false

/-- A host with no access left to make (log 14). -/
def HostAgent.idle : HostAgent where
  prog := []
  pc := 0
  temps := ⟨0, 0, 0, 0, 0, 0, 0, 0⟩

/-- The machine right after reset (R32, R51, R230). -/
def State.reset : State where
  params := .default
  frame := .uninitialized
  result := .ok
  rdata := 0
  inCfg := 0
  inDim1 := 0
  inDim2 := 0
  inDim3 := 0
  idx := 0
  out := .empty
  mem := []
  pending := none
  busyWindow := false
  host := .idle
  sched := []
  draws := 0
  resets := 0

end Sys2Proof.Machine
end

