-- ==== Sys2Proof/Machine/Ops.lean ====
section
/-! DEFINITION. The named operations over memory, plane registers and the result, which every command goes through. -/

namespace Sys2Proof.Machine

/-- What a step answers. -/
abbrev Answer := Host.Outcome State Fault Refusal

/-! ## Memory -/

/-- The canonical form: offsets strictly rising, so none listed twice. -/
abbrev Memory.wf (m : Memory) : Prop := m.Pairwise fun x y => x.1 < y.1

/-- The byte written at an offset, `none` where nothing has been written since reset (R51). -/
def Memory.read? (m : Memory) (a : Nat) : Option Byte :=
  match m with
  | [] => none
  | (b, v) :: rest => if a = b then some v else Memory.read? rest a

/-- Writes one byte, keeping the list's order. -/
def Memory.write (m : Memory) (a : Nat) (v : Byte) : Memory :=
  match m with
  | [] => [(a, v)]
  | (b, u) :: rest =>
    if a < b then (a, v) :: (b, u) :: rest
    else if a = b then (a, v) :: rest
    else (b, u) :: Memory.write rest a v

/-- Byte lane i of a word: bits [8i+7:8i], little-endian (R67). -/
def byteLane (v : Word) (i : Nat) : Byte := v.extractLsb' (8 * i) 8

/-- The word of four byte lanes, lane 0 first (R67). -/
def wordOfLanes (b0 b1 b2 b3 : Byte) : Word := b3 ++ b2 ++ b1 ++ b0

/-- Writes the four lanes of a word at an offset (R67). -/
def Memory.writeWord (m : Memory) (a : Nat) (v : Word) : Memory :=
  (((m.write a (byteLane v 0)).write (a + 1) (byteLane v 1)).write (a + 2) (byteLane v 2)).write (a + 3) (byteLane v 3)

/-- Writes words one after another from an offset. -/
def Memory.writeWords (m : Memory) (a : Nat) : List Word → Memory
  | [] => m
  | v :: vs => Memory.writeWords (m.writeWord a v) (a + 4) vs

/-- The byte a cell holds at an offset: the one written, else what it held at reset (R51, 93 U5; log 5). -/
def State.memByte (s : State) (a : Nat) : Byte :=
  match s.mem.read? a with
  | some v => v
  | none => Config.unwrittenByte s.resets a

/-- The word a cell holds at an offset (R67). -/
def State.memWord (s : State) (a : Nat) : Word :=
  wordOfLanes (s.memByte a) (s.memByte (a + 1)) (s.memByte (a + 2)) (s.memByte (a + 3))

/-- The offset of IN[k] cell n (R62). -/
def inAddr (k : PlaneId) (n : Nat) : Nat := 0x10000000 * k.number + 4 * n

/-- The offset of OUT cell n (R63). -/
def outAddr (n : Nat) : Nat := 0x40000000 + 4 * n

/-- IN[k] cell n (R47). -/
def State.inCell (s : State) (k : PlaneId) (n : Nat) : Word := s.memWord (inAddr k n)

/-- OUT cell n as stored, before the gate of R64 (R48). -/
def State.outCell (s : State) (n : Nat) : Word := s.memWord (outAddr n)

/-! ## Plane registers -/

/-- W·H (R21). -/
def Plane.size (p : Plane) : Nat := p.w.toNat * p.h.toNat

/-- The n-th cell, row by row. A plane register holds W·H cells in every state a run reaches (log 8). -/
def Plane.cellAt (p : Plane) (n : Nat) : Word := p.cells.getD n 0

/-- `P[k][r][c]` (R11, R21). -/
def Plane.cell (p : Plane) (r c : Nat) : Word := p.cellAt (r * p.w.toNat + c)

/-- Rewrites every cell. -/
def Plane.mapCells (p : Plane) (f : Word → Word) : Plane := { p with cells := p.cells.map f }

/-- `for k in 1..planes`: rewrites every cell of every present plane, and the sample type (R140). -/
def Frame.mapPresent (f : Frame) (g : Word → Word) : Frame :=
  match f.planes with
  | .none => f
  | .one => { f with p1 := f.p1.mapCells g }
  | .three => { f with p1 := f.p1.mapCells g, p2 := f.p2.mapCells g, p3 := f.p3.mapCells g }

/-! ## The end of a command -/

/-- `raise E`: the command ends at once with result code E, and no other state changes (R11, R201). This is the block's
whole answer to an error: nothing is saved, no mode or vector exists (R202, R215). -/
def State.raise (s : State) (e : ResultCode) : State := { s with result := e }

/-- `RESULT <- OK` (R203). -/
def State.finish (s : State) : State := { s with result := .ok }

/-- A command that checks before it writes (R201): the error its checks raise, or the state it leaves. -/
def finishOrRaise (s : State) : Except ResultCode State → Answer
  | .ok t => .next t.finish
  | .error e => .next (s.raise e)

end Sys2Proof.Machine
end

