-- ==== Sys2Proof/Machine/Flags.lean ====
section
/-! DEFINITION. The status flags and the read-only registers that mirror the frame (spec 10_state R36 to R39, R44, R45, R52). -/

namespace Sys2Proof.Machine

/-- A bit as a number. -/
def bit (b : Bool) : Nat := if b then 1 else 0

/-- STATUS.ERR: 1 exactly when RESULT ≠ 0 (R36). -/
def State.err (s : State) : Bool := s.result.code != 0

/-- STATUS while no command is pending (R36): FMT and STYPE read 0 while `init` = false. BUSY is bit 0. -/
def State.statusWord (s : State) : Word :=
  BitVec.ofNat 32 (bit s.pending.isSome + 2 * bit s.frame.init + 8 * bit s.err + 16 * s.result.code
    + (if s.frame.init then 256 * s.frame.fmt.code + 4096 * s.frame.sampleType.code else 0))

/-- FRAME_INFO: BIT_DEPTH in [4:0], PLANES in [9:8]; 0 while `init` = false (R37). -/
def State.frameInfo (s : State) : Word :=
  if s.frame.init then BitVec.ofNat 32 (s.frame.bitDepth.toNat + 256 * s.frame.planes.toNat) else 0

/-- A dimension register: W in [15:0], H in [31:16] (R38, R39, R42, R44). -/
def dimWord (w h : Half) : Word := h ++ w

/-- Y_DIM; 0 while `init` = false (R38). -/
def State.yDim (s : State) : Word := if s.frame.init then dimWord s.frame.p1.w s.frame.p1.h else 0

/-- C_DIM; 0 while `init` = false or `planes` = 1 (R39). -/
def State.cDim (s : State) : Word :=
  if s.frame.init then
    match s.frame.planes with
    | .one => 0
    | .none => dimWord s.frame.p2.w s.frame.p2.h
    | .three => dimWord s.frame.p2.w s.frame.p2.h
  else 0

/-- OUT_DIM (R44). -/
def State.outDim (s : State) : Word := dimWord s.out.w s.out.h

/-- OUT_INFO: CH in [1:0], TYPE in [5:4], VALID in [8] (R45). -/
def State.outInfo (s : State) : Word :=
  BitVec.ofNat 32 (s.out.ch.toNat + 16 * s.out.stype.code + 256 * bit s.out.valid)

end Sys2Proof.Machine
end

