-- ==== Sys2Proof/Machine/Binary32.lean ====
section
/-! DEFINITION. The numeric primitives of spec 00_scope R12: exact rounding of rationals, and the binary32 operations,
each the exact result rounded once to nearest, ties to even (log 12). A finite binary32 value is an integer multiple
of 2^-149; `scaled` is that integer. -/

namespace Sys2Proof.Machine

/-- `rhe(num / den)` for a natural quotient: nearest integer, ties to even (R12). -/
def rheNat (num den : Nat) : Nat :=
  let q := num / den
  let r := num % den
  if 2 * r < den then q else if den < 2 * r then q + 1 else q + q % 2

/-- `rhe(num / den)` of an integer quotient (R12). Rounding to nearest, ties to even, is symmetric about 0. -/
def rheInt (num : Int) (den : Nat) : Int :=
  if num < 0 then -(rheNat num.natAbs den : Int) else (rheNat num.natAbs den : Int)

/-- `clamp(x, lo, hi)` (R12). -/
def clampInt (x lo hi : Int) : Int := min (max x lo) hi

namespace F32

/-- The sign bit. -/
def sign (w : Word) : Bool := w.extractLsb' 31 1 = 1

/-- The biased exponent. -/
def exponent (w : Word) : Nat := (w.extractLsb' 23 8).toNat

/-- The fraction field. -/
def fraction (w : Word) : Nat := (w.extractLsb' 0 23).toNat

/-- The word holds a finite value: neither an infinity nor a NaN. -/
def finite (w : Word) : Bool := exponent w != 255

/-- The word holds no number. -/
def isNaN (w : Word) : Bool := exponent w == 255 && fraction w != 0

/-- The magnitude of a finite value, as a multiple of 2^-149. An infinity's lies past every finite one. -/
def mag (w : Word) : Nat :=
  if exponent w = 0 then fraction w else (2 ^ 23 + fraction w) * 2 ^ (exponent w - 1)

/-- `asF32(w)` of a finite value, as a multiple of 2^-149 (R12). -/
def scaled (w : Word) : Int := if sign w then -(mag w : Int) else (mag w : Int)

/-- The exponent and fraction bits of the binary32 value nearest to (num / den)·2^-149, ties to even. The quotient's
binary places beyond 24 significant bits are rounded away, and a value past the largest finite one gives the
infinity's bits. -/
def roundMag (num den : Nat) : Nat :=
  let drop := Nat.log2 (num / den) - 23
  min (drop * 2 ^ 23 + rheNat num (den * 2 ^ drop)) 0x7F800000

/-- The word with a sign and the other 31 bits. -/
def pack (negative : Bool) (bits : Nat) : Word := BitVec.ofNat 32 ((if negative then 2 ^ 31 else 0) + bits)

/-- `bitsF32(f32((num / den)·2^-149))`; an exact 0 gives +0.0 (R12, R155). -/
def ofScaled (num : Int) (den : Nat) : Word := pack (decide (num < 0)) (roundMag num.natAbs den)

/-- `bitsF32(f32(n))` of a natural number (R12, R140). -/
def ofNat (n : Nat) : Word := ofScaled ((n * 2 ^ 149 : Nat) : Int) 1

/-- The value with its sign reversed. -/
def neg (w : Word) : Word := w ^^^ 0x80000000#32

/-- The infinity of a sign. -/
def infinity (negative : Bool) : Word := pack negative 0x7F800000

/-- `x ⊕ y` (R12). An infinite operand is the sum, unless the other is the opposite infinity (log 12). -/
def add (x y : Word) : Word :=
  if finite x && finite y then
    if scaled x + scaled y = 0 then pack (sign x && sign y) 0 else ofScaled (scaled x + scaled y) 1
  else if isNaN x || isNaN y then Config.nonFinite .add x y
  else if finite x then y
  else if finite y || sign x == sign y then x
  else Config.nonFinite .add x y

/-- `x ⊖ y` (R12). -/
def sub (x y : Word) : Word := add x (neg y)

/-- `x ⊗ y` (R12). A product with an infinity is infinite, unless the other factor is 0 (log 12). -/
def mul (x y : Word) : Word :=
  if finite x && finite y then pack (sign x ^^ sign y) (roundMag (mag x * mag y) (2 ^ 149))
  else if isNaN x || isNaN y || mag x == 0 || mag y == 0 then Config.nonFinite .mul x y
  else infinity (sign x ^^ sign y)

/-- `x ⊘ y` (R12). A zero divisor arises in no state a run reaches (R111, R140). -/
def div (x y : Word) : Word :=
  if finite x && finite y && mag y != 0 then pack (sign x ^^ sign y) (roundMag (mag x * 2 ^ 149) (mag y))
  else if isNaN x || isNaN y || mag y == 0 || (!finite x && !finite y) then Config.nonFinite .div x y
  else if finite x then pack (sign x ^^ sign y) 0
  else infinity (sign x ^^ sign y)

/-- 1.0 -/
def one : Word := 0x3F800000#32

/-- 0.5, the chroma offset (R173). -/
def half : Word := 0x3F000000#32

/-- `clip01(x)`: +0.0 at or below 0, 1.0 at or above 1, x between, the infinities included (R171). Only a NaN, which no
rule orders, has no stated result (log 11). -/
def clip01 (x : Word) : Word :=
  if isNaN x then Config.nonFinite .clip x 0
  else if scaled x ≤ 0 then 0
  else if (2 ^ 149 : Int) ≤ scaled x then one
  else x

/-- A word that holds a finite value: w itself if it does, else w with an exponent bit cleared (R30). -/
def toFinite (w : Word) : Word := if finite w then w else w &&& 0xFF7FFFFF#32

/-- `zext_32(cast(x))`: trunc or rhe to an integer, by CAST_ROUND (R172). -/
def cast (r : CastRound) (x : Word) : Word :=
  if finite x then
    match r with
    | .trunc => BitVec.ofInt 32 (Int.tdiv (scaled x) (2 ^ 149))
    | .rne => BitVec.ofInt 32 (rheInt (scaled x) (2 ^ 149))
  else Config.nonFinite .cast x 0

end F32

end Sys2Proof.Machine
end

