-- ==== Sys2Proof/Machine/Operands.lean ====
section
/-! DEFINITION. The operands of the commands (spec 30_encoding R94, R96): register fields, staged cells and cell values. -/

namespace Sys2Proof.Machine

/-- PLANES = IN_CFG[1:0] (R41, R96). -/
def cfgPlanes (w : Word) : Nat := (w.extractLsb' 0 2).toNat

/-- BIT_DEPTH = IN_CFG[8:4] (R41, R96). -/
def cfgBitDepth (w : Word) : BitVec 5 := w.extractLsb' 4 5

/-- TYPEk = IN_CFG[2k+11 : 2k+10] (R41, R96). -/
def cfgType (w : Word) (k : PlaneId) : Nat := (w.extractLsb' (2 * k.number + 10) 2).toNat

/-- The element type of a TYPEk code that LOAD accepts: 0 is u8, 1 is u16 (R41, R112). -/
def loadableType (code : Nat) : Option SampleType :=
  match code with
  | 0 => some .u8
  | 1 => some .u16
  | _ => none

/-- Bits [15:0] of a dimension or index register: W, or ROW (R42, R43, R96). -/
def lowHalf (w : Word) : Half := w.extractLsb' 0 16

/-- Bits [31:16] of a dimension or index register: H, or COL (R42, R43, R96). -/
def highHalf (w : Word) : Half := w.extractLsb' 16 16

/-- IN_DIMk (R42). -/
def State.inDim (s : State) : PlaneId → Word
  | .plane1 => s.inDim1
  | .plane2 => s.inDim2
  | .plane3 => s.inDim3

/-- W of supplied plane k (R42). -/
def State.inW (s : State) (k : PlaneId) : Half := lowHalf (s.inDim k)

/-- H of supplied plane k (R42). -/
def State.inH (s : State) (k : PlaneId) : Half := highHalf (s.inDim k)

/-- The supplied planes 1..p (R110). -/
def suppliedPlanes (p : Nat) : List PlaneId := [PlaneId.plane1, PlaneId.plane2, PlaneId.plane3].take p

/-- `val(cell, t)` of an integer type (R24). -/
def intVal (cell : Word) : SampleType → Nat
  | .u8 => cell.toNat % 2 ^ 8
  | .u16 => cell.toNat % 2 ^ 16
  | .f32 => 0

/-- `val(cell, t)` as a multiple of 2^-149 for f32, of 1 for an integer type (R24). -/
def scaledVal (cell : Word) (t : SampleType) : Int :=
  match t with
  | .u8 => (intVal cell .u8 : Int)
  | .u16 => (intVal cell .u16 : Int)
  | .f32 => F32.scaled cell

/-- A word cut to the form R24 gives a cell of type t, a binary32 one finite (R30). -/
def conform (t : SampleType) (w : Word) : Word :=
  match t with
  | .u8 => BitVec.ofNat 32 (intVal w .u8)
  | .u16 => BitVec.ofNat 32 (intVal w .u16)
  | .f32 => F32.toFinite w

/-- `2^bitDepth − 1` (R140, R172). -/
def fullScale (bitDepth : BitVec 5) : Nat := 2 ^ bitDepth.toNat - 1

end Sys2Proof.Machine
end

