-- ==== Sys2Proof/Machine/Bus.lean ====
section
/-! DEFINITION. The host's bus: the address map and register map, and what a 32-bit read or write does
(spec 10_state R32 to R46, 20_memory R60 to R71, 70_reset R233). -/

namespace Sys2Proof.Machine

/-- The registers (R32). -/
inductive Reg where
  | id
  | version
  | cmd
  | status
  | frameInfo
  | yDim
  | cDim
  | rdata
  | inCfg
  | inDim1
  | inDim2
  | inDim3
  | idx
  | outDim
  | outInfo
  deriving DecidableEq, Repr

/-- What an aligned block offset addresses (R61). -/
inductive Target where
  | reg (r : Reg)
  | inCell (k : PlaneId) (n : Nat)
  | outCell (n : Nat)
  /-- Reserved or unmapped: reads 0, ignores writes (R46, R62, R64, R65). -/
  | hole
  deriving DecidableEq, Repr

/-- The offset of a register (R32, R102). -/
def Reg.offset : Reg → Word
  | .id => 0x000#32
  | .version => 0x004#32
  | .cmd => 0x008#32
  | .status => 0x00C#32
  | .frameInfo => 0x010#32
  | .yDim => 0x014#32
  | .cDim => 0x018#32
  | .rdata => 0x01C#32
  | .inCfg => 0x020#32
  | .inDim1 => 0x024#32
  | .inDim2 => 0x028#32
  | .inDim3 => 0x02C#32
  | .idx => 0x030#32
  | .outDim => 0x034#32
  | .outInfo => 0x038#32

/-- The target at word index i of region REG: the registers at 0x000 to 0x038, all else reserved (R32, R46). -/
def regTarget (i : Nat) : Target :=
  match i with
  | 0 => .reg .id
  | 1 => .reg .version
  | 2 => .reg .cmd
  | 3 => .reg .status
  | 4 => .reg .frameInfo
  | 5 => .reg .yDim
  | 6 => .reg .cDim
  | 7 => .reg .rdata
  | 8 => .reg .inCfg
  | 9 => .reg .inDim1
  | 10 => .reg .inDim2
  | 11 => .reg .inDim3
  | 12 => .reg .idx
  | 13 => .reg .outDim
  | 14 => .reg .outInfo
  | _ => .hole

/-- The number of cells of one staging buffer: MAX_W·MAX_H (R47). -/
def bufferCells (p : Params) : Nat := p.maxW * p.maxH

/-- IN[k] cell n where the buffer has one, else a hole (R62). -/
def inTarget (p : Params) (k : PlaneId) (n : Nat) : Target :=
  if n < bufferCells p then .inCell k n else .hole

/-- OUT cell n where the buffer has one, else a hole (R63, R64). -/
def outTarget (p : Params) (n : Nat) : Target :=
  if n < 3 * bufferCells p then .outCell n else .hole

/-- The address map (R61): regions of 2^28 bytes, REG, IN1, IN2, IN3, OUT, unmapped. -/
def addressMap (p : Params) (off : Word) : Target :=
  let n := off.toNat % 2 ^ 28 / 4
  match off.toNat / 2 ^ 28 with
  | 0 => regTarget n
  | 1 => inTarget p .plane1 n
  | 2 => inTarget p .plane2 n
  | 3 => inTarget p .plane3 n
  | 4 => outTarget p n
  | _ => .hole

/-- The host's address of a block offset (R60, R61; log 20). -/
def hostAddress (off : Word) : Nat := Config.base + off.toNat

/-- The bits of IN_CFG that hold a field; the others are reserved, ignore writes and read 0 (R41). -/
def inCfgMask : Word := 0x0003F1F3#32

/-- From a CMD write until the host reads STATUS with BUSY = 0 (R233; log 3). -/
def State.busy (s : State) : Bool := s.pending.isSome || s.busyWindow

/-- A read of OUT cell n: 0 while VALID = 0 or past the extent, else the word EXPORT stored (R64). -/
def State.outRead (s : State) (n : Nat) : Word :=
  if s.out.valid && decide (n < s.out.w.toNat * s.out.h.toNat * s.out.ch.toNat) then s.outCell n else 0

/-- A register's value outside the busy window (R33 to R45); a read of CMD returns 0 (R46). -/
def State.readReg (s : State) : Reg → Word
  | .id => 0x50595556#32
  | .version => 0x00010007#32
  | .cmd => 0
  | .status => s.statusWord
  | .frameInfo => s.frameInfo
  | .yDim => s.yDim
  | .cDim => s.cDim
  | .rdata => s.rdata
  | .inCfg => s.inCfg
  | .inDim1 => s.inDim1
  | .inDim2 => s.inDim2
  | .inDim3 => s.inDim3
  | .idx => s.idx
  | .outDim => s.outDim
  | .outInfo => s.outInfo

/-- What a target holds for a host read outside the busy window (R46, R62, R64, R65). -/
def State.readTarget (s : State) : Target → Word
  | .reg r => s.readReg r
  | .inCell k n => s.inCell k n
  | .outCell n => s.outRead n
  | .hole => 0

/-- The reads R233 makes any value in the busy window, STATUS apart. -/
def Target.isResult : Target → Bool
  | .reg .frameInfo => true
  | .reg .yDim => true
  | .reg .cDim => true
  | .reg .rdata => true
  | .reg .outDim => true
  | .reg .outInfo => true
  | .outCell _ => true
  | _ => false

/-- The writes R233 forbids in the busy window. -/
def Target.isGuarded : Target → Bool
  | .reg .cmd => true
  | .reg .inCfg => true
  | .reg .inDim1 => true
  | .reg .inDim2 => true
  | .reg .inDim3 => true
  | .reg .idx => true
  | .inCell _ _ => true
  | _ => false

/-- The next free value of a result read (R233, 93 U4; log 4). -/
def State.draw (s : State) : State × Word := ({ s with draws := s.draws + 1 }, Config.busyRead s.draws)

/-- A read of STATUS (R71, R233): BUSY = 1 and every other bit any value while a command is pending; else the register,
and the host has seen BUSY = 0. -/
def State.readStatus (s : State) : State × Word :=
  if s.pending.isSome then (s.draw.1, s.draw.2 ||| 1#32)
  else ({ s with busyWindow := false }, s.statusWord)

/-- A 32-bit aligned read (R68, R233). Only the host's view and the free-value counter change, never the block. -/
def State.busRead (s : State) (off : Word) : State × Word :=
  match addressMap s.params off with
  | .reg .status => s.readStatus
  | t => if s.busy && t.isResult then s.draw else (s, s.readTarget t)

/-- What a write stores (R35, R41 to R43, R46, R62, R63, R65). -/
def State.writeTarget (s : State) (t : Target) (v : Word) : State :=
  match t with
  | .reg .cmd => { s with pending := some v, busyWindow := true }
  | .reg .inCfg => { s with inCfg := v &&& inCfgMask }
  | .reg .inDim1 => { s with inDim1 := v }
  | .reg .inDim2 => { s with inDim2 := v }
  | .reg .inDim3 => { s with inDim3 := v }
  | .reg .idx => { s with idx := v }
  | .inCell k n => { s with mem := s.mem.writeWord (inAddr k n) v }
  | .reg .id => s
  | .reg .version => s
  | .reg .status => s
  | .reg .frameInfo => s
  | .reg .yDim => s
  | .reg .cDim => s
  | .reg .rdata => s
  | .reg .outDim => s
  | .reg .outInfo => s
  | .outCell _ => s
  | .hole => s

/-- A 32-bit aligned write (R68); refused in the busy window where R233 forbids it. -/
def State.busWrite (s : State) (off v : Word) : Answer :=
  let t := addressMap s.params off
  if s.busy && t.isGuarded then .refused .hostWriteWhileBusy else .next (s.writeTarget t v)

/-- The only access the block accepts: 32 bits wide at a multiple of 4 (R66). -/
def accessForm (bytes : Nat) (off : Word) : Bool := bytes == 4 && off.toNat % 4 == 0

/-- The host goes on to its next operation. -/
def State.hostNext (s : State) : State := { s with host := { s.host with pc := s.host.pc + 1 } }

/-- The host puts a value in a temporary. -/
def State.setTemp (s : State) (t : Temp) (v : Word) : State :=
  { s with host := { s.host with temps := s.host.temps.set t v } }

/-- One host operation (R101), refused where R66 or R233 says so. -/
def State.runHostOp (s : State) (op : HostOp) : Answer :=
  match op with
  | .write bytes off v => if accessForm bytes off then s.hostNext.busWrite off v else .refused .busAccessForm
  | .read bytes t off =>
    if accessForm bytes off then .next ((s.hostNext.busRead off).1.setTemp t (s.hostNext.busRead off).2)
    else .refused .busAccessForm
  | .andi td ts k => .next (s.hostNext.setTemp td (s.host.temps.get ts &&& k))
  | .srli td ts k => .next (s.hostNext.setTemp td (s.host.temps.get ts >>> k))
  | .bnez t target =>
    if s.host.temps.get t ≠ 0 then .next { s with host := { s.host with pc := target } } else .next s.hostNext

/-- The host's turn: its next operation, if it has one left (R16, R72). A host whose program has ended does nothing (log 15). -/
def hostTurn (s : State) : Answer :=
  match s.host.prog[s.host.pc]? with
  | some op => s.runHostOp op
  | none => .next s

end Sys2Proof.Machine
end

