-- ==== Sys2Proof/Syntax.lean ====
section
/-! DEFINITION. The command set pYUVision-CMD version 1: one constructor per row of the opcode table (spec 30_encoding R93). -/

namespace Sys2Proof

/-- A command. READ carries the two fields of its word, ARITY = w[7:4] and SEL = w[9:8] (R92, R96);
every other command has no field. -/
inductive Instr where
  | load
  | read (arity sel : Nat)
  | normalize
  | upsample
  | toRgb
  | exportOut
  deriving DecidableEq, Repr

end Sys2Proof
end

