-- ==== Sys2Proof/WellFormed.lean ====
section
/-! DEFINITION. Which commands a word can carry: the fields fit their bits (spec 30_encoding R92). -/

namespace Sys2Proof

/-- ARITY is a 4-bit value 0..15 and SEL a 2-bit value 0..3 (R92). -/
def Instr.wellFormed : Instr → Bool
  | .load => true
  | .read arity sel => decide (arity < 16) && decide (sel < 4)
  | .normalize => true
  | .upsample => true
  | .toRgb => true
  | .exportOut => true

end Sys2Proof
end

