-- ==== Sys2Proof/Decode.lean ====
section
/-! DEFINITION. The decoder of spec 30_encoding R99, total on every 32-bit word, the encoder of R100,
and the host's view of the opcode table's numbering. -/

namespace Sys2Proof

/-- Why a command word is illegal (R95). -/
inductive DecodeError where
  /-- OPCODE is 0x0 or 0x7..0xF. -/
  | reservedOpcode
  /-- A bit that R92 reserves for this opcode is 1. -/
  | reservedBit
  deriving DecidableEq, Repr

/-- OPCODE = w[3:0] (R92). -/
def fieldOpcode (w : Word) : BitVec 4 := w.extractLsb' 0 4

/-- ARITY = w[7:4] (R92, R96). -/
def fieldArity (w : Word) : BitVec 4 := w.extractLsb' 4 4

/-- SEL = w[9:8] (R92, R96). -/
def fieldSel (w : Word) : BitVec 2 := w.extractLsb' 8 2

/-- The bits [31:4], reserved for every opcode but READ (R92). -/
def fieldAboveOpcode (w : Word) : BitVec 28 := w.extractLsb' 4 28

/-- The bits [31:10], reserved for READ too (R92). -/
def fieldAboveSel (w : Word) : BitVec 22 := w.extractLsb' 10 22

/-- A command whose only bits are its opcode. -/
def plainCommand (w : Word) (i : Instr) : Except DecodeError Instr :=
  if fieldAboveOpcode w = 0 then .ok i else .error .reservedBit

/-- `decode(w)` of R99. -/
def decode (w : Word) : Except DecodeError Instr :=
  match (fieldOpcode w).toNat with
  | 1 => plainCommand w .load
  | 2 =>
    if fieldAboveSel w = 0 then .ok (.read (fieldArity w).toNat (fieldSel w).toNat)
    else .error .reservedBit
  | 3 => plainCommand w .normalize
  | 4 => plainCommand w .upsample
  | 5 => plainCommand w .toRgb
  | 6 => plainCommand w .exportOut
  | _ => .error .reservedOpcode

/-- The word of a command (R100): `READ a, s` is 0x0000_0002 | (a << 4) | (s << 8). -/
def encode : Instr → Word
  | .load => 0x00000001#32
  | .read arity sel =>
    0x00000002#32 ||| (BitVec.ofNat 32 arity <<< 4) ||| (BitVec.ofNat 32 sel <<< 8)
  | .normalize => 0x00000003#32
  | .upsample => 0x00000004#32
  | .toRgb => 0x00000005#32
  | .exportOut => 0x00000006#32

/-- The command word whose low `nbits` bits are those of `w` and whose other bits are 0. The block's
one format has one 32-bit word, whose bit 0 is the opcode table's bit 0 (R90, R92). -/
def tableWord (nbits w : Nat) : Word := BitVec.ofNat 32 (w % 2 ^ nbits)

/-- What the decoder reads from a word numbered as the opcode table numbers it. -/
def decodeTableWord (nbits w : Nat) : Option Instr :=
  match decode (tableWord nbits w) with
  | .ok i => some i
  | .error _ => none

end Sys2Proof
end

