-- ==== Sys2Proof/Machine/Export.lean ====
section
/-! DEFINITION. EXPORT: the frame to the OUT buffer in (row, col, channel) order (spec 45_export R190 to R193). -/

namespace Sys2Proof.Machine

/-- The channel count of an export by format, or its first error (R190, R211). -/
def State.exportChannels (s : State) : Except ResultCode PlaneCount :=
  if s.frame.init = false then .error .uninitializedFrame
  else if s.frame.fmt = .gray then .ok .one
  else if s.frame.fmt = .yuv444 then .ok .three
  else .error .requiresFull444

/-- The cells EXPORT writes to OUT[0], OUT[1], …: P1's, or for each pixel in turn its three channels (R190, R191). -/
def exportCells (f : Frame) (ch : PlaneCount) : List Word :=
  match ch with
  | .none => []
  | .one => (List.range f.p1.size).map f.p1.cellAt
  | .three => (List.range f.p1.size).flatMap fun n => [f.p1.cellAt n, f.p2.cellAt n, f.p3.cellAt n]

/-- The state EXPORT leaves: the cells in OUT, and OUT_DIM and OUT_INFO (R190). -/
def State.exported (s : State) (ch : PlaneCount) : State :=
  { s with
    mem := s.mem.writeWords (outAddr 0) (exportCells s.frame ch)
    out := { w := s.frame.p1.w, h := s.frame.p1.h, ch := ch, stype := s.frame.sampleType, valid := true } }

/-- EXPORT (R190). -/
def execExport (s : State) : Answer :=
  finishOrRaise s (s.exportChannels.map s.exported)

end Sys2Proof.Machine
end

