-- ==== Sys2Proof/Machine/Load.lean ====
section
/-! DEFINITION. LOAD: frame construction and subsampling inference (spec 40_load R110 to R118). -/

namespace Sys2Proof.Machine

/-- `classify`: the chroma format by exact ratio, first match wins (R116). -/
def classify (yW yH uW uH : Nat) : Option ChromaFormat :=
  if uW = yW ∧ uH = yH then some .yuv444
  else if uW * 2 = yW ∧ uH = yH then some .yuv422
  else if uW * 2 = yW ∧ uH * 2 = yH then some .yuv420
  else if uW * 4 = yW ∧ uH = yH then some .yuv411
  else if uW = yW ∧ uH * 2 = yH then some .yuv440
  else none

/-- A supplied plane's dimensions are legal: 1..MAX_W by 1..MAX_H (R111). -/
def State.dimsLegal (s : State) (k : PlaneId) : Bool :=
  decide (1 ≤ (s.inW k).toNat) && decide ((s.inW k).toNat ≤ s.params.maxW) &&
    decide (1 ≤ (s.inH k).toNat) && decide ((s.inH k).toNat ≤ s.params.maxH)

/-- A supplied plane's element type is u8 or u16 (R112). -/
def State.typeLegal (s : State) (k : PlaneId) : Bool := (loadableType (cfgType s.inCfg k)).isSome

/-- The element type of supplied plane k; its use follows R112's check. -/
def State.elemType (s : State) (k : PlaneId) : SampleType := (loadableType (cfgType s.inCfg k)).getD .f32

/-- The format of p supplied planes (R114, R116). -/
def State.loadFormat (s : State) (p : Nat) : Except ResultCode ChromaFormat :=
  if p = 2 then .error .inconsistentChromaSize
  else if p = 3 ∧ ¬(s.inW .plane2 = s.inW .plane3 ∧ s.inH .plane2 = s.inH .plane3) then .error .inconsistentChromaSize
  else if p = 1 then .ok .gray
  else
    match classify (s.inW .plane1).toNat (s.inH .plane1).toNat (s.inW .plane2).toNat (s.inH .plane2).toNat with
    | some f => .ok f
    | none => .error .unknownSubsampling

/-- LOAD's checks, in the order of R110 and R211: the format, or the first error. -/
def State.loadCheck (s : State) : Except ResultCode ChromaFormat :=
  let p := cfgPlanes s.inCfg
  let bd := (cfgBitDepth s.inCfg).toNat
  if p = 0 then .error .illegalCommand
  else if bd < 1 ∨ 16 < bd then .error .illegalCommand
  else if ¬((suppliedPlanes p).all s.dimsLegal) then .error .illegalCommand
  else if ¬((suppliedPlanes p).all s.typeLegal) then .error .invalidSampleType
  else if (s.elemType .plane1).width < bd then .error .illegalCommand
  else s.loadFormat p

/-- The copy of a staged cell into the frame: its value mod 2^min(width(t), width(TYPEk)) (R115). -/
def loadCell (t tk : SampleType) (cell : Word) : Word :=
  BitVec.ofNat 32 (cell.toNat % 2 ^ min t.width tk.width)

/-- The plane register LOAD builds from supplied plane k (R110, R115). -/
def State.loadPlane (s : State) (k : PlaneId) : Plane where
  w := s.inW k
  h := s.inH k
  cells := (List.range ((s.inW k).toNat * (s.inH k).toNat)).map fun n =>
    loadCell (s.elemType .plane1) (s.elemType k) (s.inCell k n)

/-- The frame a successful LOAD commits; P2 and P3 are absent when p = 1 (R110, R117). -/
def State.loadFrame (s : State) (f : ChromaFormat) : Frame :=
  let one := cfgPlanes s.inCfg = 1
  { init := true
    planes := if one then .one else .three
    p1 := s.loadPlane .plane1
    p2 := if one then .absent else s.loadPlane .plane2
    p3 := if one then .absent else s.loadPlane .plane3
    sampleType := s.elemType .plane1
    bitDepth := cfgBitDepth s.inCfg
    fmt := f }

/-- LOAD (R110). -/
def execLoad (s : State) : Answer :=
  finishOrRaise s (s.loadCheck.map fun f => { s with frame := s.loadFrame f })

end Sys2Proof.Machine
end

