-- ==== Sys2Proof/Machine/Normalize.lean ====
section
/-! DEFINITION. NORMALIZE: bit-depth normalizer and dtype router (spec 42_normalize R140 to R144). -/

namespace Sys2Proof.Machine

/-- The divisor: 255 for u8, else 2^bitDepth − 1 (R140, R143). An f32 frame's is 2^bitDepth − 1 whatever its type at LOAD
(R141), although 90_conflicts C3's gloss has 255 for a frame loaded as u8: the two differ when its bitDepth is below 8,
and the model takes the rules' (log 24). -/
def normDivisor (t : SampleType) (bitDepth : BitVec 5) : Nat :=
  match t with
  | .u8 => 255
  | .u16 => fullScale bitDepth
  | .f32 => fullScale bitDepth

/-- `bitsF32(f32(x))` of a cell's value x (R140). A binary32 value is its own rounding. -/
def cellAsF32 (t : SampleType) (cell : Word) : Word :=
  match t with
  | .u8 => F32.ofNat (intVal cell .u8)
  | .u16 => F32.ofNat (intVal cell .u16)
  | .f32 => cell

/-- One cell of NORMALIZE: `bitsF32(f32(x) ⊘ f32(d))` (R140). -/
def normalizeCell (t : SampleType) (bitDepth : BitVec 5) (cell : Word) : Word :=
  F32.div (cellAsF32 t cell) (F32.ofNat (normDivisor t bitDepth))

/-- The body of NORMALIZE: every present plane rescaled, the type f32 (R140). -/
def Frame.normalized (f : Frame) : Frame :=
  { f.mapPresent (normalizeCell f.sampleType f.bitDepth) with sampleType := .f32 }

/-- The only check of NORMALIZE (R211). -/
def State.normalizeCheck (s : State) : Except ResultCode Unit :=
  if s.frame.init = false then .error .uninitializedFrame else .ok ()

/-- NORMALIZE (R140). It is not guarded against repetition (R141). -/
def execNormalize (s : State) : Answer :=
  finishOrRaise s (s.normalizeCheck.map fun _ => { s with frame := s.frame.normalized })

end Sys2Proof.Machine
end

