-- ==== Sys2Proof/Machine/Read.lean ====
section
/-! DEFINITION. READ: pixel indexing (spec 41_read R130 to R134). -/

namespace Sys2Proof.Machine

/-- The plane a selector 0, 1, 2 selects; any other selector lies outside the range (R132, R133). -/
def selectedPlane (sel : Nat) : Option PlaneId :=
  match sel with
  | 0 => some .plane1
  | 1 => some .plane2
  | 2 => some .plane3
  | _ => none

/-- The plane READ indexes, by format, arity and selector (R130, R131, R133). SEL is ignored for a GRAY frame. -/
def State.readPlane (s : State) (arity sel : Nat) : Except ResultCode PlaneId :=
  if s.frame.init = false then .error .uninitializedFrame
  else if s.frame.fmt = .gray then
    if arity = 2 then .ok .plane1 else .error .invalidIndexArity
  else if arity ≠ 3 then .error .invalidIndexArity
  else
    match selectedPlane sel with
    | some k => .ok k
    | none => .error .indexOutOfRange

/-- The cell READ returns, or its first error (R130, R211). ROW = IDX[15:0], COL = IDX[31:16]. -/
def State.readCell (s : State) (arity sel : Nat) : Except ResultCode Word :=
  match s.readPlane arity sel with
  | .error e => .error e
  | .ok k =>
    let p := s.frame.plane k
    let r := lowHalf s.idx
    let c := highHalf s.idx
    if p.h.toNat ≤ r.toNat ∨ p.w.toNat ≤ c.toNat then .error .indexOutOfRange
    else .ok (p.cell r.toNat c.toNat)

/-- READ a, s (R130). -/
def execRead (arity sel : Nat) (s : State) : Answer :=
  finishOrRaise s ((s.readCell arity sel).map fun v => { s with rdata := v })

end Sys2Proof.Machine
end

