-- ==== Sys2Proof/Machine/ToRgb.lean ====
section
/-! DEFINITION. TO_RGB: colorspace converter with saturation (spec 44_to_rgb R170 to R178). -/

namespace Sys2Proof.Machine

/-- 1.402 in binary32 (R173). -/
def kRV : Word := 0x3FB374BC#32

/-- 0.344136 in binary32 (R173). -/
def kGU : Word := 0x3EB03298#32

/-- 0.714136 in binary32 (R173). -/
def kGV : Word := 0x3F36D19E#32

/-- 1.772 in binary32 (R173). -/
def kBU : Word := 0x3FE2D0E5#32

/-- A chroma value with its offset removed (R174). -/
def centred (chroma : Word) : Word := F32.sub chroma F32.half

/-- R = clip01(y ⊕ (K_RV ⊗ v)) (R170). -/
def pixelR (y _u v : Word) : Word := F32.clip01 (F32.add y (F32.mul kRV v))

/-- G = clip01((y ⊖ (K_GU ⊗ u)) ⊖ (K_GV ⊗ v)) (R170, R174). -/
def pixelG (y u v : Word) : Word := F32.clip01 (F32.sub (F32.sub y (F32.mul kGU u)) (F32.mul kGV v))

/-- B = clip01(y ⊕ (K_BU ⊗ u)) (R170). -/
def pixelB (y u _v : Word) : Word := F32.clip01 (F32.add y (F32.mul kBU u))

/-- The cell a converted value is stored as: rescaled and cast for an integer frame, else the binary32 word (R172). -/
def rgbCell (cr : CastRound) (t0 : SampleType) (bitDepth : BitVec 5) (x : Word) : Word :=
  match t0 with
  | .u8 => F32.cast cr (F32.mul x (F32.ofNat (fullScale bitDepth)))
  | .u16 => F32.cast cr (F32.mul x (F32.ofNat (fullScale bitDepth)))
  | .f32 => x

/-- The frame the conversion reads: normalized first unless it is f32 (R170, R172). -/
def Frame.asFloat (f : Frame) : Frame :=
  match f.sampleType with
  | .u8 => f.normalized
  | .u16 => f.normalized
  | .f32 => f

/-- One output plane: `channel` of the pixels at every cell of plane 1, stored as `rgbCell` (R170, R174). `src` is the
float frame read; `old` the plane register overwritten, whose dimensions stay (R175). -/
def convertPlane (cr : CastRound) (t0 : SampleType) (src : Frame) (channel : Word → Word → Word → Word) (old : Plane) : Plane :=
  { old with
    cells := (List.range src.p1.size).map fun n =>
      rgbCell cr t0 src.bitDepth
        (channel (src.p1.cellAt n) (centred (src.p2.cellAt n)) (centred (src.p3.cellAt n))) }

/-- The frame TO_RGB leaves: plane 1 ← R, plane 2 ← G, plane 3 ← B; fmt and the sample type as before (R170, R175, R178). -/
def Frame.converted (f : Frame) (cr : CastRound) : Frame :=
  { f with
    p1 := convertPlane cr f.sampleType f.asFloat pixelR f.p1
    p2 := convertPlane cr f.sampleType f.asFloat pixelG f.p2
    p3 := convertPlane cr f.sampleType f.asFloat pixelB f.p3 }

/-- The checks of TO_RGB, in order (R170, R176, R211). -/
def State.toRgbCheck (s : State) : Except ResultCode Unit :=
  if s.frame.init = false then .error .uninitializedFrame
  else if s.frame.fmt = .gray then .error .notApplicable
  else if s.frame.fmt ≠ .yuv444 then .error .requiresFull444
  else .ok ()

/-- TO_RGB (R170). -/
def execToRgb (s : State) : Answer :=
  finishOrRaise s (s.toRgbCheck.map fun _ => { s with frame := s.frame.converted s.params.castRound })

end Sys2Proof.Machine
end

