-- ==== Sys2Proof/Machine/Upsample.lean ====
section
/-! DEFINITION. UPSAMPLE: chroma-plane upsampler and its filter LANCZOS3_Q14 (spec 43_upsample R150 to R159). -/

namespace Sys2Proof.Machine

/-- s(f, p) and C(f, p) of the coefficient table, in units of 2^-14 (R154). -/
def taps (f p : Nat) : Int × List Int :=
  match f, p with
  | 2, 0 => (-3, [121, -1114, 4440, 14628, -2184, 493])
  | 2, 1 => (-2, [493, -2184, 14628, 4440, -1114, 121])
  | 4, 0 => (-3, [257, -1736, 7206, 12583, -2425, 499])
  | 4, 1 => (-3, [30, -501, 1977, 15936, -1393, 335])
  | 4, 2 => (-2, [335, -1393, 15936, 1977, -501, 30])
  | 4, 3 => (-2, [499, -2425, 12583, 7206, -1736, 257])
  | _, _ => (-2, [0, 0, 16384, 0, 0, 0])

/-- Edge rule: a tap index is clamped to 0..n−1 (R156). -/
def clampIndex (x : Int) (n : Nat) : Nat := (clampInt x 0 ((n : Int) - 1)).toNat

/-- The taps of output index o on an axis of factor f and n source samples: pairs of a coefficient and a clamped source
index k + s(f, p) + i, where k = o div f and p = o mod f (R153, R156). -/
def axisTaps (f o n : Nat) : List (Int × Nat) :=
  (taps f (o % f)).2.zipIdx.map fun ci => (ci.1, clampIndex (((o / f : Nat) : Int) + (taps f (o % f)).1 + (ci.2 : Int)) n)

/-- The sum of the terms. -/
def sumInt (l : List Int) : Int := l.foldr (· + ·) 0

/-- `acc` of R155: the double sum of coefficient products times cell values, exact. -/
def lanczosAcc (x : Plane) (fx fy r c : Nat) (t : SampleType) : Int :=
  sumInt ((axisTaps fy r x.h.toNat).map fun ty =>
    ty.1 * sumInt ((axisTaps fx c x.w.toNat).map fun tx => tx.1 * scaledVal (x.cell ty.2 tx.2) t))

/-- The output cell of an accumulated sum: v = acc / 2^28 rounded once, integers saturated to the storage range, f32 not
clipped (R155). -/
def lanczosRound (acc : Int) (t : SampleType) : Word :=
  match t with
  | .u8 => BitVec.ofInt 32 (clampInt (rheInt acc (2 ^ 28)) 0 (2 ^ 8 - 1))
  | .u16 => BitVec.ofInt 32 (clampInt (rheInt acc (2 ^ 28)) 0 (2 ^ 16 - 1))
  | .f32 => F32.ofScaled acc (2 ^ 28)

/-- One output cell of LANCZOS3_Q14 (R155). -/
def lanczosCell (x : Plane) (fx fy r c : Nat) (t : SampleType) : Word := lanczosRound (lanczosAcc x fx fy r c t) t

/-- The factor of an axis: the target over the source size, where that is one of `allowed` (R151, R152). -/
def axisFactor (allowed : List Nat) (target source : Nat) : Option Nat :=
  allowed.find? fun f => decide (f * source = target)

/-- The sample values R155 computes with exist: f32 cells are finite (R30). -/
def Plane.valuesDefined (x : Plane) (t : SampleType) : Bool :=
  match t with
  | .u8 => true
  | .u16 => true
  | .f32 => x.cells.all F32.finite

/-- The domain of the filter contract (R151): the two axis factors, where the target dimensions have them and the
plane's values exist. -/
def filterFactors (x : Plane) (w h : Nat) (t : SampleType) : Option (Nat × Nat) :=
  match axisFactor [1, 2, 4] w x.w.toNat, axisFactor [1, 2] h x.h.toNat with
  | some fx, some fy => if x.valuesDefined t then some (fx, fy) else none
  | _, _ => none

/-- Cell n of an uninterpreted filter's output, in the form of a cell of type t (R151, R24; log 9, log 10). -/
def freeFilterCell (x : Plane) (w h : Nat) (t : SampleType) (n : Nat) : Word :=
  conform t (Config.filterCell x.cells x.w.toNat x.h.toNat w h t.code n)

/-- Cell n, row by row, of UPSAMPLE_FILTER's output (R151, R152). -/
def filterCell (choice : FilterChoice) (x : Plane) (w h : Nat) (t : SampleType) (n : Nat) : Word :=
  match choice with
  | .other => freeFilterCell x w h t n
  | .lanczos3Q14 =>
    match filterFactors x w h t with
    | some (fx, fy) => lanczosCell x fx fy (n / w) (n % w) t
    | none => freeFilterCell x w h t n

/-- `UPSAMPLE_FILTER(X, W, H, t)`: a plane of exactly (W, H) cells (R151). -/
def upsampleFilter (choice : FilterChoice) (x : Plane) (w h : Half) (t : SampleType) : Plane where
  w := w
  h := h
  cells := (List.range (w.toNat * h.toNat)).map (filterCell choice x w.toNat h.toNat t)

/-- The checks of UPSAMPLE, in order (R150, R211). -/
def State.upsampleCheck (s : State) : Except ResultCode Unit :=
  if s.frame.init = false then .error .uninitializedFrame
  else if s.frame.fmt = .gray then .error .notApplicable
  else if s.frame.p2.w = s.frame.p1.w ∧ s.frame.p2.h = s.frame.p1.h then .error .alreadyFull
  else .ok ()

/-- The frame UPSAMPLE leaves: both chroma planes at the luma dimensions, fmt = YUV444 (R150). -/
def State.upsampledFrame (s : State) : Frame :=
  let f := s.frame
  { f with
    p2 := upsampleFilter s.params.upsampleFilter f.p2 f.p1.w f.p1.h f.sampleType
    p3 := upsampleFilter s.params.upsampleFilter f.p3 f.p1.w f.p1.h f.sampleType
    fmt := .yuv444 }

/-- UPSAMPLE (R150). -/
def execUpsample (s : State) : Answer :=
  finishOrRaise s (s.upsampleCheck.map fun _ => { s with frame := s.upsampledFrame })

end Sys2Proof.Machine
end

