-- ==== Sys2Proof/Machine/Dispatch.lean ====
section
/-! DEFINITION. One arm per command (spec 30_encoding R91, R93). -/

namespace Sys2Proof.Machine

def exec (i : Instr) (s : State) : Host.Outcome State Fault Refusal :=
  match i with
  | .load => Sys2Proof.Machine.execLoad s
  | .read arity sel => Sys2Proof.Machine.execRead arity sel s
  | .normalize => Sys2Proof.Machine.execNormalize s
  | .upsample => Sys2Proof.Machine.execUpsample s
  | .toRgb => Sys2Proof.Machine.execToRgb s
  | .exportOut => Sys2Proof.Machine.execExport s

end Sys2Proof.Machine
end

