-- ==== Sys2Proof/Machine/Engine.lean ====
section
/-! DEFINITION. The engine's turn (spec 20_memory R70, R71; 30_encoding R91, R95) and the reset input (70_reset R230). -/

namespace Sys2Proof.Machine

/-- The engine runs command word w: the command it decodes to, or IllegalCommand (R91, R95, R210). -/
def runWord (w : Word) (s : State) : Answer :=
  match decode w with
  | .ok i => exec i s
  | .error _ => .next (s.raise .illegalCommand)

/-- The engine's turn: a pending command runs in one indivisible step and `pending` is cleared (R49, R70, R71). The engine
takes no step except to execute a command (R16; log 15). -/
def engineTurn (s : State) : Answer :=
  match s.pending with
  | some w => runWord w { s with pending := none }
  | none => .next s

/-- The reset input is asserted (R230): every piece of the block's state at its reset value, a pending command abandoned,
every memory cell at a fresh draw. The parameters, the host and the schedule are not the block's state (log 16). -/
def State.assertReset (s : State) : State :=
  { State.reset with
    params := s.params
    host := s.host
    sched := s.sched
    draws := s.draws
    resets := s.resets + 1 }

end Sys2Proof.Machine
end

