-- ==== Sys2Proof/Machine/Step.lean ====
section
/-! DEFINITION. One step: whoever's turn it is moves (spec 00_scope R16, 20_memory R71). -/

namespace Sys2Proof.Machine

/-- A step takes the schedule's next turn. When the schedule is exhausted a pending command runs first, else the host
moves: so no command is postponed for ever (R71, weak fairness; log 1). -/
def step (s : State) : Host.Outcome State Fault Refusal :=
  match s.sched with
  | [] => if s.pending.isSome then engineTurn s else hostTurn s
  | .engine :: rest => engineTurn { s with sched := rest }
  | .host :: rest => hostTurn { s with sched := rest }
  | .resetAsserted :: rest => .next (State.assertReset { s with sched := rest })

/-- The state with a command word written to CMD, and the engine's turn next (log 17). -/
def State.withFetchWord (s : State) (nbits w : Nat) : State :=
  { s with pending := some (tableWord nbits w), busyWindow := true, sched := .engine :: s.sched }

end Sys2Proof.Machine
end

