-- ==== Sys2Proof/Machine/HostProgram.lean ====
section
/-! DEFINITION. The host's pseudo-instructions and their expansions (spec 30_encoding R103). -/

namespace Sys2Proof.Machine

/-- A line of host code: an operation of R101 or a pseudo-instruction of R103. -/
inductive Pseudo where
  | op (o : HostOp)
  | wait
  | run (i : Instr)
  | setCfg (p d a b c : Nat)
  | setDim (k : PlaneId) (w h : Nat)
  | setIdx (r c : Nat)
  | put (k : PlaneId) (n : Nat) (v : Word)
  | getOut (t : Temp) (n : Nat)
  | result (t : Temp)
  | convert
  deriving DecidableEq, Repr

/-- The register IN_DIMk (R42, R102): `IN_DIM1 + 4·(k−1)`. -/
def dimReg : PlaneId → Reg
  | .plane1 => .inDim1
  | .plane2 => .inDim2
  | .plane3 => .inDim3

/-- `WAIT` at index `start`: poll STATUS until BUSY = 0 (R103). -/
def waitOps (start : Nat) : List HostOp :=
  [.lw .t7 (Reg.offset .status), .andi .t7 .t7 1#32, .bnez .t7 start]

/-- `RUN X` at index `start`: write word(X) to CMD, then WAIT (R103). -/
def runOps (start : Nat) (i : Instr) : List HostOp :=
  .sw (Reg.offset .cmd) (encode i) :: waitOps (start + 1)

/-- The expansion of a line that starts at an index (R103). -/
def Pseudo.expand (start : Nat) : Pseudo → List HostOp
  | .op o => [o]
  | .wait => waitOps start
  | .run i => runOps start i
  | .setCfg p d a b c =>
    [.sw (Reg.offset .inCfg) (BitVec.ofNat 32 (p ||| d <<< 4 ||| a <<< 12 ||| b <<< 14 ||| c <<< 16))]
  | .setDim k w h => [.sw (Reg.offset (dimReg k)) (BitVec.ofNat 32 (h <<< 16 ||| w))]
  | .setIdx r c => [.sw (Reg.offset .idx) (BitVec.ofNat 32 (c <<< 16 ||| r))]
  | .put k n v => [.sw (BitVec.ofNat 32 (inAddr k n)) v]
  | .getOut t n => [.lw t (BitVec.ofNat 32 (outAddr n))]
  | .result t => [.lw t (Reg.offset .status), .srli t t 4, .andi t t 0xF#32]
  | .convert => runOps start .upsample ++ runOps (start + 4) .toRgb ++ runOps (start + 8) .exportOut

/-- Host code placed at an index, line after line, with its labels resolved to indexes (R103; log 14). -/
def assembleAt (start : Nat) : List Pseudo → List HostOp
  | [] => []
  | p :: ps => p.expand start ++ assembleAt (start + (p.expand start).length) ps

/-- Host code as the host's program. -/
def assemble (ps : List Pseudo) : List HostOp := assembleAt 0 ps

end Sys2Proof.Machine
end

