-- ==== Sys2Proof/Machine/Stream.lean ====
section
/-! DEFINITION. The host-side stream convention (spec 20_memory R77 to R82): how a host that reads raw planar frames stages
them. It is not part of the block, and no step of the machine uses it (00_scope R6; log 21). -/

namespace Sys2Proof.Machine

/-- ceil(bits / 8): bytes of a sample in the stream (R78, R79). -/
def streamSampleBytes (bits : Nat) : Nat := (bits + 7) / 8

/-- The dtype router: u8 for depth 8, u16 for 10 or 16, no other depth is read (R80). -/
def streamType (bits : Nat) : Option SampleType :=
  match bits with
  | 8 => some .u8
  | 10 => some .u16
  | 16 => some .u16
  | _ => none

/-- The element type of a stream frame a host reads and loads: none for another depth (R80, 93 U16) or an odd dimension
(R82, 93 U17). -/
def streamFrameType (w h bits : Nat) : Option SampleType :=
  if w % 2 = 1 ∨ h % 2 = 1 then none else streamType bits

/-- The byte length of a frame's luma plane (R79). -/
def streamLumaLength (w h bits : Nat) : Nat := w * h * streamSampleBytes bits

/-- The byte length of each chroma plane: luma_length / 4 (R79). -/
def streamChromaLength (w h bits : Nat) : Nat := streamLumaLength w h bits / 4

/-- A 2-byte sample in the stream's byte order (R82). -/
def streamPair (order : ByteOrder) (first second : Byte) : Word :=
  match order with
  | .le => (second ++ first : BitVec 16).setWidth 32
  | .be => (first ++ second : BitVec 16).setWidth 32

/-- 2-byte samples, in order (R78, R82). -/
def streamPairs (order : ByteOrder) : List Byte → List Word
  | b0 :: b1 :: rest => streamPair order b0 b1 :: streamPairs order rest
  | _ => []

/-- The samples of a plane's bytes (R78). -/
def streamSamples (order : ByteOrder) (t : SampleType) (bytes : List Byte) : List Word :=
  match t with
  | .u8 => bytes.map (·.setWidth 32)
  | .u16 => streamPairs order bytes
  | .f32 => []

/-- What read-next-frame answers (R81). -/
inductive StreamRead where
  /-- The three planes' samples and the bytes that remain. -/
  | frame (y u v : List Word) (rest : List Byte)
  /-- Fewer bytes remain than one frame needs: a normal control signal (R81). -/
  | endOfStream
  /-- A depth other than 8, 10, 16 (R80, 93 U16) or an odd dimension (R82, 93 U17): the host reads no such stream. -/
  | notRead
  deriving DecidableEq, Repr

/-- read-next-frame: luma, then two chroma planes, packed back to back (R77, R79, R81). -/
def streamNextFrame (order : ByteOrder) (w h bits : Nat) (bytes : List Byte) : StreamRead :=
  match streamFrameType w h bits with
  | none => .notRead
  | some t =>
    let luma := streamLumaLength w h bits
    let chroma := streamChromaLength w h bits
    if bytes.length < luma + 2 * chroma then .endOfStream
    else
      .frame (streamSamples order t (bytes.take luma))
        (streamSamples order t ((bytes.drop luma).take chroma))
        (streamSamples order t ((bytes.drop (luma + chroma)).take chroma))
        (bytes.drop (luma + 2 * chroma))

/-- The writes that stage one plane's samples (R62). -/
def stagePlane (k : PlaneId) (samples : List Word) : List Pseudo :=
  samples.zipIdx.map fun vn => .put k vn.2 vn.1

/-- The host code that stages a stream frame of luma size w × h and declared depth `bits`, and loads it (R80, R82, R232):
TYPE1 to TYPE3 are the depth's type and BIT_DEPTH the depth. A frame that the host does not read starts no LOAD. -/
def stageFrame (w h bits : Nat) (y u v : List Word) : Option (List Pseudo) :=
  (streamFrameType w h bits).map fun t =>
    stagePlane .plane1 y ++ stagePlane .plane2 u ++ stagePlane .plane3 v ++
      [.setCfg 3 bits t.code t.code t.code, .setDim .plane1 w h, .setDim .plane2 (w / 2) (h / 2),
        .setDim .plane3 (w / 2) (h / 2), .run .load]

/-- The host code that reads the next frame from the stream's bytes and loads it, none at the stream's end or where the
host reads no frame (R80, R81). -/
def loadNextFrame (order : ByteOrder) (w h bits : Nat) (bytes : List Byte) : Option (List Pseudo) :=
  match streamNextFrame order w h bits bytes with
  | .frame y u v _ => stageFrame w h bits y u v
  | .endOfStream => none
  | .notRead => none

end Sys2Proof.Machine
end

