-- ==== Sys2Proof/Safety.lean ====
section
/-! DEFINITION. What counts as a safe run, and the invariants that rule out the states no run reaches
(spec 10_state R23, R24, R26, R29, R30; 70_reset R240). -/

namespace Sys2Proof.Machine

/-- The host kept R66 and R233 for n steps: none of them was refused. A run in which the host broke them has no result (R240). -/
def SafeRun (n : Nat) (s : State) : Prop := ∃ t, Sys2Proof.core.run n s = .next t

/-- The run has ended: the host has made its last access and no command is pending (R240). -/
def RunEnded (s : State) : Prop := s.pending = none ∧ s.host.prog.length ≤ s.host.pc

/-- A present plane register: legal dimensions and W·H cells (R21). -/
structure Plane.Wf (p : Params) (x : Plane) : Prop where
  wPos : 1 ≤ x.w.toNat
  wMax : x.w.toNat ≤ p.maxW
  hPos : 1 ≤ x.h.toNat
  hMax : x.h.toNat ≤ p.maxH
  cells : x.cells.length = x.size

/-- The chroma dimensions fit the format (R29, item 3). -/
def chromaFits (fmt : ChromaFormat) (yW yH uW uH : Nat) : Prop :=
  match fmt with
  | .gray => True
  | .yuv444 => uW = yW ∧ uH = yH
  | .yuv422 => 2 * uW = yW ∧ uH = yH
  | .yuv420 => 2 * uW = yW ∧ 2 * uH = yH
  | .yuv411 => 4 * uW = yW ∧ uH = yH
  | .yuv440 => uW = yW ∧ 2 * uH = yH

/-- The frame's invariants while `init` = true (R21, R23, R26, R29). -/
structure Frame.Loaded (p : Params) (f : Frame) : Prop where
  some : f.planes ≠ .none
  gray : f.planes = .one ↔ f.fmt = .gray
  p1 : f.p1.Wf p
  p2 : f.planes = .three → f.p2.Wf p
  p3 : f.planes = .three → f.p3.Wf p
  sameDims : f.planes = .three → f.p2.w = f.p3.w ∧ f.p2.h = f.p3.h
  fits : f.planes = .three → chromaFits f.fmt f.p1.w.toNat f.p1.h.toNat f.p2.w.toNat f.p2.h.toNat
  depthPos : 1 ≤ f.bitDepth.toNat
  depthMax : f.bitDepth.toNat ≤ 16
  depthWidth : f.bitDepth.toNat ≤ f.sampleType.width

/-- The frame's invariants (R22, R23, R29). -/
structure Frame.Wf (p : Params) (f : Frame) : Prop where
  absent : f.init = false → f.planes = .none
  loaded : f.init = true → f.Loaded p

/-- An offset lies in a cell of IN[1..3] or OUT (R61 to R63). -/
def inBuffers (p : Params) (a : Nat) : Bool :=
  (decide (1 ≤ a / 2 ^ 28) && decide (a / 2 ^ 28 ≤ 3) && decide (a % 2 ^ 28 < 4 * bufferCells p)) ||
    (decide (a / 2 ^ 28 = 4) && decide (a % 2 ^ 28 < 4 * (3 * bufferCells p)))

/-- The machine's structural invariant. -/
structure State.Inv (s : State) : Prop where
  legal : s.params.legal = true
  frame : s.frame.Wf s.params
  ordered : s.mem.wf
  buffers : ∀ c ∈ s.mem, inBuffers s.params c.1 = true
  cfg : s.inCfg &&& inCfgMask = s.inCfg
  pendingBusy : s.pending.isSome = true → s.busyWindow = true
  outChannels : s.out.valid = true ↔ s.out.ch ≠ .none
  outExtent : s.out.w.toNat * s.out.h.toNat * s.out.ch.toNat ≤ 3 * bufferCells s.params

/-- The largest finite magnitude of binary32, as a multiple of 2^-149. -/
def largestFinite : Nat := (2 ^ 24 - 1) * 2 ^ 253

/-- The largest magnitude a binary32 cell reaches, as a multiple of 2^-149: 65535 before the chroma planes are upsampled.
After that, twice as much with the block's own filter, since the products of the coefficients of both axes sum in magnitude
to less than 2·2^28, and any finite value with another filter (R30, R151, R154). -/
def floatBound (filter : FilterChoice) (fmt : ChromaFormat) : Nat :=
  if fmt = .yuv444 then
    match filter with
    | .lanczos3Q14 => 2 * (65535 * 2 ^ 149)
    | .other => largestFinite
  else 65535 * 2 ^ 149

/-- A cell holds a value of type t in the form of R24, a binary32 one finite and bounded (R29 item 4, R30). -/
def cellForm (t : SampleType) (bound : Nat) (w : Word) : Prop :=
  match t with
  | .u8 => w.toNat < 2 ^ 8
  | .u16 => w.toNat < 2 ^ 16
  | .f32 => F32.finite w = true ∧ F32.mag w ≤ bound

/-- Every present cell has its form, whichever filter the block has (R29 item 4, R30). -/
structure Frame.CellsFormed (p : Params) (f : Frame) : Prop where
  p1 : f.init = true → ∀ w ∈ f.p1.cells, cellForm f.sampleType (floatBound p.upsampleFilter f.fmt) w
  p2 : f.init = true → f.planes = .three → ∀ w ∈ f.p2.cells, cellForm f.sampleType (floatBound p.upsampleFilter f.fmt) w
  p3 : f.init = true → f.planes = .three → ∀ w ∈ f.p3.cells, cellForm f.sampleType (floatBound p.upsampleFilter f.fmt) w

end Sys2Proof.Machine
end

