-- ==== Sys2Proof/Certificates/Slice0/Obligations.lean ====
section
/-! DEFINITION. The statements for the provers: what the numbered rules of spec/ say the block does. -/

open Sys2Proof Sys2Proof.Machine

namespace Sys2Proof.Machine

/-! ## Words the statements share, written from the spec and not from the meanings -/

/-- A command word R95 calls illegal: a reserved opcode, or a reserved bit set for its opcode. -/
def illegalWord (w : Word) : Prop :=
  w.toNat % 16 = 0 ∨ 7 ≤ w.toNat % 16 ∨ (w.toNat % 16 = 2 ∧ 1 ≤ w.toNat / 1024) ∨ (w.toNat % 16 ≠ 2 ∧ 1 ≤ w.toNat / 16)

/-- The reset value of a register (R32). -/
def registerResetValue : Reg → Word
  | .id => 0x50595556#32
  | .version => 0x00010007#32
  | _ => 0#32

/-- The supplied planes' dimensions are legal (R111). -/
def suppliedDimsLegal (s : State) (p : Nat) : Prop :=
  ∀ k : PlaneId, k.number ≤ p →
    1 ≤ (s.inW k).toNat ∧ (s.inW k).toNat ≤ s.params.maxW ∧ 1 ≤ (s.inH k).toNat ∧ (s.inH k).toNat ≤ s.params.maxH

/-- The supplied planes' types are u8 (0) or u16 (1) (R112). -/
def suppliedTypesLegal (s : State) (p : Nat) : Prop := ∀ k : PlaneId, k.number ≤ p → cfgType s.inCfg k ≤ 1

/-- What R110 needs of the registers for LOAD to build a frame of format f. -/
def loadAccepts (s : State) (f : ChromaFormat) : Prop :=
  (cfgPlanes s.inCfg = 1 ∨ cfgPlanes s.inCfg = 3) ∧
    1 ≤ (cfgBitDepth s.inCfg).toNat ∧ (cfgBitDepth s.inCfg).toNat ≤ 16 ∧
    suppliedDimsLegal s (cfgPlanes s.inCfg) ∧ suppliedTypesLegal s (cfgPlanes s.inCfg) ∧
    (cfgBitDepth s.inCfg).toNat ≤ 8 * (1 + cfgType s.inCfg .plane1) ∧
    (cfgPlanes s.inCfg = 1 → f = .gray) ∧
    (cfgPlanes s.inCfg = 3 → f ≠ .gray ∧ s.inW .plane2 = s.inW .plane3 ∧ s.inH .plane2 = s.inH .plane3 ∧
      chromaFits f (s.inW .plane1).toNat (s.inH .plane1).toNat (s.inW .plane2).toNat (s.inH .plane2).toNat)

/-- A binary32 word holds a finite value (R12, log 12). -/
def specFinite (w : Word) : Prop := w.toNat / 2 ^ 23 % 256 ≠ 255

/-- The magnitude of a finite binary32 word, as a multiple of 2^-149. -/
def specMag (w : Word) : Nat :=
  if w.toNat / 2 ^ 23 % 256 = 0 then w.toNat % 2 ^ 23 else (2 ^ 23 + w.toNat % 2 ^ 23) * 2 ^ (w.toNat / 2 ^ 23 % 256 - 1)

/-- `asF32(w)` of a finite binary32 word, as a multiple of 2^-149 (R12). -/
def specScaled (w : Word) : Int := if 2 ^ 31 ≤ w.toNat then -(specMag w : Int) else (specMag w : Int)

/-- w is `bitsF32(f32((num / den)·2^-149))` (R12): no finite binary32 value is nearer, and where another is as near w's last
bit is 0; from half a last place past the largest finite value on, the infinity (log 12). -/
def roundsTo (w : Word) (num : Int) (den : Nat) : Prop :=
  if num.natAbs < (2 ^ 25 - 1) * 2 ^ 252 * den then
    specFinite w ∧ ∀ v, specFinite v →
      (specScaled w * den - num).natAbs ≤ (specScaled v * den - num).natAbs ∧
      ((specScaled w * den - num).natAbs = (specScaled v * den - num).natAbs →
        specScaled v = specScaled w ∨ w.toNat % 2 = 0)
  else w = if num < 0 then 0xFF800000#32 else 0x7F800000#32

/-- `val(cell, t)` (R24), a binary32 value as a multiple of 2^-149. -/
def specVal (cell : Word) (t : SampleType) : Int :=
  if t = .u8 then ((cell.toNat % 256 : Nat) : Int)
  else if t = .u16 then ((cell.toNat % 65536 : Nat) : Int)
  else specScaled cell

/-- ROW = IDX[15:0] (R43). -/
def idxRow (s : State) : Nat := s.idx.toNat % 65536

/-- COL = IDX[31:16] (R43). -/
def idxCol (s : State) : Nat := s.idx.toNat / 65536

/-- `f32(val(cell, t))` (R140): an integer value rounded, a binary32 value itself. -/
def floatOfCell (t : SampleType) (cell : Word) : Word :=
  if t = .u8 then F32.ofNat (cell.toNat % 256) else if t = .u16 then F32.ofNat (cell.toNat % 65536) else cell

/-- NORMALIZE of one cell (R140). -/
def specNormalize (t : SampleType) (bd : Nat) (cell : Word) : Word :=
  F32.div (floatOfCell t cell) (F32.ofNat (if t = .u8 then 255 else 2 ^ bd - 1))

/-- C(f, p)[i] (R154). -/
def specCoeff (f p i : Nat) : Int := (taps f p).2.getD i 0

/-- A tap index clamped to the edge (R156). -/
def specTapIndex (x : Int) (n : Nat) : Nat := (min (max x 0) ((n : Int) - 1)).toNat

/-- `acc` of R155, term by term. -/
def specLanczosAcc (x : Plane) (fx fy r c : Nat) (t : SampleType) : Int :=
  ((List.range 6).map fun i => ((List.range 6).map fun j =>
    specCoeff fy (r % fy) i * specCoeff fx (c % fx) j *
      specVal (x.cell (specTapIndex (((r / fy : Nat) : Int) + (taps fy (r % fy)).1 + i) x.h.toNat)
        (specTapIndex (((c / fx : Nat) : Int) + (taps fx (c % fx)).1 + j) x.w.toNat)) t).sum).sum

/-- The output cell of R155. -/
def specLanczosCell (x : Plane) (fx fy r c : Nat) (t : SampleType) : Word :=
  if t = .f32 then F32.ofScaled (specLanczosAcc x fx fy r c t) (2 ^ 28)
  else BitVec.ofInt 32 (min (max (rheInt (specLanczosAcc x fx fy r c t) (2 ^ 28)) 0) (2 ^ t.width - 1))

/-- The stored form of a converted value (R172). -/
def specRgbCell (cr : CastRound) (t : SampleType) (bd : Nat) (x : Word) : Word :=
  if t = .f32 then x else F32.cast cr (F32.mul x (F32.ofNat (2 ^ bd - 1)))

/-- The value TO_RGB reads: normalized first unless the frame is f32 (R172). -/
def specRgbInput (t : SampleType) (bd : Nat) (cell : Word) : Word := if t = .f32 then cell else specNormalize t bd cell

/-- A chroma value less 0.5 (R174). -/
def specChroma (x : Word) : Word := F32.sub x 0x3F000000#32

/-- R of a pixel (R170, R173). -/
def specR (y u v : Word) : Word :=
  let _ := u
  F32.clip01 (F32.add y (F32.mul 0x3FB374BC#32 (specChroma v)))

/-- G of a pixel (R170, R173, R174). -/
def specG (y u v : Word) : Word :=
  F32.clip01 (F32.sub (F32.sub y (F32.mul 0x3EB03298#32 (specChroma u))) (F32.mul 0x3F36D19E#32 (specChroma v)))

/-- B of a pixel (R170, R173). -/
def specB (y u v : Word) : Word :=
  let _ := v
  F32.clip01 (F32.add y (F32.mul 0x3FE2D0E5#32 (specChroma u)))

/-- The registers a bus write does not change (R32: RO). -/
def readOnlyReg (r : Reg) : Bool :=
  match r with
  | .id => true
  | .version => true
  | .status => true
  | .frameInfo => true
  | .yDim => true
  | .cDim => true
  | .rdata => true
  | .outDim => true
  | .outInfo => true
  | _ => false

/-- The result codes a command can end with (R200, R203, R210). -/
def possibleResults : Instr → List ResultCode
  | .load => [.ok, .invalidSampleType, .inconsistentChromaSize, .unknownSubsampling, .illegalCommand]
  | .read _ _ => [.ok, .uninitializedFrame, .invalidIndexArity, .indexOutOfRange]
  | .normalize => [.ok, .uninitializedFrame]
  | .upsample => [.ok, .uninitializedFrame, .notApplicable, .alreadyFull]
  | .toRgb => [.ok, .uninitializedFrame, .notApplicable, .requiresFull444]
  | .exportOut => [.ok, .uninitializedFrame, .requiresFull444]

/-- The next turn is not the reset input's. -/
def noResetNext (s : State) : Prop := s.sched.head? ≠ some .resetAsserted

end Sys2Proof.Machine

/-! ## Encoding -/

/-- The words R100, R104 and the vectors T-ENC write out decode as they say. -/
def Obligations.SpecWordsDecode : Prop :=
  decode 0x00000001#32 = .ok .load ∧ decode 0x00000022#32 = .ok (.read 2 0) ∧
    decode 0x00000032#32 = .ok (.read 3 0) ∧ decode 0x00000132#32 = .ok (.read 3 1) ∧
    decode 0x00000232#32 = .ok (.read 3 2) ∧ decode 0x000003F2#32 = .ok (.read 15 3) ∧
    decode 0x00000003#32 = .ok .normalize ∧ decode 0x00000004#32 = .ok .upsample ∧
    decode 0x00000005#32 = .ok .toRgb ∧ decode 0x00000006#32 = .ok .exportOut ∧
    decode 0x00000000#32 = .error .reservedOpcode ∧ decode 0x0000000F#32 = .error .reservedOpcode ∧
    decode 0x00000011#32 = .error .reservedBit ∧ decode 0x80000003#32 = .error .reservedBit ∧
    decode 0x00000C02#32 = .error .reservedBit

/-- The decoder accepts exactly the words that match a row of the opcode table under its mask, and reads READ's fields from
the bits R92 gives. -/
def Obligations.DecodeMatchesOpcodeTable : Prop :=
  ∀ w : Word,
    (decode w = .ok .load ↔ w &&& 0xFFFFFFFF#32 = 0x00000001#32) ∧
    (∀ a b : Nat, decode w = .ok (.read a b) ↔
      w &&& 0xFFFFFC0F#32 = 0x00000002#32 ∧ a = w.toNat / 16 % 16 ∧ b = w.toNat / 256 % 4) ∧
    (decode w = .ok .normalize ↔ w &&& 0xFFFFFFFF#32 = 0x00000003#32) ∧
    (decode w = .ok .upsample ↔ w &&& 0xFFFFFFFF#32 = 0x00000004#32) ∧
    (decode w = .ok .toRgb ↔ w &&& 0xFFFFFFFF#32 = 0x00000005#32) ∧
    (decode w = .ok .exportOut ↔ w &&& 0xFFFFFFFF#32 = 0x00000006#32)

/-- Decoding an encoded well-formed command gives it back, whatever its fields. -/
def Obligations.DecodeOfEncode : Prop := ∀ i : Instr, i.wellFormed = true → decode (encode i) = .ok i

/-- Every word that decodes is the encoding of the command it decodes to: no two words mean one command. -/
def Obligations.EncodeOfDecoded : Prop :=
  ∀ (w : Word) (i : Instr), decode w = .ok i → i.wellFormed = true ∧ encode i = w

/-- A step with a pending command word that decodes, when it is the engine's turn (its turn in the schedule, or the
schedule exhausted), is that command at that state with `pending` cleared and the turn taken. -/
def Obligations.StepRunsDecodedCommand : Prop :=
  ∀ (s : State) (w : Word) (i : Instr), s.pending = some w → decode w = .ok i →
    (s.sched = [] → step s = exec i { s with pending := none }) ∧
    (∀ rest, s.sched = .engine :: rest → step s = exec i { s with pending := none, sched := rest })

/-- R95: the decoder refuses exactly the illegal words, and when the engine runs one it raises IllegalCommand and changes no
state except STATUS.RESULT and ERR, and `pending`, which every completion clears. -/
def Obligations.IllegalWordChangesOnlyResult : Prop :=
  ∀ (s : State) (w : Word),
    (illegalWord w ↔ ∃ e, decode w = .error e) ∧
    (illegalWord w → s.pending = some w →
      engineTurn s = .next { s with pending := none, result := .illegalCommand })

/-! ## Reset and invariants -/

/-- R32: after reset every register reads its reset value over the bus, and so do the reserved offset 0x03C and an unmapped
one; no command is pending and no frame exists (R51). -/
def Obligations.ResetRegistersReadTheirValues : Prop :=
  (∀ r : Reg, (State.reset.busRead r.offset).2 = registerResetValue r) ∧
    (State.reset.busRead 0x0000003C#32).2 = 0 ∧ (State.reset.busRead 0x50000000#32).2 = 0 ∧
    State.reset.pending = none ∧ State.reset.frame.init = false ∧ State.reset.frame.planes = .none

/-- R33, R34: ID and VERSION are hard-wired: they read their constants in every state, and a write to them changes nothing. -/
def Obligations.IdAndVersionAreHardwired : Prop :=
  ∀ (s : State) (v : Word),
    s.busRead 0x00000000#32 = (s, 0x50595556#32) ∧ s.busRead 0x00000004#32 = (s, 0x00010007#32) ∧
    s.busWrite 0x00000000#32 v = .next s ∧ s.busWrite 0x00000004#32 v = .next s

/-- The structural invariant holds after reset. -/
def Obligations.InvariantHoldsAtReset : Prop := State.reset.Inv ∧ State.reset.frame.CellsFormed State.reset.params

/-- Every step keeps the structural invariant: the frame's shape (R23, R26, R29), the memory's canonical form and its
bounds (R61 to R63), IN_CFG's reserved bits (R41). -/
def Obligations.StepKeepsInvariant : Prop := ∀ s t : State, s.Inv → step s = .next t → t.Inv

/-- Every step keeps every present cell in the form of R24, and every binary32 cell finite, whichever filter the block has
(R29 item 4, R30). -/
def Obligations.StepKeepsCellForms : Prop :=
  ∀ s t : State, s.Inv → s.frame.CellsFormed s.params → step s = .next t → t.frame.CellsFormed t.params

/-- R230: asserting reset abandons a pending command and gives every register its reset value; no byte of IN or OUT counts
as written; OUT reads 0. The parameters, the host and the rest of the schedule stay (the model's choice, log 16). -/
def Obligations.ResetInputClearsTheBlock : Prop :=
  ∀ (s : State) (rest : List Turn), s.sched = .resetAsserted :: rest →
    ∃ t, step s = .next t ∧ t.pending = none ∧ t.frame.init = false ∧ t.frame.planes = .none ∧
      (∀ r : Reg, (t.busRead r.offset).2 = registerResetValue r) ∧ (∀ a, t.mem.read? a = none) ∧
      (∀ n, t.outRead n = 0) ∧ t.params = s.params ∧ t.host = s.host ∧ t.sched = rest

/-! ## LOAD -/

/-- R110, R115 to R117: with legal registers LOAD completes, builds the frame from the staged planes cell by cell, each cell
the staged one mod 2^min(width(t), width(TYPEk)), and changes nothing but the frame and RESULT. -/
def Obligations.LoadBuildsFrame : Prop :=
  ∀ (s : State) (f : ChromaFormat), loadAccepts s f →
    ∃ t, exec .load s = .next t ∧ t = { s with frame := t.frame, result := .ok } ∧
      t.frame.init = true ∧ t.frame.planes.toNat = cfgPlanes s.inCfg ∧
      t.frame.sampleType.code = cfgType s.inCfg .plane1 ∧ t.frame.bitDepth = cfgBitDepth s.inCfg ∧ t.frame.fmt = f ∧
      ∀ k : PlaneId, k.number ≤ cfgPlanes s.inCfg →
        (t.frame.plane k).w = s.inW k ∧ (t.frame.plane k).h = s.inH k ∧
        (t.frame.plane k).cells.length = (s.inW k).toNat * (s.inH k).toNat ∧
        ∀ r c, r < (s.inH k).toNat → c < (s.inW k).toNat →
          (t.frame.plane k).cell r c = BitVec.ofNat 32 ((s.inCell k (r * (s.inW k).toNat + c)).toNat
            % 2 ^ (8 * (1 + min (cfgType s.inCfg .plane1) (cfgType s.inCfg k))))

/-- R111 to R114, R116, R211: LOAD raises the first of its errors, in this order, and changes only RESULT. -/
def Obligations.LoadErrorsInOrder : Prop :=
  ∀ s : State,
    let p := cfgPlanes s.inCfg
    let bd := (cfgBitDepth s.inCfg).toNat
    ((p = 0 ∨ bd < 1 ∨ 16 < bd ∨ ¬suppliedDimsLegal s p) →
      exec .load s = .next { s with result := .illegalCommand }) ∧
    (p ≠ 0 → 1 ≤ bd → bd ≤ 16 → suppliedDimsLegal s p →
      (¬suppliedTypesLegal s p → exec .load s = .next { s with result := .invalidSampleType }) ∧
      (suppliedTypesLegal s p →
        (8 * (1 + cfgType s.inCfg .plane1) < bd → exec .load s = .next { s with result := .illegalCommand }) ∧
        (bd ≤ 8 * (1 + cfgType s.inCfg .plane1) →
          ((p = 2 ∨ (p = 3 ∧ ¬(s.inW .plane2 = s.inW .plane3 ∧ s.inH .plane2 = s.inH .plane3))) →
            exec .load s = .next { s with result := .inconsistentChromaSize }) ∧
          (p = 3 → s.inW .plane2 = s.inW .plane3 → s.inH .plane2 = s.inH .plane3 →
            (∀ f, f ≠ .gray → ¬chromaFits f (s.inW .plane1).toNat (s.inH .plane1).toNat (s.inW .plane2).toNat
              (s.inH .plane2).toNat) →
            exec .load s = .next { s with result := .unknownSubsampling }))))

/-- R116, R118 case 1: a three-plane geometry is classified as a format exactly when its chroma dimensions have that
format's ratio; so at most one row of the table matches. -/
def Obligations.ClassifyByExactRatio : Prop :=
  ∀ (yW yH uW uH : Nat) (f : ChromaFormat), 1 ≤ yW → 1 ≤ yH →
    (classify yW yH uW uH = some f ↔ f ≠ .gray ∧ chromaFits f yW yH uW uH)

/-! ## READ -/

/-- R130, R131, R132: READ with the arity the format needs and coordinates inside the selected plane completes with that
plane's own cell in RDATA; nothing but RDATA and RESULT changes. -/
def Obligations.ReadReturnsCell : Prop :=
  ∀ (s : State) (arity sel : Nat) (k : PlaneId), s.frame.init = true →
    ((s.frame.fmt = .gray ∧ arity = 2 ∧ k = .plane1) ∨ (s.frame.fmt ≠ .gray ∧ arity = 3 ∧ k.number = sel + 1)) →
    idxRow s < (s.frame.plane k).h.toNat → idxCol s < (s.frame.plane k).w.toNat →
    exec (.read arity sel) s = .next { s with
      rdata := (s.frame.plane k).cells.getD (idxRow s * (s.frame.plane k).w.toNat + idxCol s) 0
      result := .ok }

/-- R131, R133, R204, R211: READ's errors, in order; each changes only RESULT. -/
def Obligations.ReadErrorsInOrder : Prop :=
  ∀ (s : State) (arity sel : Nat), sel < 4 →
    (s.frame.init = false → exec (.read arity sel) s = .next { s with result := .uninitializedFrame }) ∧
    (s.frame.init = true →
      ((s.frame.fmt = .gray ∧ arity ≠ 2) ∨ (s.frame.fmt ≠ .gray ∧ arity ≠ 3) →
        exec (.read arity sel) s = .next { s with result := .invalidIndexArity }) ∧
      (s.frame.fmt ≠ .gray → arity = 3 → sel = 3 →
        exec (.read arity sel) s = .next { s with result := .indexOutOfRange }) ∧
      (∀ k : PlaneId,
        ((s.frame.fmt = .gray ∧ arity = 2 ∧ k = .plane1) ∨ (s.frame.fmt ≠ .gray ∧ arity = 3 ∧ k.number = sel + 1)) →
        ((s.frame.plane k).h.toNat ≤ idxRow s ∨ (s.frame.plane k).w.toNat ≤ idxCol s) →
        exec (.read arity sel) s = .next { s with result := .indexOutOfRange }))

/-! ## NORMALIZE -/

/-- R140: NORMALIZE completes on every initialized frame, whatever its format and type; every cell of every present plane is
divided in binary32, absent planes and all else stay; its only error is UninitializedFrame. That a frame loaded as u8 with a
depth below 8 is divided by 2^bitDepth - 1 the second time follows R141, not C3's gloss (log 24). -/
def Obligations.NormalizeDividesPresentCells : Prop :=
  ∀ s : State,
    (s.frame.init = false → exec .normalize s = .next { s with result := .uninitializedFrame }) ∧
    (s.frame.init = true →
      ∃ t, exec .normalize s = .next t ∧ t = { s with frame := t.frame, result := .ok } ∧
        t.frame = { s.frame with p1 := t.frame.p1, p2 := t.frame.p2, p3 := t.frame.p3, sampleType := .f32 } ∧
        ∀ k : PlaneId,
          (k.number ≤ s.frame.planes.toNat →
            t.frame.plane k = { s.frame.plane k with
              cells := (s.frame.plane k).cells.map (specNormalize s.frame.sampleType s.frame.bitDepth.toNat) }) ∧
          (s.frame.planes.toNat < k.number → t.frame.plane k = s.frame.plane k))

/-- R144 cases 1 and 2: for every divisor, 0 becomes +0.0 and the divisor itself becomes exactly 1.0. -/
def Obligations.NormalizeEndpoints : Prop :=
  normalizeCell .u8 8 0 = 0x00000000#32 ∧ normalizeCell .u8 8 255 = 0x3F800000#32 ∧
    ∀ bd : BitVec 5, 1 ≤ bd.toNat → bd.toNat ≤ 16 →
      normalizeCell .u16 bd 0 = 0x00000000#32 ∧
      normalizeCell .u16 bd (BitVec.ofNat 32 (2 ^ bd.toNat - 1)) = 0x3F800000#32

/-- R142: a normalized integer sample is finite, not negative, and at most 1.0 exactly when the sample is at most the
divisor. -/
def Obligations.NormalizedSampleInUnitIffInRange : Prop :=
  ∀ (t : SampleType) (bd : BitVec 5) (x : Word), (t = .u8 ∧ x.toNat < 256) ∨ (t = .u16 ∧ x.toNat < 65536) →
    1 ≤ bd.toNat → bd.toNat ≤ 16 →
    F32.finite (normalizeCell t bd x) = true ∧ 0 ≤ F32.scaled (normalizeCell t bd x) ∧
    (F32.scaled (normalizeCell t bd x) ≤ 2 ^ 149 ↔ x.toNat ≤ if t = .u8 then 255 else 2 ^ bd.toNat - 1)

/-! ## UPSAMPLE -/

/-- R150, R155, R156: UPSAMPLE of a subsampled frame completes; both chroma planes get the luma dimensions and the cells of
LANCZOS3_Q14; fmt becomes YUV444 and nothing else but RESULT changes. -/
def Obligations.UpsampleAppliesLanczos : Prop :=
  ∀ (s : State) (fx fy : Nat), s.params.upsampleFilter = .lanczos3Q14 → s.frame.init = true → s.frame.fmt ≠ .gray →
    ¬(s.frame.p2.w = s.frame.p1.w ∧ s.frame.p2.h = s.frame.p1.h) →
    s.frame.p3.w = s.frame.p2.w → s.frame.p3.h = s.frame.p2.h →
    (fx = 1 ∨ fx = 2 ∨ fx = 4) → (fy = 1 ∨ fy = 2) →
    fx * s.frame.p2.w.toNat = s.frame.p1.w.toNat → fy * s.frame.p2.h.toNat = s.frame.p1.h.toNat →
    (s.frame.sampleType = .f32 → ∀ w, w ∈ s.frame.p2.cells ∨ w ∈ s.frame.p3.cells → F32.finite w = true) →
    ∃ t, exec .upsample s = .next t ∧ t = { s with frame := t.frame, result := .ok } ∧
      t.frame = { s.frame with p2 := t.frame.p2, p3 := t.frame.p3, fmt := .yuv444 } ∧
      ∀ k : PlaneId, k ≠ .plane1 →
        (t.frame.plane k).w = s.frame.p1.w ∧ (t.frame.plane k).h = s.frame.p1.h ∧
        (t.frame.plane k).cells.length = s.frame.p1.w.toNat * s.frame.p1.h.toNat ∧
        ∀ r c, r < s.frame.p1.h.toNat → c < s.frame.p1.w.toNat →
          (t.frame.plane k).cell r c = specLanczosCell (s.frame.plane k) fx fy r c s.frame.sampleType

/-- R150, R151: whatever the filter parameter and the sizes, UPSAMPLE of a frame that is neither GRAY nor full completes; both
chroma planes get the luma dimensions and integer cells of their type, and an uninterpreted filter's binary32 cells are
finite; plane 1, type, depth and all else but fmt and RESULT stay. -/
def Obligations.UpsampleCompletesForEveryFilter : Prop :=
  ∀ s : State, s.frame.init = true → s.frame.fmt ≠ .gray →
    ¬(s.frame.p2.w = s.frame.p1.w ∧ s.frame.p2.h = s.frame.p1.h) →
    ∃ t, exec .upsample s = .next t ∧ t = { s with frame := t.frame, result := .ok } ∧
      t.frame = { s.frame with p2 := t.frame.p2, p3 := t.frame.p3, fmt := .yuv444 } ∧
      ∀ k : PlaneId, k ≠ .plane1 →
        (t.frame.plane k).w = s.frame.p1.w ∧ (t.frame.plane k).h = s.frame.p1.h ∧
        (t.frame.plane k).cells.length = s.frame.p1.w.toNat * s.frame.p1.h.toNat ∧
        (s.frame.sampleType ≠ .f32 → ∀ c ∈ (t.frame.plane k).cells, c.toNat < 2 ^ s.frame.sampleType.width) ∧
        (s.frame.sampleType = .f32 → s.params.upsampleFilter = .other → ∀ c ∈ (t.frame.plane k).cells, specFinite c)

/-- R151: whatever the filter parameter, the filter returns a plane of exactly the target dimensions whose cells have the
form of the sample type, an uninterpreted filter's binary32 cells finite (R30). -/
def Obligations.FilterMeetsItsContract : Prop :=
  ∀ (choice : FilterChoice) (x : Plane) (w h : Half) (t : SampleType),
    (upsampleFilter choice x w h t).w = w ∧ (upsampleFilter choice x w h t).h = h ∧
    (upsampleFilter choice x w h t).cells.length = w.toNat * h.toNat ∧
    (t ≠ .f32 → ∀ c ∈ (upsampleFilter choice x w h t).cells, c.toNat < 2 ^ t.width) ∧
    (t = .f32 → choice = .other → ∀ c ∈ (upsampleFilter choice x w h t).cells, specFinite c)

/-- R154: the seven rows of the coefficient table, s(f, p) and C(f, p)[0..5]; in each the coefficients sum to exactly 2^14;
R157 case 5: the phases are mirror images. -/
def Obligations.CoefficientRowsSumAndMirror : Prop :=
  (taps 1 0 = (-2, [0, 0, 16384, 0, 0, 0]) ∧
    taps 2 0 = (-3, [121, -1114, 4440, 14628, -2184, 493]) ∧
    taps 2 1 = (-2, [493, -2184, 14628, 4440, -1114, 121]) ∧
    taps 4 0 = (-3, [257, -1736, 7206, 12583, -2425, 499]) ∧
    taps 4 1 = (-3, [30, -501, 1977, 15936, -1393, 335]) ∧
    taps 4 2 = (-2, [335, -1393, 15936, 1977, -501, 30]) ∧
    taps 4 3 = (-2, [499, -2425, 12583, 7206, -1736, 257])) ∧
  (taps 1 0).2.sum = 16384 ∧ (taps 2 0).2.sum = 16384 ∧ (taps 2 1).2.sum = 16384 ∧ (taps 4 0).2.sum = 16384 ∧
    (taps 4 1).2.sum = 16384 ∧ (taps 4 2).2.sum = 16384 ∧ (taps 4 3).2.sum = 16384 ∧
    (taps 2 1).2 = (taps 2 0).2.reverse ∧ (taps 4 2).2 = (taps 4 1).2.reverse ∧ (taps 4 3).2 = (taps 4 0).2.reverse

/-- R157 case 2: a constant integer plane stays exactly constant. -/
def Obligations.LanczosKeepsConstantPlane : Prop :=
  ∀ (x : Plane) (fx fy r c : Nat) (t : SampleType) (v : Word), (t = .u8 ∨ t = .u16) → v.toNat < 2 ^ t.width →
    (fx = 1 ∨ fx = 2 ∨ fx = 4) → (fy = 1 ∨ fy = 2) → 1 ≤ x.w.toNat → 1 ≤ x.h.toNat →
    (∀ i j, i < x.h.toNat → j < x.w.toNat → x.cell i j = v) → lanczosCell x fx fy r c t = v

/-- R157 case 5: a plane mirrored left to right gives a mirrored output. -/
def Obligations.LanczosMirrors : Prop :=
  ∀ (x y : Plane) (fx fy r c : Nat) (t : SampleType), (fx = 1 ∨ fx = 2 ∨ fx = 4) → (fy = 1 ∨ fy = 2) →
    y.w = x.w → y.h = x.h → 1 ≤ x.h.toNat →
    (∀ i j, i < x.h.toNat → j < x.w.toNat → y.cell i j = x.cell i (x.w.toNat - 1 - j)) → c < fx * x.w.toNat →
    lanczosCell y fx fy r c t = lanczosCell x fx fy r (fx * x.w.toNat - 1 - c) t

/-! ## TO_RGB -/

/-- R12: on finite operands each binary32 operation gives the nearest binary32 value to the exact result, ties to even; a
product's and a quotient's sign is the exclusive or of the operands' signs, and a sum that is exactly 0 is +0.0 unless both
terms are negative (the format, its infinities and its signs of 0 are the model's: log 12). -/
def Obligations.BinaryOperationsRoundToNearest : Prop :=
  (∀ x y : Word, specFinite x → specFinite y →
    roundsTo (F32.add x y) (specScaled x + specScaled y) 1 ∧
    roundsTo (F32.sub x y) (specScaled x - specScaled y) 1 ∧
    roundsTo (F32.mul x y) (specScaled x * specScaled y) (2 ^ 149) ∧
    (specScaled y ≠ 0 → roundsTo (F32.div x y) (specScaled x * 2 ^ 149 * (specScaled y).sign) (specScaled y).natAbs) ∧
    (F32.mul x y).toNat / 2 ^ 31 = (x.toNat / 2 ^ 31 + y.toNat / 2 ^ 31) % 2 ∧
    (specScaled y ≠ 0 → (F32.div x y).toNat / 2 ^ 31 = (x.toNat / 2 ^ 31 + y.toNat / 2 ^ 31) % 2) ∧
    (specScaled x + specScaled y = 0 →
      F32.add x y = if 2 ^ 31 ≤ x.toNat ∧ 2 ^ 31 ≤ y.toNat then 0x80000000#32 else 0#32)) ∧
  (∀ (num : Int) (den : Nat), 1 ≤ den → roundsTo (F32.ofScaled num den) num den ∧ (num = 0 → F32.ofScaled num den = 0)) ∧
  (∀ n : Nat, n < 2 ^ 24 → specFinite (F32.ofNat n) ∧ specScaled (F32.ofNat n) = n * 2 ^ 149)

/-- R12: `rhe` of an exact quotient is the nearest integer, the even one of two. -/
def Obligations.RoundHalfEvenIsNearest : Prop :=
  ∀ (num k : Int) (den : Nat), 1 ≤ den →
    (2 * (k * den - num).natAbs < den ∨ (2 * (k * den - num).natAbs = den ∧ k % 2 = 0)) → rheInt num den = k

/-- R172, R12: the re-cast of a finite value is its truncation toward zero when CAST_ROUND is TRUNC, and the nearest integer,
ties to even, when it is RNE. -/
def Obligations.CastRoundsByParameter : Prop :=
  ∀ (x : Word) (k : Int), specFinite x →
    (0 ≤ specScaled x → k * 2 ^ 149 ≤ specScaled x → specScaled x < (k + 1) * 2 ^ 149 →
      F32.cast .trunc x = BitVec.ofInt 32 k) ∧
    (specScaled x ≤ 0 → specScaled x ≤ k * 2 ^ 149 → (k - 1) * 2 ^ 149 < specScaled x →
      F32.cast .trunc x = BitVec.ofInt 32 k) ∧
    ((2 * (k * 2 ^ 149 - specScaled x).natAbs < 2 ^ 149 ∨
        (2 * (k * 2 ^ 149 - specScaled x).natAbs = 2 ^ 149 ∧ k % 2 = 0)) →
      F32.cast .rne x = BitVec.ofInt 32 k)

/-- R171: clip01 is +0.0 at or below 0, -0.0 among them, 1.0 at or above 1, and the value itself between; the infinities
are clipped as the numbers they lie beyond. -/
def Obligations.ClipSaturates : Prop :=
  (∀ x : Word, specFinite x →
    (specScaled x ≤ 0 → F32.clip01 x = 0x00000000#32) ∧
    (2 ^ 149 ≤ specScaled x → F32.clip01 x = 0x3F800000#32) ∧
    (0 < specScaled x → specScaled x < 2 ^ 149 → F32.clip01 x = x)) ∧
  F32.clip01 0x7F800000#32 = 0x3F800000#32 ∧ F32.clip01 0xFF800000#32 = 0x00000000#32

/-- R170, R172 to R175, R178: TO_RGB of a YUV444 frame completes; each cell of plane 1, 2, 3 becomes the R, G, B of its
pixel, in binary32 in the order R174 gives, rescaled and cast back for an integer frame; fmt, type, depth and dimensions
stay, and nothing else but RESULT changes. -/
def Obligations.ToRgbConvertsEveryPixel : Prop :=
  ∀ s : State, s.frame.init = true → s.frame.fmt = .yuv444 → s.frame.planes = .three →
    s.frame.p2.w = s.frame.p1.w → s.frame.p2.h = s.frame.p1.h → s.frame.p3.w = s.frame.p1.w → s.frame.p3.h = s.frame.p1.h →
    (∀ k, (s.frame.plane k).cells.length = (s.frame.plane k).size) →
    ∃ t, exec .toRgb s = .next t ∧ t = { s with frame := t.frame, result := .ok } ∧
      t.frame = { s.frame with p1 := t.frame.p1, p2 := t.frame.p2, p3 := t.frame.p3 } ∧
      (∀ k, (t.frame.plane k).w = s.frame.p1.w ∧ (t.frame.plane k).h = s.frame.p1.h ∧
        (t.frame.plane k).cells.length = s.frame.p1.size) ∧
      ∀ r c, r < s.frame.p1.h.toNat → c < s.frame.p1.w.toNat →
        let st := s.frame.sampleType
        let bd := s.frame.bitDepth.toNat
        let y := specRgbInput st bd (s.frame.p1.cell r c)
        let u := specRgbInput st bd (s.frame.p2.cell r c)
        let v := specRgbInput st bd (s.frame.p3.cell r c)
        t.frame.p1.cell r c = specRgbCell s.params.castRound st bd (specR y u v) ∧
        t.frame.p2.cell r c = specRgbCell s.params.castRound st bd (specG y u v) ∧
        t.frame.p3.cell r c = specRgbCell s.params.castRound st bd (specB y u v)

/-- R171, R172 (and S6): whatever the planes of a reachable frame hold, TO_RGB's outputs lie in [0, 1] for an f32 frame and
in [0, 2^bitDepth − 1] for an integer one. -/
def Obligations.ToRgbOutputsInRange : Prop :=
  ∀ s t : State, s.Inv → s.frame.CellsFormed s.params → exec .toRgb s = .next t → t.result = .ok →
    ∀ (k : PlaneId), ∀ w ∈ (t.frame.plane k).cells,
      (t.frame.sampleType = .f32 → F32.finite w = true ∧ 0 ≤ F32.scaled w ∧ F32.scaled w ≤ 2 ^ 149) ∧
      (t.frame.sampleType ≠ .f32 → w.toNat ≤ 2 ^ t.frame.bitDepth.toNat - 1)

/-- R177 case 1 (and S5): with zero chroma, R = G = B = clip01(y) for every finite y. -/
def Obligations.ZeroChromaGivesGray : Prop :=
  ∀ y : Word, F32.finite y = true →
    pixelR y (centred 0x3F000000#32) (centred 0x3F000000#32) = F32.clip01 y ∧
    pixelG y (centred 0x3F000000#32) (centred 0x3F000000#32) = F32.clip01 y ∧
    pixelB y (centred 0x3F000000#32) (centred 0x3F000000#32) = F32.clip01 y

/-! ## EXPORT -/

/-- R190, R191: EXPORT of a YUV444 frame completes with OUT cell (r·W + c)·3 + j holding channel j of pixel (r, c), of a GRAY
frame with OUT cell r·W + c holding P1[r][c]; OUT_DIM and OUT_INFO describe it; no byte outside those cells changes, and
nothing else but RESULT. -/
def Obligations.ExportLaysOutPixels : Prop :=
  ∀ s : State, s.frame.init = true →
    (s.frame.fmt = .yuv444 → s.frame.p2.w = s.frame.p1.w → s.frame.p3.w = s.frame.p1.w →
      ∃ t, exec .exportOut s = .next t ∧
        t = { s with
          mem := t.mem
          out := { w := s.frame.p1.w, h := s.frame.p1.h, ch := .three, stype := s.frame.sampleType, valid := true }
          result := .ok } ∧
        (∀ r c, r < s.frame.p1.h.toNat → c < s.frame.p1.w.toNat →
          t.outRead ((r * s.frame.p1.w.toNat + c) * 3) = s.frame.p1.cell r c ∧
          t.outRead ((r * s.frame.p1.w.toNat + c) * 3 + 1) = s.frame.p2.cell r c ∧
          t.outRead ((r * s.frame.p1.w.toNat + c) * 3 + 2) = s.frame.p3.cell r c) ∧
        ∀ a, (a < 0x40000000 ∨ 0x40000000 + 4 * (3 * s.frame.p1.size) ≤ a) → t.memByte a = s.memByte a) ∧
    (s.frame.fmt = .gray →
      ∃ t, exec .exportOut s = .next t ∧
        t = { s with
          mem := t.mem
          out := { w := s.frame.p1.w, h := s.frame.p1.h, ch := .one, stype := s.frame.sampleType, valid := true }
          result := .ok } ∧
        (∀ r c, r < s.frame.p1.h.toNat → c < s.frame.p1.w.toNat →
          t.outRead (r * s.frame.p1.w.toNat + c) = s.frame.p1.cell r c) ∧
        ∀ a, (a < 0x40000000 ∨ 0x40000000 + 4 * s.frame.p1.size ≤ a) → t.memByte a = s.memByte a)

/-! ## Every command -/

/-- R204 to R207, R211: the sequencing errors of NORMALIZE's, UPSAMPLE's, TO_RGB's and EXPORT's own checks, in order; each
changes only RESULT. -/
def Obligations.SequencingErrorsInOrder : Prop :=
  ∀ s : State,
    (s.frame.init = false → ∀ i, i ≠ .load → exec i s = .next { s with result := .uninitializedFrame }) ∧
    (s.frame.init = true → s.frame.fmt = .gray →
      exec .upsample s = .next { s with result := .notApplicable } ∧
      exec .toRgb s = .next { s with result := .notApplicable }) ∧
    (s.frame.init = true → s.frame.fmt ≠ .gray → s.frame.p2.w = s.frame.p1.w → s.frame.p2.h = s.frame.p1.h →
      exec .upsample s = .next { s with result := .alreadyFull }) ∧
    (s.frame.init = true → s.frame.fmt ≠ .gray → s.frame.fmt ≠ .yuv444 →
      exec .toRgb s = .next { s with result := .requiresFull444 } ∧
      exec .exportOut s = .next { s with result := .requiresFull444 })

/-- R201: a command that ends with an error leaves all state unchanged except STATUS.RESULT and STATUS.ERR. -/
def Obligations.RaisedErrorChangesOnlyResult : Prop :=
  ∀ (i : Instr) (s t : State), exec i s = .next t → t.result ≠ .ok → t = { s with result := t.result }

/-- R200, R203: every command ends with OK or one of the codes the table lists for it. -/
def Obligations.ResultCodesOfCommands : Prop :=
  ∀ (i : Instr) (s t : State), exec i s = .next t → t.result ∈ possibleResults i

/-- R70, R47: a command writes only the frame, RDATA, OUT, OUT_DIM, OUT_INFO and RESULT; READ alone writes RDATA, EXPORT alone
writes OUT, OUT_DIM and OUT_INFO, and neither changes the frame. EXPORT's stores are exactly the cells it exports, from OUT
cell 0 on; when it raises it stores nothing; and no command changes a byte of IN. -/
def Obligations.CommandsWriteOnlyTheirState : Prop :=
  ∀ (i : Instr) (s t : State), exec i s = .next t →
    t = { s with frame := t.frame, rdata := t.rdata, out := t.out, mem := t.mem, result := t.result } ∧
    ((∀ a b, i ≠ .read a b) → t.rdata = s.rdata) ∧
    (i ≠ .exportOut → t.out = s.out ∧ t.mem = s.mem) ∧
    ((i = .exportOut ∨ ∃ a b, i = .read a b) → t.frame = s.frame) ∧
    (i = .exportOut →
      (∀ ch, s.exportChannels = .ok ch → ∀ a,
        (a < outAddr 0 ∨ outAddr 0 + 4 * (exportCells s.frame ch).length ≤ a) → t.memByte a = s.memByte a) ∧
      (∀ e, s.exportChannels = .error e → t.out = s.out ∧ t.mem = s.mem)) ∧
    ∀ a, a < 0x40000000 → t.memByte a = s.memByte a

/-- R28, R159: only LOAD and UPSAMPLE change fmt, and UPSAMPLE only to YUV444, from a format other than GRAY. -/
def Obligations.FormatChangesOnlyByLoadAndUpsample : Prop :=
  ∀ (i : Instr) (s t : State), exec i s = .next t → t.frame.fmt ≠ s.frame.fmt →
    i = .load ∨ (i = .upsample ∧ t.frame.fmt = .yuv444 ∧ s.frame.fmt ≠ .gray)

/-- R25: after a command that succeeds, the sample type is plane 1's declared type for LOAD, f32 for NORMALIZE, and
unchanged for every other command, TO_RGB among them. -/
def Obligations.SampleTypeTransitions : Prop :=
  ∀ (i : Instr) (s t : State), exec i s = .next t → t.result = .ok →
    (i = .load → t.frame.sampleType.code = cfgType s.inCfg .plane1) ∧
    (i = .normalize → t.frame.sampleType = .f32) ∧
    (i ≠ .load → i ≠ .normalize → t.frame.sampleType = s.frame.sampleType)

/-- R22, R26: no step but the reset input's clears `init`; only a LOAD that succeeds sets it, and only LOAD changes bitDepth. -/
def Obligations.InitAndDepthChangeOnlyByLoad : Prop :=
  ∀ s t : State, noResetNext s → step s = .next t →
    (s.frame.init = true → t.frame.init = true) ∧
    ((t.frame.init ≠ s.frame.init ∨ t.frame.bitDepth ≠ s.frame.bitDepth) →
      t.result = .ok ∧ ∃ w, s.pending = some w ∧ decode w = .ok .load)

/-- R213: on a loaded frame the order UPSAMPLE unless YUV444, then TO_RGB, then EXPORT meets no error; on a GRAY frame EXPORT
succeeds with one channel. -/
def Obligations.CallOrderMeetsNoError : Prop :=
  ∀ s : State, s.Inv → s.frame.init = true →
    (s.frame.fmt = .gray → ∃ t, exec .exportOut s = .next t ∧ t.result = .ok ∧ t.out.ch = .one) ∧
    (s.frame.fmt ≠ .gray →
      ∃ a b c, (if s.frame.fmt = .yuv444 then a = s else exec .upsample s = .next a ∧ a.result = .ok) ∧
        exec .toRgb a = .next b ∧ b.result = .ok ∧ exec .exportOut b = .next c ∧ c.result = .ok ∧ c.out.ch = .three)

/-! ## The bus -/

/-- R36: the fields of STATUS, and its reserved bits; FMT and STYPE read 0 while `init` = false, ERR = 1 exactly when
RESULT ≠ 0, BUSY is 1 while a command is pending. -/
def Obligations.StatusRegisterFields : Prop :=
  ∀ s : State,
    (s.pending = none →
      let w := (s.busRead 0x0000000C#32).2
      w.toNat % 2 = 0 ∧ w.toNat / 2 % 2 = (if s.frame.init then 1 else 0) ∧ w.toNat / 4 % 2 = 0 ∧
      w.toNat / 8 % 2 = (if s.result = .ok then 0 else 1) ∧ w.toNat / 16 % 16 = s.result.code ∧
      w.toNat / 256 % 8 = (if s.frame.init then s.frame.fmt.code else 0) ∧ w.toNat / 2048 % 2 = 0 ∧
      w.toNat / 4096 % 4 = (if s.frame.init then s.frame.sampleType.code else 0) ∧ w.toNat / 16384 = 0) ∧
    (s.pending ≠ none → (s.busRead 0x0000000C#32).2.toNat % 2 = 1)

/-- R37 to R40, R44, R45: outside the busy window FRAME_INFO, Y_DIM, C_DIM, OUT_DIM and OUT_INFO read the frame's and the
export's fields in the bits the rules give, and RDATA reads the cell of the last READ that succeeded. -/
def Obligations.MirrorRegisterFields : Prop :=
  ∀ s : State, s.busy = false →
    (s.busRead 0x00000010#32).2.toNat =
      (if s.frame.init then s.frame.bitDepth.toNat + 256 * s.frame.planes.toNat else 0) ∧
    (s.busRead 0x00000014#32).2.toNat = (if s.frame.init then s.frame.p1.w.toNat + 65536 * s.frame.p1.h.toNat else 0) ∧
    (s.busRead 0x00000018#32).2.toNat =
      (if s.frame.init = false ∨ s.frame.planes = .one then 0 else s.frame.p2.w.toNat + 65536 * s.frame.p2.h.toNat) ∧
    (s.busRead 0x0000001C#32).2 = s.rdata ∧
    (s.busRead 0x00000034#32).2.toNat = s.out.w.toNat + 65536 * s.out.h.toNat ∧
    (s.busRead 0x00000038#32).2.toNat =
      s.out.ch.toNat + 16 * s.out.stype.code + (if s.out.valid then 256 else 0)

/-- R41, R42, R43: outside the busy window a write to IN_CFG stores its fields and drops its reserved bits, and a write to
IN_DIM1..3 or IDX stores the whole word; each reads back, and only that register changes. -/
def Obligations.ConfigRegistersReadBack : Prop :=
  ∀ (s : State) (v : Word), s.busy = false →
    (∃ t, s.busWrite 0x00000020#32 v = .next t ∧ t = { s with inCfg := t.inCfg } ∧
      (t.busRead 0x00000020#32).2 = v &&& 0x0003F1F3#32) ∧
    (∃ t, s.busWrite 0x00000024#32 v = .next t ∧ t = { s with inDim1 := v } ∧ (t.busRead 0x00000024#32).2 = v) ∧
    (∃ t, s.busWrite 0x00000028#32 v = .next t ∧ t = { s with inDim2 := v } ∧ (t.busRead 0x00000028#32).2 = v) ∧
    (∃ t, s.busWrite 0x0000002C#32 v = .next t ∧ t = { s with inDim3 := v } ∧ (t.busRead 0x0000002C#32).2 = v) ∧
    (∃ t, s.busWrite 0x00000030#32 v = .next t ∧ t = { s with idx := v } ∧ (t.busRead 0x00000030#32).2 = v)

/-- R62, R67: outside the busy window a write to IN[k] cell n stores the full word, its lowest byte first, a read returns it,
and no byte outside the cell changes; at or above 4·MAX_W·MAX_H in the region reads give 0 and writes are ignored. -/
def Obligations.StagedCellReadsBack : Prop :=
  ∀ (s : State) (k : PlaneId) (n : Nat) (v : Word), s.params.legal = true → s.busy = false → 4 * n < 2 ^ 28 →
    (n < s.params.maxW * s.params.maxH →
      ∃ t, s.busWrite (BitVec.ofNat 32 (0x10000000 * k.number + 4 * n)) v = .next t ∧ t = { s with mem := t.mem } ∧
        t.busRead (BitVec.ofNat 32 (0x10000000 * k.number + 4 * n)) = (t, v) ∧
        (∀ i, i < 4 → t.memByte (0x10000000 * k.number + 4 * n + i) = v.extractLsb' (8 * i) 8) ∧
        ∀ a, (a < 0x10000000 * k.number + 4 * n ∨ 0x10000000 * k.number + 4 * n + 4 ≤ a) → t.memByte a = s.memByte a) ∧
    (s.params.maxW * s.params.maxH ≤ n →
      s.busWrite (BitVec.ofNat 32 (0x10000000 * k.number + 4 * n)) v = .next s ∧
      s.busRead (BitVec.ofNat 32 (0x10000000 * k.number + 4 * n)) = (s, 0))

/-- R63, R64: outside the busy window a read of OUT cell n gives 0 while VALID = 0 or at n ≥ W·H·CH, else the stored word,
and 0 at or above 4·3·MAX_W·MAX_H; a write to the region is ignored. -/
def Obligations.OutReadsAreGated : Prop :=
  ∀ (s : State) (n : Nat) (v : Word), s.params.legal = true → s.busy = false → 4 * n < 2 ^ 28 →
    s.busWrite (BitVec.ofNat 32 (0x40000000 + 4 * n)) v = .next s ∧
    (s.busRead (BitVec.ofNat 32 (0x40000000 + 4 * n))).1 = s ∧
    ((s.out.valid = false ∨ s.out.w.toNat * s.out.h.toNat * s.out.ch.toNat ≤ n ∨ 3 * (s.params.maxW * s.params.maxH) ≤ n) →
      (s.busRead (BitVec.ofNat 32 (0x40000000 + 4 * n))).2 = 0) ∧
    (s.out.valid = true → n < s.out.w.toNat * s.out.h.toNat * s.out.ch.toNat → n < 3 * (s.params.maxW * s.params.maxH) →
      (s.busRead (BitVec.ofNat 32 (0x40000000 + 4 * n))).2 = s.memWord (0x40000000 + 4 * n))

/-- R46, R65: in every state, busy or not, the reserved offset 0x03C, every offset from 0x040 to 0x0FFF_FFFF and every one from
0x5000_0000 on read 0 and ignore writes, a write to an RO register is ignored, and a read of CMD returns 0; none of these
accesses changes any state. -/
def Obligations.ReservedAndReadOnlyAccesses : Prop :=
  ∀ (s : State) (off v : Word),
    ((0x3C ≤ off.toNat ∧ off.toNat < 0x10000000) ∨ 0x50000000 ≤ off.toNat →
      s.busRead off = (s, 0) ∧ s.busWrite off v = .next s) ∧
    (∀ r : Reg, readOnlyReg r = true → s.busWrite r.offset v = .next s) ∧
    s.busRead 0x00000008#32 = (s, 0)

/-- R66: a host access that is not 32 bits wide or not at a multiple of 4 is refused when its turn comes: the schedule gives
it, or is exhausted with no command pending, which is the model's choice (log 1). -/
def Obligations.MisformedAccessIsRefused : Prop :=
  ∀ (s : State) (bytes : Nat) (off v : Word) (tmp : Temp),
    ((∃ rest, s.sched = .host :: rest) ∨ (s.sched = [] ∧ s.pending = none)) →
    (bytes ≠ 4 ∨ off.toNat % 4 ≠ 0) →
    (s.host.prog[s.host.pc]? = some (.write bytes off v) ∨ s.host.prog[s.host.pc]? = some (.read bytes tmp off)) →
    step s = .refused .busAccessForm

/-- R71, R233: a CMD write opens the busy window; in it a write to CMD, IN_CFG, IN_DIM1..3, IDX or an IN[k] cell is refused;
a read of FRAME_INFO, Y_DIM, C_DIM, RDATA, OUT_DIM, OUT_INFO or an OUT cell is a fresh draw, whatever the draws are, and so is
every STATUS field but BUSY while the command is pending; reads of ID, VERSION, IN_CFG, IN_DIM1..3, IDX and IN[k] are
unaffected. The engine's turn leaves the window open, and the first STATUS read with no command pending closes it. That the
window outlasts the command's step is the model's reading (log 3), and that the draws are Config.busyRead of a counter is its
choice (log 4). -/
def Obligations.BusyWindowProtocol : Prop :=
  ∀ (s : State) (off v : Word),
    (s.busy = false →
      s.busWrite 0x00000008#32 v = .next { s with pending := some v, busyWindow := true }) ∧
    (s.busy = true →
      ((addressMap s.params off = .reg .cmd ∨ addressMap s.params off = .reg .inCfg ∨
        addressMap s.params off = .reg .inDim1 ∨ addressMap s.params off = .reg .inDim2 ∨
        addressMap s.params off = .reg .inDim3 ∨ addressMap s.params off = .reg .idx ∨
        ∃ k n, addressMap s.params off = .inCell k n) → s.busWrite off v = .refused .hostWriteWhileBusy) ∧
      ((addressMap s.params off = .reg .frameInfo ∨ addressMap s.params off = .reg .yDim ∨
        addressMap s.params off = .reg .cDim ∨ addressMap s.params off = .reg .rdata ∨
        addressMap s.params off = .reg .outDim ∨ addressMap s.params off = .reg .outInfo ∨
        ∃ n, addressMap s.params off = .outCell n) →
        s.busRead off = ({ s with draws := s.draws + 1 }, Config.busyRead s.draws))) ∧
    ((addressMap s.params off = .reg .id ∨ addressMap s.params off = .reg .version ∨
      addressMap s.params off = .reg .inCfg ∨ addressMap s.params off = .reg .inDim1 ∨
      addressMap s.params off = .reg .inDim2 ∨ addressMap s.params off = .reg .inDim3 ∨
      addressMap s.params off = .reg .idx ∨ ∃ k n, addressMap s.params off = .inCell k n) →
      s.busRead off = (s, s.readTarget (addressMap s.params off))) ∧
    (s.pending ≠ none →
      s.busRead 0x0000000C#32 = ({ s with draws := s.draws + 1 }, Config.busyRead s.draws ||| 1#32)) ∧
    (s.pending = none → s.busRead 0x0000000C#32 = ({ s with busyWindow := false }, s.statusWord)) ∧
    (∀ t, engineTurn s = .next t → t.busyWindow = s.busyWindow)

/-- R68: a read changes no state of the block: only the model's draw counter and the host's knowledge of BUSY can change. With
no command pending and the window closed, repeating a read returns the same word. -/
def Obligations.ReadsHaveNoSideEffects : Prop :=
  ∀ (s : State) (off : Word),
    (s.busRead off).1 = { s with draws := (s.busRead off).1.draws, busyWindow := (s.busRead off).1.busyWindow } ∧
    (s.busy = false → ((s.busRead off).1.busRead off).2 = (s.busRead off).2)

/-- R101: what a host operation does: `sw` and `lw` make one bus access, and `lw` writes its own temporary alone; `andi`,
`srli` and `bnez` work on the temporaries and touch no state of the block; writing one temporary leaves the other seven. The
host's position and that a label is an index are the model's choice (log 14). -/
def Obligations.HostOperationsFollowNotation : Prop :=
  ∀ (s : State) (td ts : Temp) (off v k : Word) (n target : Nat),
    let next : HostAgent := { s.host with pc := s.host.pc + 1 }
    (off.toNat % 4 = 0 →
      s.runHostOp (.sw off v) = { s with host := next }.busWrite off v ∧
      s.runHostOp (.lw td off) = .next { ({ s with host := next }.busRead off).1 with
        host := { next with temps := s.host.temps.set td (s.busRead off).2 } }) ∧
    s.runHostOp (.andi td ts k) =
      .next { s with host := { next with temps := s.host.temps.set td (s.host.temps.get ts &&& k) } } ∧
    s.runHostOp (.srli td ts n) =
      .next { s with host := { next with temps := s.host.temps.set td (s.host.temps.get ts >>> n) } } ∧
    s.runHostOp (.bnez ts target) =
      .next { s with host := if s.host.temps.get ts = 0 then next else { s.host with pc := target } } ∧
    (s.host.temps.set td v).get ts = if ts = td then v else s.host.temps.get ts

/-- R16, R72: on the host's turn, which the schedule gives or which comes when the schedule is exhausted with no command
pending, the step is the host's next operation at the state with the turn taken; a host with none left changes nothing else.
The schedule and the host as data are the model's choice (log 1, log 14, log 15). -/
def Obligations.HostTurnRunsNextOperation : Prop :=
  ∀ s : State,
    (∀ op, s.host.prog[s.host.pc]? = some op →
      (∀ rest, s.sched = .host :: rest → step s = { s with sched := rest }.runHostOp op) ∧
      (s.sched = [] → s.pending = none → step s = s.runHostOp op)) ∧
    (s.host.prog[s.host.pc]? = none →
      (∀ rest, s.sched = .host :: rest → step s = .next { s with sched := rest }) ∧
      (s.sched = [] → s.pending = none → step s = .next s))

/-- R70, R71, R235: no host turn changes the frame, RESULT, RDATA, OUT_DIM, OUT_INFO or any byte of OUT: a loaded frame does
not see later writes to the staging buffers. -/
def Obligations.HostTurnKeepsFrameAndOutputs : Prop :=
  ∀ s t : State, s.params.legal = true → hostTurn s = .next t →
    t.frame = s.frame ∧ t.result = s.result ∧ t.rdata = s.rdata ∧ t.out = s.out ∧ t.params = s.params ∧
    ∀ a, 0x40000000 ≤ a → t.memByte a = s.memByte a

/-- R192, R238: OUT keeps the last successful EXPORT: a step that neither runs EXPORT nor asserts reset leaves every OUT cell
reading as before. -/
def Obligations.OutSnapshotPersists : Prop :=
  ∀ s t : State, s.params.legal = true → noResetNext s → step s = .next t →
    (∀ w, s.pending = some w → decode w ≠ .ok .exportOut) → ∀ n, t.outRead n = s.outRead n

/-- R71, weak fairness: while reset is not asserted, a pending command is run after at most as many steps as the schedule has
turns left, unless a host step is refused first. -/
def Obligations.PendingCommandRuns : Prop :=
  ∀ (s : State) (w : Word), s.pending = some w → (∀ turn ∈ s.sched, turn ≠ .resetAsserted) →
    ∃ n, n ≤ s.sched.length ∧
      ((∃ r, Sys2Proof.core.run n s = .refused r) ∨
        ∃ u, Sys2Proof.core.run n s = .next u ∧ u.pending = some w ∧
          step u = runWord w { u with pending := none, sched := u.sched.tail })

/-- R71, T-busy vectors: the schedule may take the engine's step after the host's first STATUS read, which then answers
BUSY = 1, or before it, and then the read answers BUSY = 0 with the command's result. -/
def Obligations.BusyPollAdmitsBothOrders : Prop :=
  ∀ (s : State) (w : Word) (rest : List Turn), s.pending = some w →
    s.host.prog[s.host.pc]? = some (.read 4 .t7 0x0000000C#32) →
    (∃ t, step { s with sched := .host :: rest } = .next t ∧ t.host.temps.v7.toNat % 2 = 1 ∧ t.pending = some w) ∧
    (∃ t u, step { s with sched := .engine :: .host :: rest } = .next t ∧ step t = .next u ∧
      u.host.temps.v7.toNat % 2 = 0 ∧ u.host.temps.v7.toNat / 16 % 16 = t.result.code ∧ u.busyWindow = false)

/-! ## The stream convention -/

/-- R79, R82: with even dimensions a chroma plane of the stream has (w/2)·(h/2)·ceil(bits/8) bytes, and the frame a host
stages from it has the YUV420 geometry. -/
def Obligations.StreamFrameIsYuv420 : Prop :=
  ∀ w h bits : Nat, 1 ≤ w → 1 ≤ h → w % 2 = 0 → h % 2 = 0 →
    streamChromaLength w h bits = w / 2 * (h / 2) * ((bits + 7) / 8) ∧
    classify w h (w / 2) (h / 2) = some .yuv420

/-- R80, R82: the host code for a stream frame of declared depth 8 loads it as u8, of 10 or 16 as u16, with BIT_DEPTH the
depth; for any other depth, or an odd dimension, no frame is read and no LOAD starts. -/
def Obligations.StreamDepthRoutesType : Prop :=
  ∀ (order : ByteOrder) (w h bits : Nat) (y u v : List Word) (bytes : List Byte),
    (w % 2 = 0 → h % 2 = 0 → bits = 8 ∨ bits = 10 ∨ bits = 16 →
      let code := if bits = 8 then 0 else 1
      ∃ stage, stageFrame w h bits y u v = some (stage ++ [.setCfg 3 bits code code code, .setDim .plane1 w h,
          .setDim .plane2 (w / 2) (h / 2), .setDim .plane3 (w / 2) (h / 2), .run .load]) ∧
        ∀ line ∈ stage, ∃ k n cell, line = .put k n cell) ∧
    (w % 2 = 1 ∨ h % 2 = 1 ∨ (bits ≠ 8 ∧ bits ≠ 10 ∧ bits ≠ 16) →
      stageFrame w h bits y u v = none ∧ streamNextFrame order w h bits bytes = .notRead ∧
      loadNextFrame order w h bits bytes = none)
end

