-- ==== Sys2Proof/Laws/Binary32.lean ====
section
/-! SUPPORT. The laws of binary32 rounding: rounding compares with every representable value as the exact quotient does, so
it is monotone and exact on representable values. -/

namespace Sys2Proof.Machine

/-! ### Rounding to an integer -/

theorem rheNat_le {num den k : Nat} (hd : 0 < den) (h : num ≤ k * den) : rheNat num den ≤ k := by
  have hq : num = den * (num / den) + num % den := (Nat.div_add_mod num den).symm
  have hr := Nat.mod_lt num hd
  have hqk : num / den ≤ k := Nat.div_le_of_le_mul (by rw [Nat.mul_comm]; exact h)
  unfold rheNat
  dsimp only
  rcases Nat.lt_or_eq_of_le hqk with hlt | heq
  · split
    · omega
    · split
      · omega
      · omega
  · have : num % den = 0 := by
      have hm : den * (num / den) = k * den := by rw [heq, Nat.mul_comm]
      omega
    split
    · omega
    · omega

theorem le_rheNat {num den k : Nat} (hd : 0 < den) (h : k * den ≤ num) : k ≤ rheNat num den := by
  have hqk : k ≤ num / den := (Nat.le_div_iff_mul_le hd).2 h
  unfold rheNat
  dsimp only
  split
  · exact hqk
  · split
    · omega
    · omega

theorem rheNat_mul {den : Nat} (k : Nat) (hd : 0 < den) : rheNat (k * den) den = k :=
  Nat.le_antisymm (rheNat_le hd (Nat.le_refl _)) (le_rheNat hd (Nat.le_refl _))

theorem rheInt_mul {den : Nat} (k : Int) (hd : 0 < den) : rheInt (k * den) den = k := by
  unfold rheInt
  rw [Int.natAbs_mul, Int.natAbs_natCast, rheNat_mul _ hd]
  have : (k * (den : Int) < 0) ↔ k < 0 := by
    constructor
    · intro h
      by_contra hk
      exact absurd h (not_lt.2 (Int.mul_nonneg (not_lt.1 hk) (Int.natCast_nonneg _)))
    · intro h
      exact Int.mul_neg_of_neg_of_pos h (by exact_mod_cast hd)
  split
  · next h => have := this.1 h; omega
  · next h => have := fun hk => h (this.2 hk); omega

/-- `rheNat` is the nearest natural number, the even one of two (R12). -/
theorem rheNat_nearest {num den : Nat} (hd : 0 < den) :
    (2 * (rheNat num den * den) ≤ 2 * num + den ∧ 2 * num ≤ 2 * (rheNat num den * den) + den) ∧
      (2 * (rheNat num den * den) = 2 * num + den ∨ 2 * num = 2 * (rheNat num den * den) + den →
        rheNat num den % 2 = 0) := by
  have hq : num = den * (num / den) + num % den := (Nat.div_add_mod num den).symm
  have hr := Nat.mod_lt num hd
  unfold rheNat
  dsimp only
  generalize num / den = q at *
  generalize num % den = r at *
  have hc : q * den = den * q := Nat.mul_comm _ _
  split
  · omega
  · split
    · have : (q + 1) * den = den * q + den := by rw [Nat.add_mul, Nat.one_mul, hc]
      omega
    · rcases Nat.mod_two_eq_zero_or_one q with h | h
      · rw [h, Nat.add_zero]
        omega
      · have : (q + 1) * den = den * q + den := by rw [Nat.add_mul, Nat.one_mul, hc]
        rw [h]
        omega

/-- Another whole multiple of den is no nearer to num than the rounded one (R12). -/
theorem rheNat_le_dist {num den : Nat} (hd : 0 < den) (k : Nat) :
    ((rheNat num den * den : Nat) - num : Int).natAbs ≤ ((k * den : Nat) - num : Int).natAbs ∧
      (((rheNat num den * den : Nat) - num : Int).natAbs = ((k * den : Nat) - num : Int).natAbs →
        k = rheNat num den ∨ rheNat num den % 2 = 0) := by
  obtain ⟨⟨h1, h2⟩, h3⟩ := rheNat_nearest (num := num) hd
  generalize rheNat num den = m at *
  rcases Nat.lt_trichotomy k m with h | rfl | h
  · have : (k + 1) * den ≤ m * den := Nat.mul_le_mul_right _ h
    rw [Nat.add_mul, Nat.one_mul] at this
    omega
  · exact ⟨Nat.le_refl _, fun _ => .inl rfl⟩
  · have : (m + 1) * den ≤ k * den := Nat.mul_le_mul_right _ h
    rw [Nat.add_mul, Nat.one_mul] at this
    omega

namespace F32

/-- The magnitude, as a multiple of 2^-149, of the finite value whose exponent and fraction bits are c. -/
def codeMag (c : Nat) : Nat := if c / 2 ^ 23 = 0 then c % 2 ^ 23 else (2 ^ 23 + c % 2 ^ 23) * 2 ^ (c / 2 ^ 23 - 1)

theorem codeMag_small {c : Nat} (h : c < 2 ^ 24) : codeMag c = c := by
  unfold codeMag
  split
  · omega
  · have : c / 2 ^ 23 = 1 := by omega
    rw [this]
    omega

theorem roundMag_le {num den c : Nat} (hd : 0 < den) (h : num ≤ codeMag c * den) : roundMag num den ≤ c := by
  unfold roundMag
  dsimp only
  refine Nat.le_trans (Nat.min_le_left _ _) ?_
  have hqc : num / den ≤ codeMag c := Nat.div_le_of_le_mul (by rw [Nat.mul_comm]; exact h)
  by_cases hq : num / den = 0
  · rw [hq, Nat.log2_zero]
    have hlt : num < den := by
      by_contra hn
      exact absurd hq (Nat.pos_iff_ne_zero.1 (Nat.div_pos (by omega) hd))
    simp only [Nat.zero_sub, Nat.zero_mul, Nat.zero_add, Nat.pow_zero, Nat.mul_one]
    by_cases hc : c < 2 ^ 24
    · rw [codeMag_small hc] at h
      exact rheNat_le hd h
    · exact Nat.le_trans (rheNat_le (k := 1) hd (by omega)) (by omega)
  · have hlog := Nat.log2_self_le hq
    have hlt : num / den < 2 ^ (Nat.log2 (num / den) + 1) := Nat.lt_log2_self
    generalize hL : Nat.log2 (num / den) = L at *
    have hnum : num < 2 ^ (L + 1) * den := (Nat.div_lt_iff_lt_mul hd).1 hlt
    rcases Nat.lt_or_ge L 24 with hL24 | hL24
    · have : L - 23 = 0 := by omega
      rw [this]
      simp only [Nat.zero_mul, Nat.zero_add, Nat.pow_zero, Nat.mul_one]
      by_cases hc : c < 2 ^ 24
      · rw [codeMag_small hc] at h
        exact rheNat_le hd h
      · have h24 : (2 : Nat) ^ (L + 1) ≤ 2 ^ 24 := Nat.pow_le_pow_right (by omega) (by omega)
        have := rheNat_le (k := 2 ^ 24) hd (Nat.le_trans (Nat.le_of_lt hnum) (Nat.mul_le_mul_right _ h24))
        omega
    · obtain ⟨d, rfl⟩ : ∃ d, L = d + 23 := ⟨L - 23, by omega⟩
      rw [Nat.add_sub_cancel]
      have hc24 : 2 ^ 24 ≤ c := by
        by_contra hc
        rw [codeMag_small (by omega)] at hqc
        have : (2 : Nat) ^ 24 ≤ 2 ^ (d + 23) := Nat.pow_le_pow_right (by omega) (by omega)
        omega
      have hE : c / 2 ^ 23 ≠ 0 := by omega
      have hdpos : 0 < den * 2 ^ d := Nat.mul_pos hd (Nat.two_pow_pos d)
      have hcm : codeMag c = (2 ^ 23 + c % 2 ^ 23) * 2 ^ (c / 2 ^ 23 - 1) := if_neg hE
      have hEd : d ≤ c / 2 ^ 23 - 1 := by
        by_contra hcon
        have h1 : (2 : Nat) ^ (c / 2 ^ 23 - 1 + 1) ≤ 2 ^ d := Nat.pow_le_pow_right (by omega) (by omega)
        have h2 : (2 ^ 23 + c % 2 ^ 23) * 2 ^ (c / 2 ^ 23 - 1) < 2 ^ 24 * 2 ^ (c / 2 ^ 23 - 1) :=
          Nat.mul_lt_mul_of_pos_right (by omega) (Nat.two_pow_pos _)
        have h3 : (2 : Nat) ^ 24 * 2 ^ (c / 2 ^ 23 - 1) = 2 ^ 23 * 2 ^ (c / 2 ^ 23 - 1 + 1) := by
          rw [Nat.pow_succ]; ring
        have h4 : (2 : Nat) ^ 23 * 2 ^ (c / 2 ^ 23 - 1 + 1) ≤ 2 ^ 23 * 2 ^ d := Nat.mul_le_mul_left _ h1
        have h5 : (2 : Nat) ^ (d + 23) = 2 ^ 23 * 2 ^ d := by rw [Nat.pow_add]; ring
        omega
      rcases Nat.lt_or_eq_of_le hEd with hlt' | heq
      · have : rheNat num (den * 2 ^ d) ≤ 2 ^ 24 := by
          refine rheNat_le hdpos (Nat.le_trans (Nat.le_of_lt hnum) (Nat.le_of_eq ?_))
          rw [show d + 23 + 1 = 24 + d by omega, Nat.pow_add]; ring
        omega
      · have : rheNat num (den * 2 ^ d) ≤ 2 ^ 23 + c % 2 ^ 23 := by
          refine rheNat_le hdpos (Nat.le_trans h (Nat.le_of_eq ?_))
          rw [hcm, ← heq]; ring
        omega

theorem le_roundMag {num den c : Nat} (hd : 0 < den) (hc : c ≤ 0x7F800000) (h : codeMag c * den ≤ num) :
    c ≤ roundMag num den := by
  unfold roundMag
  dsimp only
  refine Nat.le_min.2 ⟨?_, hc⟩
  have hqc : codeMag c ≤ num / den := (Nat.le_div_iff_mul_le hd).2 h
  by_cases hc24 : c < 2 ^ 24
  · rw [codeMag_small hc24] at h hqc
    rcases Nat.eq_zero_or_pos (Nat.log2 (num / den) - 23) with h0 | hpos
    · rw [h0]
      simp only [Nat.zero_mul, Nat.zero_add, Nat.pow_zero, Nat.mul_one]
      exact le_rheNat hd h
    · generalize hL : Nat.log2 (num / den) = L at *
      obtain ⟨d, rfl⟩ : ∃ d, L = d + 23 := ⟨L - 23, by omega⟩
      rw [Nat.add_sub_cancel] at *
      have hq : num / den ≠ 0 := by
        intro hq
        rw [hq, Nat.log2_zero] at hL
        omega
      have hlog := Nat.log2_self_le hq
      rw [hL] at hlog
      have hdpos : 0 < den * 2 ^ d := Nat.mul_pos hd (Nat.two_pow_pos d)
      have : 2 ^ 23 ≤ rheNat num (den * 2 ^ d) := by
        refine le_rheNat hdpos (Nat.le_trans (Nat.le_of_eq ?_) ((Nat.le_div_iff_mul_le hd).1 hlog))
        rw [Nat.pow_add]; ring
      omega
  · have hE : c / 2 ^ 23 ≠ 0 := by omega
    have hcm : codeMag c = (2 ^ 23 + c % 2 ^ 23) * 2 ^ (c / 2 ^ 23 - 1) := if_neg hE
    have hq : num / den ≠ 0 := by
      intro hq
      rw [hq, hcm] at hqc
      have := Nat.mul_pos (show 0 < 2 ^ 23 + c % 2 ^ 23 by omega) (Nat.two_pow_pos (c / 2 ^ 23 - 1))
      omega
    have hbig : 2 ^ (22 + c / 2 ^ 23) ≤ num / den := by
      refine Nat.le_trans ?_ hqc
      rw [hcm, show 22 + c / 2 ^ 23 = 23 + (c / 2 ^ 23 - 1) by omega, Nat.pow_add]
      exact Nat.mul_le_mul_right _ (by omega)
    have hlog : 22 + c / 2 ^ 23 ≤ Nat.log2 (num / den) := (Nat.le_log2 hq).2 hbig
    have hself := Nat.log2_self_le hq
    generalize hL : Nat.log2 (num / den) = L at *
    obtain ⟨d, rfl⟩ : ∃ d, L = d + 23 := ⟨L - 23, by omega⟩
    rw [Nat.add_sub_cancel]
    have hdpos : 0 < den * 2 ^ d := Nat.mul_pos hd (Nat.two_pow_pos d)
    rcases Nat.lt_or_eq_of_le (show c / 2 ^ 23 - 1 ≤ d by omega) with hlt | heq
    · have : 2 ^ 23 ≤ rheNat num (den * 2 ^ d) := by
        refine le_rheNat hdpos (Nat.le_trans (Nat.le_of_eq ?_) ((Nat.le_div_iff_mul_le hd).1 hself))
        rw [Nat.pow_add]; ring
      omega
    · have : 2 ^ 23 + c % 2 ^ 23 ≤ rheNat num (den * 2 ^ d) := by
        refine le_rheNat hdpos (Nat.le_trans (Nat.le_of_eq ?_) h)
        rw [hcm, ← heq]; ring
      omega

/-- Rounding is exact on representable magnitudes. -/
theorem roundMag_exact {den c : Nat} (hd : 0 < den) (hc : c ≤ 0x7F800000) : roundMag (codeMag c * den) den = c :=
  Nat.le_antisymm (roundMag_le hd (Nat.le_refl _)) (le_roundMag hd hc (Nat.le_refl _))

/-! ### The fields of a word -/

theorem toNat_pack (negative : Bool) {bits : Nat} (h : bits < 2 ^ 31) :
    (pack negative bits).toNat = (if negative then 2 ^ 31 else 0) + bits := by
  unfold pack
  rw [BitVec.toNat_ofNat]
  cases negative <;> simp <;> omega

theorem exponent_eq (w : Word) : exponent w = w.toNat % 2 ^ 31 / 2 ^ 23 := by
  unfold exponent
  rw [BitVec.extractLsb'_toNat, Nat.shiftRight_eq_div_pow]
  have := w.isLt
  omega

theorem fraction_eq (w : Word) : fraction w = w.toNat % 2 ^ 31 % 2 ^ 23 := by
  unfold fraction
  rw [BitVec.extractLsb'_toNat, Nat.shiftRight_eq_div_pow]
  omega

theorem sign_eq (w : Word) : sign w = decide (2 ^ 31 ≤ w.toNat) := by
  unfold sign
  have h1 : (w.extractLsb' 31 1).toNat = w.toNat / 2 ^ 31 := by
    rw [BitVec.extractLsb'_toNat, Nat.shiftRight_eq_div_pow]
    have := w.isLt
    omega
  have : (w.extractLsb' 31 1 = 1) ↔ 2 ^ 31 ≤ w.toNat := by
    rw [← BitVec.toNat_inj, h1]
    have := w.isLt
    simp
    omega
  simp only [this]

/-- The magnitude of a word is that of its low 31 bits. -/
theorem mag_eq (w : Word) : mag w = codeMag (w.toNat % 2 ^ 31) := by
  unfold mag codeMag
  rw [exponent_eq, fraction_eq]

theorem finite_iff (w : Word) : finite w = true ↔ w.toNat % 2 ^ 31 < 0x7F800000 := by
  unfold finite
  rw [exponent_eq]
  have := w.isLt
  simp
  omega

theorem mag_pack (negative : Bool) {bits : Nat} (h : bits < 2 ^ 31) : mag (pack negative bits) = codeMag bits := by
  rw [mag_eq, toNat_pack negative h]
  congr 1
  cases negative <;> simp <;> omega

theorem sign_pack (negative : Bool) {bits : Nat} (h : bits < 2 ^ 31) : sign (pack negative bits) = negative := by
  rw [sign_eq, toNat_pack negative h]
  cases negative
  · simp
    omega
  · simp

theorem finite_pack (negative : Bool) {bits : Nat} (h : bits < 0x7F800000) : finite (pack negative bits) = true := by
  rw [finite_iff, toNat_pack negative (by omega)]
  cases negative <;> simp <;> omega

/-- A word is its sign and its low 31 bits. -/
theorem pack_sign_low (w : Word) : pack (sign w) (w.toNat % 2 ^ 31) = w := by
  apply BitVec.eq_of_toNat_eq
  rw [toNat_pack _ (by omega), sign_eq]
  have := w.isLt
  by_cases h : 2 ^ 31 ≤ w.toNat
  · simp only [h, decide_true, if_true]
    omega
  · simp only [h, decide_false, Bool.false_eq_true, if_false]
    omega

/-- A finite value rounds to itself. -/
theorem ofScaled_scaled {w : Word} (hf : finite w = true) (h0 : scaled w ≠ 0) : ofScaled (scaled w) 1 = w := by
  have hlow := (finite_iff w).1 hf
  have hm : (scaled w).natAbs = codeMag (w.toNat % 2 ^ 31) * 1 := by
    unfold scaled
    split <;> simp [mag_eq]
  have hs : decide (scaled w < 0) = sign w := by
    unfold scaled at h0 ⊢
    cases hs : sign w
    · simp
    · have : mag w ≠ 0 := by intro h; rw [hs, h] at h0; exact h0 (by simp)
      simp
      omega
  unfold ofScaled
  rw [hm, hs, roundMag_exact (by omega) (by omega)]
  exact pack_sign_low w

/-- The bound of a rounded magnitude by a representable one. -/
theorem mag_pack_roundMag_le {num den c : Nat} (negative : Bool) (hd : 0 < den) (hc : c < 0x7F800000)
    (h : num ≤ codeMag c * den) :
    finite (pack negative (roundMag num den)) = true ∧ roundMag num den ≤ c := by
  have := roundMag_le hd h
  exact ⟨finite_pack _ (by omega), this⟩

theorem codeMag_mono {a b : Nat} (hb : b ≤ 0x7F800000) (h : a ≤ b) : codeMag a ≤ codeMag b := by
  by_contra hlt
  have h1 : b ≤ a := by
    have := le_roundMag (num := codeMag a) (den := 1) (c := b) (by omega) hb (by omega)
    have h2 := roundMag_le (num := codeMag a) (den := 1) (c := a) (by omega) (by omega)
    omega
  have : a = b := by omega
  rw [this] at hlt
  exact hlt (Nat.le_refl _)

/-! ### Rounding is to the nearest -/

/-- How many binary places are rounded away (see `roundMag`). -/
def dropped (num den : Nat) : Nat := Nat.log2 (num / den) - 23

/-- The significand `roundMag` rounds to. -/
def significand (num den : Nat) : Nat := rheNat num (den * 2 ^ dropped num den)

theorem roundMag_eq (num den : Nat) :
    roundMag num den = min (dropped num den * 2 ^ 23 + significand num den) 0x7F800000 := rfl

theorem significand_bounds {num den : Nat} (hd : 0 < den) :
    significand num den ≤ 2 ^ 24 ∧ (dropped num den ≠ 0 → 2 ^ 23 ≤ significand num den) ∧
      (dropped num den ≠ 0 → 2 ^ 23 * (den * 2 ^ dropped num den) ≤ num) ∧
      num < 2 ^ 24 * (den * 2 ^ dropped num den) := by
  unfold significand
  have hdpos : 0 < den * 2 ^ dropped num den := Nat.mul_pos hd (Nat.two_pow_pos _)
  have hlt : num / den < 2 ^ (Nat.log2 (num / den) + 1) := Nat.lt_log2_self
  have hnum : num < 2 ^ (Nat.log2 (num / den) + 1) * den := (Nat.div_lt_iff_lt_mul hd).1 hlt
  have hup : num < 2 ^ 24 * (den * 2 ^ dropped num den) := by
    refine Nat.lt_of_lt_of_le hnum ?_
    have : (2 : Nat) ^ (Nat.log2 (num / den) + 1) ≤ 2 ^ (24 + dropped num den) :=
      Nat.pow_le_pow_right (by omega) (by unfold dropped; omega)
    calc _ ≤ 2 ^ (24 + dropped num den) * den := Nat.mul_le_mul_right _ this
      _ = _ := by rw [Nat.pow_add]; ring
  have hlow : dropped num den ≠ 0 → 2 ^ 23 * (den * 2 ^ dropped num den) ≤ num := by
    intro h0
    have hq : num / den ≠ 0 := by
      intro hq
      exact h0 (by unfold dropped; rw [hq, Nat.log2_zero])
    have hs := (Nat.le_div_iff_mul_le hd).1 (Nat.log2_self_le hq)
    have hL : Nat.log2 (num / den) = 23 + dropped num den := by unfold dropped at *; omega
    rw [hL, Nat.pow_add] at hs
    calc _ = 2 ^ 23 * 2 ^ dropped num den * den := by ring
      _ ≤ _ := hs
  exact ⟨rheNat_le hdpos (Nat.le_of_lt hup), fun h0 => le_rheNat hdpos (hlow h0), hlow, hup⟩

/-- Exponent d and a significand up to 2^24 make the magnitude m·2^d. -/
theorem codeMag_of_significand {d m : Nat} (hm : m ≤ 2 ^ 24) (hl : d ≠ 0 → 2 ^ 23 ≤ m) :
    codeMag (d * 2 ^ 23 + m) = m * 2 ^ d := by
  unfold codeMag
  rcases Nat.lt_or_ge m (2 ^ 23) with h | h
  · have : d = 0 := by
      by_contra h0
      exact absurd (hl h0) (by omega)
    subst this
    rw [if_pos (by omega)]
    omega
  · rcases Nat.lt_or_eq_of_le hm with h' | rfl
    · have e1 : (d * 2 ^ 23 + m) / 2 ^ 23 = d + 1 := by omega
      have e2 : (d * 2 ^ 23 + m) % 2 ^ 23 = m - 2 ^ 23 := by omega
      rw [e1, e2, if_neg (by omega), Nat.add_sub_cancel, Nat.add_sub_cancel' h]
    · have e1 : (d * 2 ^ 23 + 2 ^ 24) / 2 ^ 23 = d + 2 := by omega
      have e2 : (d * 2 ^ 23 + 2 ^ 24) % 2 ^ 23 = 0 := by omega
      rw [e1, e2, if_neg (by omega), show d + 2 - 1 = d + 1 from rfl, Nat.pow_succ]
      ring

/-- A magnitude is a multiple of 2^d, or lies below 2^(23 + d). -/
theorem codeMag_coarse (c d : Nat) : (∃ k, codeMag c = k * 2 ^ d) ∨ codeMag c < 2 ^ 23 * 2 ^ d := by
  unfold codeMag
  split
  · right
    calc c % 2 ^ 23 < 2 ^ 23 * 1 := by omega
      _ ≤ _ := Nat.mul_le_mul_left _ (Nat.one_le_two_pow)
  · rcases Nat.lt_or_ge (c / 2 ^ 23 - 1) d with h | h
    · right
      have h1 : (2 : Nat) ^ (c / 2 ^ 23 - 1 + 1) ≤ 2 ^ d := Nat.pow_le_pow_right (by omega) h
      calc _ < 2 ^ 24 * 2 ^ (c / 2 ^ 23 - 1) := Nat.mul_lt_mul_of_pos_right (by omega) (Nat.two_pow_pos _)
        _ = 2 ^ 23 * 2 ^ (c / 2 ^ 23 - 1 + 1) := by rw [Nat.pow_succ]; ring
        _ ≤ _ := Nat.mul_le_mul_left _ h1
    · left
      refine ⟨(2 ^ 23 + c % 2 ^ 23) * 2 ^ (c / 2 ^ 23 - 1 - d), ?_⟩
      rw [Nat.mul_assoc, ← Nat.pow_add, Nat.sub_add_cancel h]

/-- Below half a last place past the largest finite value rounding gives a finite value, from there on the infinity. -/
theorem roundMag_finite_iff {num den : Nat} (hd : 0 < den) :
    roundMag num den < 0x7F800000 ↔ num < (2 ^ 25 - 1) * 2 ^ 252 * den := by
  obtain ⟨hm, hl, hlow, hup⟩ := significand_bounds (num := num) hd
  have hdpos : 0 < den * 2 ^ dropped num den := Nat.mul_pos hd (Nat.two_pow_pos _)
  obtain ⟨⟨n1, n2⟩, n3⟩ := rheNat_nearest (num := num) hdpos
  have hsig : significand num den = rheNat num (den * 2 ^ dropped num den) := rfl
  rw [← hsig] at n1 n2 n3
  rw [roundMag_eq]
  generalize significand num den = m at *
  generalize dropped num den = d at *
  obtain ⟨E, hE⟩ : ∃ E, den * 2 ^ 252 = E := ⟨_, rfl⟩
  have hpos : 0 < E := hE ▸ Nat.mul_pos hd (Nat.two_pow_pos _)
  have hscale : ∀ e, den * 2 ^ (252 + e) = E * 2 ^ e := fun e => by rw [← hE, Nat.pow_add]; ring
  have hT : (2 ^ 25 - 1) * 2 ^ 252 * den = (2 ^ 25 - 1) * E := by rw [← hE]; ring
  rw [hT]
  rcases Nat.lt_trichotomy d 253 with h | rfl | h
  · have h1 : den * 2 ^ d ≤ E := hE ▸ Nat.mul_le_mul_left _ (Nat.pow_le_pow_right (by omega) (by omega))
    have : num < (2 ^ 25 - 1) * E := by omega
    exact ⟨fun _ => this, fun _ => by omega⟩
  · have e := hscale 1
    rw [show 252 + 1 = 253 from rfl, Nat.pow_one] at e
    rw [e] at n1 n2 n3
    constructor
    · intro hlt
      have h1 : m * (E * 2) ≤ (2 ^ 24 - 1) * (E * 2) := Nat.mul_le_mul_right _ (by omega)
      by_contra hge
      have h2 : m = 2 ^ 24 - 1 := by
        by_contra hne
        have : m * (E * 2) ≤ (2 ^ 24 - 2) * (E * 2) := Nat.mul_le_mul_right _ (by omega)
        omega
      subst h2
      have := n3 (.inr (by omega))
      omega
    · intro hlt
      have : m ≠ 2 ^ 24 := by
        rintro rfl
        omega
      omega
  · obtain ⟨e, rfl⟩ : ∃ e, d = 252 + (e + 2) := ⟨d - 254, by omega⟩
    constructor
    · intro hlt
      have := hl (by omega)
      omega
    · intro hlt
      exfalso
      have h1 := hlow (by omega)
      have h2 : E * 4 ≤ E * 2 ^ (e + 2) := by
        refine Nat.mul_le_mul_left _ ?_
        calc 4 = 2 ^ 2 := rfl
          _ ≤ _ := Nat.pow_le_pow_right (by omega) (by omega)
      rw [hscale] at h1
      omega

/-- No representable magnitude is nearer to num / den than the rounded one; where another is as near, the rounded one's
last bit is 0 (R12). -/
theorem roundMag_nearest {num den : Nat} (hd : 0 < den) (hf : roundMag num den < 0x7F800000) (c : Nat) :
    ((codeMag (roundMag num den) * den : Nat) - num : Int).natAbs ≤ ((codeMag c * den : Nat) - num : Int).natAbs ∧
      (((codeMag (roundMag num den) * den : Nat) - num : Int).natAbs = ((codeMag c * den : Nat) - num : Int).natAbs →
        codeMag c = codeMag (roundMag num den) ∨ roundMag num den % 2 = 0) := by
  obtain ⟨hm, hl, hlow, -⟩ := significand_bounds (num := num) hd
  have hdpos : 0 < den * 2 ^ dropped num den := Nat.mul_pos hd (Nat.two_pow_pos _)
  have hr : roundMag num den = dropped num den * 2 ^ 23 + significand num den := by
    rw [roundMag_eq] at hf ⊢
    omega
  have hc : codeMag (roundMag num den) = significand num den * 2 ^ dropped num den := by
    rw [hr]
    exact codeMag_of_significand hm hl
  have hnear := fun k => rheNat_le_dist (num := num) hdpos k
  have hsig : significand num den = rheNat num (den * 2 ^ dropped num den) := rfl
  rw [← hsig] at hnear
  have hpar : roundMag num den % 2 = significand num den % 2 := by omega
  rw [hc, hpar]
  generalize significand num den = m at *
  generalize dropped num den = d at *
  have hmul : ∀ k, k * 2 ^ d * den = k * (den * 2 ^ d) := fun k => by ring
  rw [hmul]
  rcases codeMag_coarse c d with ⟨k, hk⟩ | hlt
  · rw [hk, hmul]
    refine ⟨(hnear k).1, fun h => ?_⟩
    rcases (hnear k).2 h with rfl | h
    · exact .inl rfl
    · exact .inr h
  · by_cases h0 : d = 0
    · subst h0
      have hk : codeMag c = codeMag c * 2 ^ 0 := by simp
      rw [hk, hmul]
      refine ⟨(hnear _).1, fun h => ?_⟩
      rcases (hnear _).2 h with h | h
      · rw [h]; exact .inl (by simp)
      · exact .inr h
    · have h1 := hlow h0
      have h2 := (hnear (2 ^ 23)).1
      have h3 : codeMag c * den < 2 ^ 23 * (den * 2 ^ d) := by
        rw [← hmul]
        exact Nat.mul_lt_mul_of_pos_right hlt hd
      omega

/-- The sign of a value times its magnitude. -/
theorem scaled_pack (negative : Bool) {bits : Nat} (h : bits < 2 ^ 31) :
    scaled (pack negative bits) = if negative then -(codeMag bits : Int) else (codeMag bits : Int) := by
  unfold scaled
  rw [sign_pack _ h, mag_pack _ h]

theorem scaled_eq (w : Word) :
    scaled w = if sign w then -(codeMag (w.toNat % 2 ^ 31) : Int) else (codeMag (w.toNat % 2 ^ 31) : Int) := by
  unfold scaled
  rw [mag_eq]

/-- Nearest among magnitudes, 0 among them, is nearest among signed values. -/
theorem signed_nearest {a b n : Nat} {even : Prop} (s t : Bool)
    (h : ((a : Int) - n).natAbs ≤ ((b : Int) - n).natAbs) (h' : ((a : Int) - n).natAbs = ((b : Int) - n).natAbs → b = a ∨ even)
    (z : ((a : Int) - n).natAbs ≤ n) (z' : ((a : Int) - n).natAbs = n → a = 0 ∨ even) :
    ((if s then -(a : Int) else a) - (if s then -(n : Int) else n)).natAbs ≤
        ((if t then -(b : Int) else b) - (if s then -(n : Int) else n)).natAbs ∧
      (((if s then -(a : Int) else a) - (if s then -(n : Int) else n)).natAbs =
        ((if t then -(b : Int) else b) - (if s then -(n : Int) else n)).natAbs →
          (if t then -(b : Int) else b) = (if s then -(a : Int) else a) ∨ even) := by
  by_cases he : even
  · refine ⟨?_, fun _ => .inr he⟩
    cases s <;> cases t <;> simp only [Bool.false_eq_true, if_true, if_false] <;> omega
  · simp only [he, or_false] at h' z' ⊢
    cases s <;> cases t <;> simp only [Bool.false_eq_true, if_true, if_false] <;> omega

/-- No finite value is nearer to ±n/den than the rounded one, and where another is as near the rounded one's last bit is 0
(R12). -/
theorem pack_roundMag_nearest {n den : Nat} (negative : Bool) (hd : 0 < den) (hf : roundMag n den < 0x7F800000) (v : Word) :
    (scaled (pack negative (roundMag n den)) * den - (if negative then -(n : Int) else n)).natAbs ≤
        (scaled v * den - (if negative then -(n : Int) else n)).natAbs ∧
      ((scaled (pack negative (roundMag n den)) * den - (if negative then -(n : Int) else n)).natAbs =
        (scaled v * den - (if negative then -(n : Int) else n)).natAbs →
          scaled v = scaled (pack negative (roundMag n den)) ∨ roundMag n den % 2 = 0) := by
  have h1 := roundMag_nearest hd hf (v.toNat % 2 ^ 31)
  have h0 := roundMag_nearest hd hf 0
  have c0 : codeMag 0 = 0 := by decide
  rw [c0, Nat.zero_mul] at h0
  rw [scaled_pack _ (by omega), scaled_eq v]
  generalize codeMag (v.toNat % 2 ^ 31) = b at *
  generalize codeMag (roundMag n den) = a at *
  generalize (roundMag n den % 2 = 0) = even at *
  have push : ∀ (s : Bool) (m : Nat), (if s then -(m : Int) else (m : Int)) * den
      = if s then -((m * den : Nat) : Int) else ((m * den : Nat) : Int) := by
    intro s m
    cases s <;> simp
  have pull : ∀ {m k : Nat}, m * den = k * den → m = k := fun h => Nat.eq_of_mul_eq_mul_right hd h
  rw [push, push]
  have key := signed_nearest (a := a * den) (b := b * den) (n := n) (even := even) negative (sign v) h1.1
    (fun h => (h1.2 h).imp (fun e => by rw [e]) id) (by simpa using h0.1)
    (fun h => (h0.2 (by simpa using h)).imp (fun e => by rw [← e, Nat.zero_mul]) id)
  refine ⟨key.1, fun h => (key.2 h).imp (fun e => ?_) id⟩
  cases negative <;> cases hs : sign v <;> simp only [hs, Bool.false_eq_true, if_true, if_false] at e ⊢
  · have := pull (Int.ofNat_inj.1 e); omega
  · have hb := pull (m := b) (k := 0) (by omega); have ha := pull (m := a) (k := 0) (by omega); omega
  · have hb := pull (m := b) (k := 0) (by omega); have ha := pull (m := a) (k := 0) (by omega); omega
  · have := pull (m := b) (k := a) (by omega); omega

/-! ### The kinds of word -/

theorem isNaN_of_finite {w : Word} (h : finite w = true) : isNaN w = false := by
  unfold finite at h
  unfold isNaN
  simp_all

theorem finite_toFinite (w : Word) : finite (toFinite w) = true := by
  unfold toFinite
  split
  · assumption
  · have h : exponent (w &&& 0xFF7FFFFF#32) = exponent w &&& 254 := by
      unfold exponent
      rw [BitVec.extractLsb'_and, BitVec.toNat_and]
      rfl
    unfold finite
    rw [h]
    have : exponent w &&& 254 ≤ 254 := Nat.and_le_right
    simp
    omega

/-- A word that holds a finite value is left as it is (R30). -/
theorem toFinite_of_finite {w : Word} (h : finite w = true) : toFinite w = w := if_pos h

/-- A number between two representable ones is clipped to a finite value in [0, 1] (R171). -/
theorem clip01_finite {w : Word} (h : isNaN w = false) :
    finite (clip01 w) = true ∧ 0 ≤ scaled (clip01 w) ∧ scaled (clip01 w) ≤ 2 ^ 149 := by
  unfold clip01
  rw [h]
  simp only [Bool.false_eq_true, if_false]
  split
  · decide
  · split
    · decide
    · next h0 h1 =>
      refine ⟨?_, by omega, by omega⟩
      by_contra hf
      have he : exponent w = 255 := by
        unfold finite at hf
        simpa using hf
      have hm : 2 ^ 23 * 2 ^ 254 ≤ mag w := by
        unfold mag
        rw [he, if_neg (by omega)]
        exact Nat.mul_le_mul_right _ (by omega)
      have hbig : (2 : Nat) ^ 149 ≤ 2 ^ 23 * 2 ^ 254 := by decide
      have hs : scaled w = -(mag w : Int) ∨ scaled w = (mag w : Int) := by
        unfold scaled
        split
        · exact .inl rfl
        · exact .inr rfl
      omega

end F32

end Sys2Proof.Machine
end

