-- ==== Sys2Proof/Laws/Colour.lean ====
section
/-! SUPPORT. TO_RGB of finite values never meets a NaN, so its outputs are finite and lie in [0, 1] (spec 10_state R30,
44_to_rgb R170, R171). -/

namespace Sys2Proof.Machine

namespace F32

theorem isNaN_pack_roundMag (negative : Bool) (n den : Nat) : isNaN (pack negative (roundMag n den)) = false := by
  have hle : roundMag n den ≤ 0x7F800000 := Nat.min_le_right _ _
  rcases Nat.lt_or_eq_of_le hle with h | h
  · exact isNaN_of_finite (finite_pack _ h)
  · rw [h]
    cases negative <;> decide

theorem isNaN_ofScaled (num : Int) (den : Nat) : isNaN (ofScaled num den) = false := isNaN_pack_roundMag _ _ _

/-- A sum with a finite term is a NaN only if the other term is. -/
theorem isNaN_add {x y : Word} (hx : isNaN x = false) (hy : finite y = true) : isNaN (add x y) = false := by
  unfold add
  rw [hx, hy, isNaN_of_finite hy]
  simp only [Bool.and_true, Bool.or_self, Bool.false_eq_true, if_false, Bool.true_or, if_true]
  split
  · split
    · cases sign x <;> cases sign y <;> decide
    · exact isNaN_ofScaled _ _
  · exact hx

theorem isNaN_add' {x y : Word} (hx : finite x = true) (hy : isNaN y = false) : isNaN (add x y) = false := by
  unfold add
  rw [hx, hy, isNaN_of_finite hx]
  simp only [Bool.true_and, Bool.or_self, Bool.false_eq_true, if_false, if_true]
  split
  · split
    · cases sign x <;> cases sign y <;> decide
    · exact isNaN_ofScaled _ _
  · exact hy

theorem isNaN_mul {x y : Word} (hx : finite x = true) (hy : finite y = true) : isNaN (mul x y) = false := by
  unfold mul
  rw [hx, hy]
  exact isNaN_pack_roundMag _ _ _

@[simp] theorem mag_neg (w : Word) : mag (neg w) = mag w := by
  have h : neg w &&& 0x7FFFFFFF#32 = w &&& 0x7FFFFFFF#32 := by
    unfold neg
    apply BitVec.eq_of_getElem_eq
    intro i hi
    rw [BitVec.getElem_and, BitVec.getElem_and, BitVec.getElem_xor]
    interval_cases i <;> simp
  have low : ∀ v : Word, (v &&& 0x7FFFFFFF#32).toNat = v.toNat % 2 ^ 31 := by
    intro v
    rw [BitVec.toNat_and]
    exact Nat.and_two_pow_sub_one_eq_mod v.toNat 31
  rw [mag_eq, mag_eq, ← low, ← low, h]

@[simp] theorem finite_neg (w : Word) : finite (neg w) = finite w := by
  have h : exponent (neg w) = exponent w := by
    unfold exponent neg
    rw [BitVec.extractLsb'_xor]
    simp
  unfold finite
  rw [h]

/-- The magnitude of a finite word is at most the largest finite one. -/
theorem mag_le_of_finite {w : Word} (h : finite w = true) : mag w ≤ (2 ^ 24 - 1) * 2 ^ 253 := by
  have he := (finite_iff w).1 h
  rw [mag_eq]
  refine Nat.le_trans (codeMag_mono (b := 0x7F7FFFFF) (by omega) (by omega)) ?_
  decide

theorem finite_pack_roundMag (negative : Bool) {n den : Nat} (hd : 0 < den) (h : n < (2 ^ 25 - 1) * 2 ^ 252 * den) :
    finite (pack negative (roundMag n den)) = true := finite_pack _ ((roundMag_finite_iff hd).2 h)

/-- A finite value less a finite one of magnitude below half a last place of the largest finite value stays finite. -/
theorem finite_add {x y : Word} (hx : finite x = true) (hy : finite y = true) (h : mag y < 2 ^ 252) :
    finite (add x y) = true := by
  unfold add
  rw [hx, hy]
  simp only [Bool.and_self, if_true]
  split
  · cases sign x <;> cases sign y <;> decide
  · refine finite_pack_roundMag _ (by omega) ?_
    have hm := mag_le_of_finite hx
    have e : ∀ w, scaled w = -(mag w : Int) ∨ scaled w = (mag w : Int) := by
      intro w
      unfold scaled
      split
      · exact .inl rfl
      · exact .inr rfl
    rcases e x with ex | ex <;> rcases e y with ey | ey <;> omega

/-- A product with a factor of magnitude at most 1 stays finite. -/
theorem finite_mul {x y : Word} (hx : finite x = true) (hy : finite y = true) (h : mag x ≤ 2 ^ 149) :
    finite (mul x y) = true := by
  unfold mul
  rw [hx, hy]
  refine finite_pack_roundMag _ (by omega) ?_
  have hm := mag_le_of_finite hy
  calc mag x * mag y ≤ 2 ^ 149 * ((2 ^ 24 - 1) * 2 ^ 253) := Nat.mul_le_mul h hm
    _ < 2 ^ 149 * ((2 ^ 25 - 1) * 2 ^ 252) := Nat.mul_lt_mul_of_pos_left (by decide) (by omega)
    _ = _ := Nat.mul_comm _ _

end F32

open F32

theorem centred_finite {w : Word} (h : finite w = true) : finite (centred w) = true :=
  finite_add h (by decide) (by decide)

theorem pixelR_range {y u v : Word} (hy : finite y = true) (hv : finite v = true) :
    finite (pixelR y u v) = true ∧ 0 ≤ scaled (pixelR y u v) ∧ scaled (pixelR y u v) ≤ 2 ^ 149 :=
  clip01_finite (isNaN_add' hy (isNaN_mul (by decide) hv))

theorem pixelB_range {y u v : Word} (hy : finite y = true) (hu : finite u = true) :
    finite (pixelB y u v) = true ∧ 0 ≤ scaled (pixelB y u v) ∧ scaled (pixelB y u v) ≤ 2 ^ 149 :=
  clip01_finite (isNaN_add' hy (isNaN_mul (by decide) hu))

theorem pixelG_range {y u v : Word} (hy : finite y = true) (hu : finite u = true) (hv : finite v = true) :
    finite (pixelG y u v) = true ∧ 0 ≤ scaled (pixelG y u v) ∧ scaled (pixelG y u v) ≤ 2 ^ 149 := by
  refine clip01_finite (isNaN_add (isNaN_add' hy ?_) ?_)
  · exact isNaN_of_finite (by rw [finite_neg]; exact finite_mul (by decide) hu (by decide))
  · rw [finite_neg]
    exact finite_mul (by decide) hv (by decide)

end Sys2Proof.Machine
end

