-- ==== Sys2Proof/Laws/Commands.lean ====
section
/-! SUPPORT. What each command can do, said once: it raises its first error and changes nothing else (R201), or its checks
pass and it leaves one state. -/

namespace Sys2Proof.Machine

theorem finishOrRaise_ok (s t : State) : finishOrRaise s (.ok t) = .next t.finish := rfl

theorem finishOrRaise_error (s : State) (e : ResultCode) : finishOrRaise s (.error e) = .next (s.raise e) := rfl

/-- A command's answer in terms of its check. -/
theorem finishOrRaise_map {α : Type} (s : State) (x : Except ResultCode α) (f : α → State) :
    finishOrRaise s (x.map f) =
      match x with
      | .ok a => .next (f a).finish
      | .error e => .next (s.raise e) := by cases x <;> rfl

theorem finishOrRaise_map_cases {α : Type} {s t : State} {x : Except ResultCode α} {f : α → State}
    (h : finishOrRaise s (x.map f) = .next t) :
    (∃ e, x = .error e ∧ t = s.raise e) ∨ (∃ a, x = .ok a ∧ t = (f a).finish) := by
  cases x with
  | error e => exact .inl ⟨e, rfl, (Host.Outcome.next.inj h).symm⟩
  | ok a => exact .inr ⟨a, rfl, (Host.Outcome.next.inj h).symm⟩

theorem execLoad_cases {s t : State} (h : exec .load s = .next t) :
    (∃ e, s.loadCheck = .error e ∧ t = s.raise e) ∨
      (∃ f, s.loadCheck = .ok f ∧ t = State.finish { s with frame := s.loadFrame f }) :=
  finishOrRaise_map_cases h

theorem execRead_cases {s t : State} {arity sel : Nat} (h : exec (.read arity sel) s = .next t) :
    (∃ e, s.readCell arity sel = .error e ∧ t = s.raise e) ∨
      (∃ v, s.readCell arity sel = .ok v ∧ t = State.finish { s with rdata := v }) :=
  finishOrRaise_map_cases h

theorem execNormalize_cases {s t : State} (h : exec .normalize s = .next t) :
    (∃ e, s.normalizeCheck = .error e ∧ t = s.raise e) ∨
      (∃ u, s.normalizeCheck = .ok u ∧ t = State.finish { s with frame := s.frame.normalized }) :=
  finishOrRaise_map_cases h

theorem execUpsample_cases {s t : State} (h : exec .upsample s = .next t) :
    (∃ e, s.upsampleCheck = .error e ∧ t = s.raise e) ∨
      (∃ u, s.upsampleCheck = .ok u ∧ t = State.finish { s with frame := s.upsampledFrame }) :=
  finishOrRaise_map_cases h

theorem execToRgb_cases {s t : State} (h : exec .toRgb s = .next t) :
    (∃ e, s.toRgbCheck = .error e ∧ t = s.raise e) ∨
      (∃ u, s.toRgbCheck = .ok u ∧ t = State.finish { s with frame := s.frame.converted s.params.castRound }) :=
  finishOrRaise_map_cases h

theorem execExport_cases {s t : State} (h : exec .exportOut s = .next t) :
    (∃ e, s.exportChannels = .error e ∧ t = s.raise e) ∨
      (∃ ch, s.exportChannels = .ok ch ∧ t = (s.exported ch).finish) :=
  finishOrRaise_map_cases h

/-- Every command completes with a next state, whatever the state (R200, R202). -/
theorem exec_isNext (i : Instr) (s : State) : ∃ t, exec i s = .next t := by
  have key : ∀ {α : Type} (x : Except ResultCode α) (f : α → State), ∃ t, finishOrRaise s (x.map f) = .next t := by
    intro α x f
    cases x with
    | ok a => exact ⟨_, rfl⟩
    | error e => exact ⟨_, rfl⟩
  cases i with
  | load => exact key _ _
  | read arity sel => exact key _ _
  | normalize => exact key _ _
  | upsample => exact key _ _
  | toRgb => exact key _ _
  | exportOut => exact key _ _

/-! ### The checks, inverted -/

theorem normalizeCheck_ok {s : State} {u : Unit} (h : s.normalizeCheck = .ok u) : s.frame.init = true := by
  unfold State.normalizeCheck at h
  split at h
  · exact absurd h (by simp)
  · simpa using ‹¬s.frame.init = false›

theorem upsampleCheck_ok {s : State} {u : Unit} (h : s.upsampleCheck = .ok u) :
    s.frame.init = true ∧ s.frame.fmt ≠ .gray ∧ ¬(s.frame.p2.w = s.frame.p1.w ∧ s.frame.p2.h = s.frame.p1.h) := by
  unfold State.upsampleCheck at h
  repeat' split at h
  all_goals first | (cases h; done) | simp_all

theorem toRgbCheck_ok {s : State} {u : Unit} (h : s.toRgbCheck = .ok u) :
    s.frame.init = true ∧ s.frame.fmt = .yuv444 := by
  unfold State.toRgbCheck at h
  repeat' split at h
  all_goals first | (cases h; done) | simp_all

theorem exportChannels_ok {s : State} {ch : PlaneCount} (h : s.exportChannels = .ok ch) :
    s.frame.init = true ∧ ((s.frame.fmt = .gray ∧ ch = .one) ∨ (s.frame.fmt = .yuv444 ∧ ch = .three)) := by
  unfold State.exportChannels at h
  repeat' split at h
  all_goals first | (cases h; done) | simp_all

theorem readPlane_ok {s : State} {arity sel : Nat} {k : PlaneId} (h : s.readPlane arity sel = .ok k) :
    s.frame.init = true ∧ ((s.frame.fmt = .gray ∧ arity = 2 ∧ k = .plane1) ∨
      (s.frame.fmt ≠ .gray ∧ arity = 3 ∧ selectedPlane sel = some k)) := by
  unfold State.readPlane at h
  repeat' split at h
  all_goals first | (cases h; done) | simp_all

theorem readCell_ok {s : State} {arity sel : Nat} {v : Word} (h : s.readCell arity sel = .ok v) :
    ∃ k, s.readPlane arity sel = .ok k ∧ (lowHalf s.idx).toNat < (s.frame.plane k).h.toNat ∧
      (highHalf s.idx).toNat < (s.frame.plane k).w.toNat ∧
      v = (s.frame.plane k).cell (lowHalf s.idx).toNat (highHalf s.idx).toNat := by
  unfold State.readCell at h
  split at h
  · exact absurd h (by simp)
  · next k hk =>
    dsimp only at h
    split at h
    · exact absurd h (by simp)
    · next hb =>
      refine ⟨k, hk, by omega, by omega, ?_⟩
      exact (Except.ok.inj h).symm

/-- LOAD's checks passed: 1 or 3 planes, a legal depth, legal dimensions and types (R111 to R114). -/
theorem loadCheck_ok {s : State} {f : ChromaFormat} (h : s.loadCheck = .ok f) :
    cfgPlanes s.inCfg ≠ 0 ∧ 1 ≤ (cfgBitDepth s.inCfg).toNat ∧ (cfgBitDepth s.inCfg).toNat ≤ 16 ∧
      (suppliedPlanes (cfgPlanes s.inCfg)).all s.dimsLegal = true ∧
      (suppliedPlanes (cfgPlanes s.inCfg)).all s.typeLegal = true ∧
      (cfgBitDepth s.inCfg).toNat ≤ (s.elemType .plane1).width ∧ s.loadFormat (cfgPlanes s.inCfg) = .ok f := by
  simp only [State.loadCheck] at h
  split at h
  · exact absurd h nofun
  next hp =>
  split at h
  · exact absurd h nofun
  next hbd =>
  split at h
  · exact absurd h nofun
  next hd =>
  split at h
  · exact absurd h nofun
  next ht =>
  split at h
  · exact absurd h nofun
  next hw => exact ⟨hp, by omega, by omega, not_not.1 hd, not_not.1 ht, by omega, h⟩

theorem loadFormat_ok {s : State} {p : Nat} {f : ChromaFormat} (h : s.loadFormat p = .ok f) :
    p ≠ 2 ∧ ((p = 1 ∧ f = .gray) ∨
      (p ≠ 1 ∧ (p = 3 → s.inW .plane2 = s.inW .plane3 ∧ s.inH .plane2 = s.inH .plane3) ∧
        classify (s.inW .plane1).toNat (s.inH .plane1).toNat (s.inW .plane2).toNat (s.inH .plane2).toNat = some f)) := by
  unfold State.loadFormat at h
  split at h
  · exact absurd h nofun
  next h2 =>
  split at h
  · exact absurd h nofun
  next h3 =>
  split at h
  · next h1 => exact ⟨h2, .inl ⟨h1, (Except.ok.inj h).symm⟩⟩
  next h1 =>
  split at h
  · next g hg =>
    refine ⟨h2, .inr ⟨h1, ?_, ?_⟩⟩
    · intro hp
      by_contra hc
      exact h3 ⟨hp, hc⟩
    · rw [hg]
      exact congrArg some (Except.ok.inj h)
  · exact absurd h nofun

/-- `classify` answers the format whose ratio the dimensions have (R116). -/
theorem classify_some {yW yH uW uH : Nat} {f : ChromaFormat} (h : classify yW yH uW uH = some f) :
    (f = .yuv444 ∧ uW = yW ∧ uH = yH) ∨ (f = .yuv422 ∧ uW * 2 = yW ∧ uH = yH) ∨
      (f = .yuv420 ∧ uW * 2 = yW ∧ uH * 2 = yH) ∨ (f = .yuv411 ∧ uW * 4 = yW ∧ uH = yH) ∨
      (f = .yuv440 ∧ uW = yW ∧ uH * 2 = yH) := by
  unfold classify at h
  repeat' split at h
  all_goals simp_all

end Sys2Proof.Machine
end

