-- ==== Sys2Proof/Laws/Frame.lean ====
section
/-! SUPPORT. The frame each command leaves is well formed (spec 10_state R21, R23, R26, R29). -/

namespace Sys2Proof.Machine

theorem Plane.mapCells_wf {p : Params} {x : Plane} (g : Word → Word) (h : x.Wf p) : (x.mapCells g).Wf p where
  wPos := h.wPos
  wMax := h.wMax
  hPos := h.hPos
  hMax := h.hMax
  cells := by simpa [Plane.mapCells, Plane.size] using h.cells

theorem Frame.mapPresent_one {f : Frame} (g : Word → Word) (h : f.planes = .one) :
    f.mapPresent g = { f with p1 := f.p1.mapCells g } := by
  unfold Frame.mapPresent
  rw [h]

theorem Frame.mapPresent_three {f : Frame} (g : Word → Word) (h : f.planes = .three) :
    f.mapPresent g = { f with p1 := f.p1.mapCells g, p2 := f.p2.mapCells g, p3 := f.p3.mapCells g } := by
  unfold Frame.mapPresent
  rw [h]

@[simp] theorem Frame.mapPresent_init (f : Frame) (g : Word → Word) : (f.mapPresent g).init = f.init := by
  unfold Frame.mapPresent
  split <;> rfl

@[simp] theorem Frame.mapPresent_planes (f : Frame) (g : Word → Word) : (f.mapPresent g).planes = f.planes := by
  unfold Frame.mapPresent
  split <;> rfl

@[simp] theorem Frame.mapPresent_fmt (f : Frame) (g : Word → Word) : (f.mapPresent g).fmt = f.fmt := by
  unfold Frame.mapPresent
  split <;> rfl

@[simp] theorem Frame.mapPresent_bitDepth (f : Frame) (g : Word → Word) : (f.mapPresent g).bitDepth = f.bitDepth := by
  unfold Frame.mapPresent
  split <;> rfl

@[simp] theorem Frame.mapPresent_size (f : Frame) (g : Word → Word) : (f.mapPresent g).p1.size = f.p1.size := by
  unfold Frame.mapPresent
  split <;> rfl

/-- NORMALIZE's frame (R140). -/
theorem Frame.normalized_loaded {p : Params} {f : Frame} (h : f.Loaded p) : f.normalized.Loaded p := by
  have hw : f.bitDepth.toNat ≤ SampleType.f32.width := Nat.le_trans h.depthMax (by decide)
  have key : ∀ g : Frame, g.Loaded p → g.bitDepth = f.bitDepth → ({ g with sampleType := .f32 } : Frame).Loaded p :=
    fun g hg hd => ⟨hg.some, hg.gray, hg.p1, hg.p2, hg.p3, hg.sameDims, hg.fits, hg.depthPos, hg.depthMax, hd ▸ hw⟩
  refine key _ ?_ (Frame.mapPresent_bitDepth _ _)
  cases hp : f.planes with
  | none => exact absurd hp h.some
  | one =>
    rw [Frame.mapPresent_one _ hp]
    have no : ∀ {q : Prop}, f.planes = .three → q := fun h3 => absurd (hp.symm.trans h3) (by decide)
    exact ⟨h.some, h.gray, Plane.mapCells_wf _ h.p1, no, no, no, no, h.depthPos, h.depthMax, h.depthWidth⟩
  | three =>
    rw [Frame.mapPresent_three _ hp]
    exact ⟨h.some, h.gray, Plane.mapCells_wf _ h.p1, fun h3 => Plane.mapCells_wf _ (h.p2 h3),
      fun h3 => Plane.mapCells_wf _ (h.p3 h3), h.sameDims, h.fits, h.depthPos, h.depthMax, h.depthWidth⟩

theorem Frame.asFloat_size (f : Frame) : f.asFloat.p1.size = f.p1.size := by
  unfold Frame.asFloat
  split
  · exact Frame.mapPresent_size _ _
  · exact Frame.mapPresent_size _ _
  · rfl

/-- A YUV444 frame's chroma planes have the luma dimensions (R29). -/
theorem Frame.Loaded.full {p : Params} {f : Frame} (h : f.Loaded p) (h4 : f.fmt = .yuv444) :
    f.planes = .three ∧ f.p2.w = f.p1.w ∧ f.p2.h = f.p1.h ∧ f.p3.w = f.p1.w ∧ f.p3.h = f.p1.h := by
  have h3 : f.planes = .three := by
    cases hp : f.planes with
    | none => exact absurd hp h.some
    | one => exact absurd ((h.gray.1 hp).symm.trans h4) (by decide)
    | three => rfl
  have hf := h.fits h3
  rw [h4] at hf
  have hw := BitVec.eq_of_toNat_eq hf.1
  have hh := BitVec.eq_of_toNat_eq hf.2
  have hs := h.sameDims h3
  exact ⟨h3, hw, hh, hs.1.symm.trans hw, hs.2.symm.trans hh⟩

/-- TO_RGB's frame (R170, R175). -/
theorem Frame.converted_loaded {p : Params} {f : Frame} (cr : CastRound) (h : f.Loaded p) (h4 : f.fmt = .yuv444) :
    (f.converted cr).Loaded p := by
  have key : ∀ ch (x : Plane), x.Wf p → x.size = f.p1.size → (convertPlane cr f.sampleType f.asFloat ch x).Wf p := by
    intro ch x hx hs
    refine ⟨hx.wPos, hx.wMax, hx.hPos, hx.hMax, ?_⟩
    simp only [convertPlane, List.length_map, List.length_range]
    rw [Frame.asFloat_size, ← hs]
    rfl
  obtain ⟨h3, hw2, hh2, hw3, hh3⟩ := h.full h4
  exact ⟨h.some, h.gray, key _ _ h.p1 rfl, fun _ => key _ _ (h.p2 h3) (by rw [Plane.size, hw2, hh2]; rfl),
    fun _ => key _ _ (h.p3 h3) (by rw [Plane.size, hw3, hh3]; rfl), h.sameDims, h.fits, h.depthPos, h.depthMax, h.depthWidth⟩

/-- UPSAMPLE's frame (R150, R151). -/
theorem State.upsampledFrame_loaded {s : State} (h : s.frame.Loaded s.params) (hg : s.frame.fmt ≠ .gray) :
    s.upsampledFrame.Loaded s.params := by
  have key : ∀ x : Plane,
      (upsampleFilter s.params.upsampleFilter x s.frame.p1.w s.frame.p1.h s.frame.sampleType).Wf s.params := fun x =>
    ⟨h.p1.wPos, h.p1.wMax, h.p1.hPos, h.p1.hMax, by simp [upsampleFilter, Plane.size]⟩
  exact ⟨h.some, ⟨fun h1 => absurd (h.gray.1 h1) hg, fun h1 => absurd h1 (by simp [State.upsampledFrame])⟩, h.p1,
    fun _ => key _, fun _ => key _, fun _ => ⟨rfl, rfl⟩, fun _ => ⟨rfl, rfl⟩, h.depthPos, h.depthMax, h.depthWidth⟩

/-- LOAD's frame (R110 to R117). -/
theorem State.loadFrame_loaded {s : State} {f : ChromaFormat} (h : s.loadCheck = .ok f) : (s.loadFrame f).Loaded s.params := by
  obtain ⟨h0, h1, h2, h3, -, h5, h6⟩ := loadCheck_ok h
  have hlt : cfgPlanes s.inCfg < 4 := (s.inCfg.extractLsb' 0 2).isLt
  obtain ⟨hn2, hf⟩ := loadFormat_ok h6
  have hpl : ∀ k ∈ suppliedPlanes (cfgPlanes s.inCfg), (s.loadPlane k).Wf s.params := by
    intro k hk
    have hd := List.all_eq_true.1 h3 k hk
    simp only [State.dimsLegal, Bool.and_eq_true, decide_eq_true_eq] at hd
    obtain ⟨⟨⟨b1, b2⟩, b3⟩, b4⟩ := hd
    exact ⟨b1, b2, b3, b4, by simp [State.loadPlane, Plane.size]⟩
  rcases hf with ⟨hp, rfl⟩ | ⟨hp, hd, hc⟩
  · have m1 : PlaneId.plane1 ∈ suppliedPlanes (cfgPlanes s.inCfg) := by
      rw [hp]
      decide
    have e : s.loadFrame .gray = ⟨true, .one, s.loadPlane .plane1, .absent, .absent, s.elemType .plane1,
        cfgBitDepth s.inCfg, .gray⟩ := by simp [State.loadFrame, hp]
    rw [e]
    exact ⟨by simp, by simp, hpl _ m1, by simp, by simp, by simp, by simp, h1, h2, h5⟩
  · have hp3 : cfgPlanes s.inCfg = 3 := by omega
    have m : ∀ k, k ∈ suppliedPlanes (cfgPlanes s.inCfg) := by
      rw [hp3]
      intro k
      cases k <;> decide
    have e : s.loadFrame f = ⟨true, .three, s.loadPlane .plane1, s.loadPlane .plane2, s.loadPlane .plane3,
        s.elemType .plane1, cfgBitDepth s.inCfg, f⟩ := by simp [State.loadFrame, hp]
    rw [e]
    refine ⟨by simp, ?_, hpl _ (m _), fun _ => hpl _ (m _), fun _ => hpl _ (m _), fun _ => hd hp3, fun _ => ?_, h1, h2, h5⟩
    · rcases classify_some hc with ⟨rfl, _⟩ | ⟨rfl, _⟩ | ⟨rfl, _⟩ | ⟨rfl, _⟩ | ⟨rfl, _⟩ <;> simp
    · rcases classify_some hc with ⟨rfl, x, y⟩ | ⟨rfl, x, y⟩ | ⟨rfl, x, y⟩ | ⟨rfl, x, y⟩ | ⟨rfl, x, y⟩ <;>
        simp only [chromaFits, State.loadPlane] <;> omega

end Sys2Proof.Machine
end

