-- ==== Sys2Proof/Laws/Memory.lean ====
section
/-! SUPPORT. The laws of memory: read after write, other offsets untouched, the canonical form kept. -/

namespace Sys2Proof.Machine

@[simp] theorem Memory.read?_nil (a : Nat) : Memory.read? [] a = none := rfl

theorem Memory.read?_write_same (m : Memory) (a : Nat) (v : Byte) : (m.write a v).read? a = some v := by
  induction m with
  | nil => simp [Memory.write, Memory.read?]
  | cons c rest ih =>
    obtain ⟨b, u⟩ := c
    simp only [Memory.write]
    split
    · simp [Memory.read?]
    · split
      · simp [Memory.read?]
      · simp [Memory.read?, *]

theorem Memory.read?_write_other (m : Memory) (a a' : Nat) (v : Byte) (h : a' ≠ a) :
    (m.write a v).read? a' = m.read? a' := by
  induction m with
  | nil => simp [Memory.write, Memory.read?, h]
  | cons c rest ih =>
    obtain ⟨b, u⟩ := c
    simp only [Memory.write]
    split
    · simp [Memory.read?, h]
    · split
      · next hab => subst hab; simp [Memory.read?, h]
      · simp [Memory.read?, ih]

theorem Memory.mem_write (m : Memory) (a : Nat) (v : Byte) (c : Host.Cell) (h : c ∈ m.write a v) : c = (a, v) ∨ c ∈ m := by
  induction m with
  | nil => simpa [Memory.write] using h
  | cons d rest ih =>
    obtain ⟨b, u⟩ := d
    simp only [Memory.write] at h
    split at h
    · rcases List.mem_cons.1 h with h | h
      · exact .inl h
      · exact .inr h
    · split at h
      · rcases List.mem_cons.1 h with h | h
        · exact .inl h
        · exact .inr (List.mem_cons_of_mem _ h)
      · rcases List.mem_cons.1 h with h | h
        · exact .inr (h ▸ List.mem_cons_self)
        · exact (ih h).imp id (List.mem_cons_of_mem _)

/-- A write keeps the canonical form. -/
theorem Memory.write_wf (m : Memory) (a : Nat) (v : Byte) (h : m.wf) : (m.write a v).wf := by
  induction m with
  | nil => simp [Memory.write, Memory.wf]
  | cons c rest ih =>
    obtain ⟨b, u⟩ := c
    obtain ⟨hb, hr⟩ := List.pairwise_cons.1 h
    simp only [Memory.write]
    split
    · next hab =>
      refine List.pairwise_cons.2 ⟨?_, h⟩
      intro d hd
      rcases List.mem_cons.1 hd with rfl | hd
      · exact hab
      · exact Nat.lt_trans hab (hb d hd)
    · split
      · next hab => subst hab; exact List.pairwise_cons.2 ⟨hb, hr⟩
      · next h1 h2 =>
        refine List.pairwise_cons.2 ⟨?_, ih hr⟩
        intro d hd
        rcases Memory.mem_write rest a v d hd with rfl | hd
        · show b < a
          omega
        · exact hb d hd

theorem Memory.writeWord_wf (m : Memory) (a : Nat) (v : Word) (h : m.wf) : (m.writeWord a v).wf :=
  Memory.write_wf _ _ _ (Memory.write_wf _ _ _ (Memory.write_wf _ _ _ (Memory.write_wf _ _ _ h)))

theorem Memory.writeWords_wf (m : Memory) (a : Nat) (vs : List Word) (h : m.wf) : (m.writeWords a vs).wf := by
  induction vs generalizing m a with
  | nil => exact h
  | cons v vs ih => exact ih _ _ (Memory.writeWord_wf m a v h)

/-- A word write leaves every byte outside its four alone. -/
theorem Memory.read?_writeWord_other (m : Memory) (a b : Nat) (v : Word) (h : b < a ∨ a + 4 ≤ b) :
    (m.writeWord a v).read? b = m.read? b := by
  simp only [Memory.writeWord]
  rw [Memory.read?_write_other _ _ _ _ (by omega), Memory.read?_write_other _ _ _ _ (by omega),
    Memory.read?_write_other _ _ _ _ (by omega), Memory.read?_write_other _ _ _ _ (by omega)]

/-- A word write puts lane i at offset a + i (R67). -/
theorem Memory.read?_writeWord_lane (m : Memory) (a i : Nat) (v : Word) (h : i < 4) :
    (m.writeWord a v).read? (a + i) = some (byteLane v i) := by
  simp only [Memory.writeWord]
  obtain rfl | rfl | rfl | rfl : i = 0 ∨ i = 1 ∨ i = 2 ∨ i = 3 := by omega
  · rw [Memory.read?_write_other _ _ _ _ (by omega), Memory.read?_write_other _ _ _ _ (by omega),
      Memory.read?_write_other _ _ _ _ (by omega)]
    exact Memory.read?_write_same ..
  · rw [Memory.read?_write_other _ _ _ _ (by omega), Memory.read?_write_other _ _ _ _ (by omega)]
    exact Memory.read?_write_same ..
  · rw [Memory.read?_write_other _ _ _ _ (by omega)]
    exact Memory.read?_write_same ..
  · exact Memory.read?_write_same ..

/-- Writing words leaves every byte outside them alone. -/
theorem Memory.read?_writeWords_other (m : Memory) (a b : Nat) (vs : List Word) (h : b < a ∨ a + 4 * vs.length ≤ b) :
    (m.writeWords a vs).read? b = m.read? b := by
  induction vs generalizing m a with
  | nil => rfl
  | cons v vs ih =>
    rw [List.length_cons] at h
    rw [Memory.writeWords, ih _ _ (by omega), Memory.read?_writeWord_other _ _ _ _ (by omega)]

/-- Writing words puts lane i of the n-th word at offset a + 4n + i. -/
theorem Memory.read?_writeWords_lane (m : Memory) (a n i : Nat) (vs : List Word) (hn : n < vs.length) (hi : i < 4) :
    (m.writeWords a vs).read? (a + 4 * n + i) = some (byteLane (vs.getD n 0) i) := by
  induction vs generalizing m a n with
  | nil => exact absurd hn (Nat.not_lt_zero _)
  | cons v vs ih =>
    cases n with
    | zero =>
      rw [Memory.writeWords, Memory.read?_writeWords_other _ _ _ _ (by omega)]
      simpa using Memory.read?_writeWord_lane m a i v hi
    | succ n =>
      rw [List.length_cons] at hn
      have := ih (m.writeWord a v) (a + 4) n (by omega)
      rw [Memory.writeWords, show a + 4 * (n + 1) + i = a + 4 + 4 * n + i by omega, this]
      simp

/-- The offsets written, besides those listed before. -/
theorem Memory.mem_writeWord (m : Memory) (a : Nat) (v : Word) (c : Host.Cell) (h : c ∈ m.writeWord a v) :
    (a ≤ c.1 ∧ c.1 < a + 4) ∨ c ∈ m := by
  rcases Memory.mem_write _ _ _ _ h with rfl | h
  · exact .inl ⟨by simp, by simp⟩
  rcases Memory.mem_write _ _ _ _ h with rfl | h
  · exact .inl ⟨by simp, by simp⟩
  rcases Memory.mem_write _ _ _ _ h with rfl | h
  · exact .inl ⟨by simp, by simp⟩
  rcases Memory.mem_write _ _ _ _ h with rfl | h
  · exact .inl ⟨by simp, by simp⟩
  exact .inr h

theorem Memory.mem_writeWords (m : Memory) (a : Nat) (vs : List Word) (c : Host.Cell) (h : c ∈ m.writeWords a vs) :
    (a ≤ c.1 ∧ c.1 < a + 4 * vs.length) ∨ c ∈ m := by
  induction vs generalizing m a with
  | nil => exact .inr h
  | cons v vs ih =>
    rw [List.length_cons]
    rcases ih _ _ h with ⟨h1, h2⟩ | h
    · exact .inl ⟨by omega, by omega⟩
    rcases Memory.mem_writeWord _ _ _ _ h with ⟨h1, h2⟩ | h
    · exact .inl ⟨by omega, by omega⟩
    exact .inr h

/-- The lanes of a word make it up again (R67). -/
theorem wordOfLanes_byteLane (v : Word) :
    wordOfLanes (byteLane v 0) (byteLane v 1) (byteLane v 2) (byteLane v 3) = v := by
  apply BitVec.eq_of_getLsbD_eq
  intro i hi
  simp only [wordOfLanes, byteLane, BitVec.getLsbD_append, BitVec.getLsbD_extractLsb']
  split
  · simp_all
  · split
    · simp only [show i - 8 < 8 by omega, decide_true, Bool.true_and]
      congr 1; omega
    · split
      · simp only [show i - 8 - 8 < 8 by omega, decide_true, Bool.true_and]
        congr 1; omega
      · simp only [show i - 8 - 8 - 8 < 8 by omega, decide_true, Bool.true_and]
        congr 1; omega

theorem State.memByte_eq_of_read? (s t : State) (a : Nat) (hm : t.mem.read? a = s.mem.read? a) (hr : t.resets = s.resets) :
    t.memByte a = s.memByte a := by
  simp only [State.memByte, hm, hr]

theorem State.memWord_eq_of_memByte (s t : State) (a : Nat) (h : ∀ b, a ≤ b → b < a + 4 → t.memByte b = s.memByte b) :
    t.memWord a = s.memWord a := by
  simp only [State.memWord]
  rw [h a (by omega) (by omega), h (a + 1) (by omega) (by omega), h (a + 2) (by omega) (by omega),
    h (a + 3) (by omega) (by omega)]

/-- A word whose four lanes are written reads back (R67, R68). -/
theorem State.memWord_of_lanes (s : State) (a : Nat) (v : Word) (h : ∀ i < 4, s.mem.read? (a + i) = some (byteLane v i)) :
    s.memWord a = v := by
  have h0 := h 0 (by omega)
  have h1 := h 1 (by omega)
  have h2 := h 2 (by omega)
  have h3 := h 3 (by omega)
  simp only [Nat.add_zero] at h0
  simp only [State.memWord, State.memByte, h0, h1, h2, h3]
  exact wordOfLanes_byteLane v

end Sys2Proof.Machine
end

