-- ==== Sys2Proof/Laws/PerInstr.lean ====
section
/-! SUPPORT. What holds of every command as syntax, one lemma a command. -/

namespace Sys2Proof

/-- OPCODE's value (R93). -/
def opcodeNumber : Instr → Nat
  | .load => 1
  | .read _ _ => 2
  | .normalize => 3
  | .upsample => 4
  | .toRgb => 5
  | .exportOut => 6

/-- The encoder writes the opcode R93 gives. -/
def Laws.OpcodeOf.Statement (i : Instr) : Prop := i.wellFormed = true → (fieldOpcode (encode i)).toNat = opcodeNumber i

theorem Laws.OpcodeOf.load : Laws.OpcodeOf.Statement .load := fun _ => rfl

theorem Laws.OpcodeOf.read (arity sel : Nat) : Laws.OpcodeOf.Statement (.read arity sel) := by
  intro h
  simp only [Instr.wellFormed, Bool.and_eq_true, decide_eq_true_eq] at h
  obtain ⟨ha, hs⟩ := h
  have key : ∀ a : Fin 16, ∀ b : Fin 4, (fieldOpcode (encode (.read a.val b.val))).toNat = 2 := by decide
  exact key ⟨arity, ha⟩ ⟨sel, hs⟩

theorem Laws.OpcodeOf.normalize : Laws.OpcodeOf.Statement .normalize := fun _ => rfl

theorem Laws.OpcodeOf.upsample : Laws.OpcodeOf.Statement .upsample := fun _ => rfl

theorem Laws.OpcodeOf.toRgb : Laws.OpcodeOf.Statement .toRgb := fun _ => rfl

theorem Laws.OpcodeOf.exportOut : Laws.OpcodeOf.Statement .exportOut := fun _ => rfl

end Sys2Proof
end

