-- ==== Sys2Proof/Laws/State.lean ====
section
/-! SUPPORT. One lemma per field per named update of the state, true by unfolding it once. -/

namespace Sys2Proof.Machine

/-! ### raise -/

@[simp] theorem State.raise_params (s : State) (e : ResultCode) : (s.raise e).params = s.params := rfl
@[simp] theorem State.raise_frame (s : State) (e : ResultCode) : (s.raise e).frame = s.frame := rfl
@[simp] theorem State.raise_result (s : State) (e : ResultCode) : (s.raise e).result = e := rfl
@[simp] theorem State.raise_rdata (s : State) (e : ResultCode) : (s.raise e).rdata = s.rdata := rfl
@[simp] theorem State.raise_inCfg (s : State) (e : ResultCode) : (s.raise e).inCfg = s.inCfg := rfl
@[simp] theorem State.raise_inDim1 (s : State) (e : ResultCode) : (s.raise e).inDim1 = s.inDim1 := rfl
@[simp] theorem State.raise_inDim2 (s : State) (e : ResultCode) : (s.raise e).inDim2 = s.inDim2 := rfl
@[simp] theorem State.raise_inDim3 (s : State) (e : ResultCode) : (s.raise e).inDim3 = s.inDim3 := rfl
@[simp] theorem State.raise_idx (s : State) (e : ResultCode) : (s.raise e).idx = s.idx := rfl
@[simp] theorem State.raise_out (s : State) (e : ResultCode) : (s.raise e).out = s.out := rfl
@[simp] theorem State.raise_mem (s : State) (e : ResultCode) : (s.raise e).mem = s.mem := rfl
@[simp] theorem State.raise_pending (s : State) (e : ResultCode) : (s.raise e).pending = s.pending := rfl
@[simp] theorem State.raise_busyWindow (s : State) (e : ResultCode) : (s.raise e).busyWindow = s.busyWindow := rfl
@[simp] theorem State.raise_host (s : State) (e : ResultCode) : (s.raise e).host = s.host := rfl
@[simp] theorem State.raise_sched (s : State) (e : ResultCode) : (s.raise e).sched = s.sched := rfl
@[simp] theorem State.raise_draws (s : State) (e : ResultCode) : (s.raise e).draws = s.draws := rfl
@[simp] theorem State.raise_resets (s : State) (e : ResultCode) : (s.raise e).resets = s.resets := rfl

/-! ### finish -/

@[simp] theorem State.finish_params (s : State) : (s.finish).params = s.params := rfl
@[simp] theorem State.finish_frame (s : State) : (s.finish).frame = s.frame := rfl
@[simp] theorem State.finish_result (s : State) : (s.finish).result = .ok := rfl
@[simp] theorem State.finish_rdata (s : State) : (s.finish).rdata = s.rdata := rfl
@[simp] theorem State.finish_inCfg (s : State) : (s.finish).inCfg = s.inCfg := rfl
@[simp] theorem State.finish_inDim1 (s : State) : (s.finish).inDim1 = s.inDim1 := rfl
@[simp] theorem State.finish_inDim2 (s : State) : (s.finish).inDim2 = s.inDim2 := rfl
@[simp] theorem State.finish_inDim3 (s : State) : (s.finish).inDim3 = s.inDim3 := rfl
@[simp] theorem State.finish_idx (s : State) : (s.finish).idx = s.idx := rfl
@[simp] theorem State.finish_out (s : State) : (s.finish).out = s.out := rfl
@[simp] theorem State.finish_mem (s : State) : (s.finish).mem = s.mem := rfl
@[simp] theorem State.finish_pending (s : State) : (s.finish).pending = s.pending := rfl
@[simp] theorem State.finish_busyWindow (s : State) : (s.finish).busyWindow = s.busyWindow := rfl
@[simp] theorem State.finish_host (s : State) : (s.finish).host = s.host := rfl
@[simp] theorem State.finish_sched (s : State) : (s.finish).sched = s.sched := rfl
@[simp] theorem State.finish_draws (s : State) : (s.finish).draws = s.draws := rfl
@[simp] theorem State.finish_resets (s : State) : (s.finish).resets = s.resets := rfl

/-! ### hostNext -/

@[simp] theorem State.hostNext_params (s : State) : (s.hostNext).params = s.params := rfl
@[simp] theorem State.hostNext_frame (s : State) : (s.hostNext).frame = s.frame := rfl
@[simp] theorem State.hostNext_result (s : State) : (s.hostNext).result = s.result := rfl
@[simp] theorem State.hostNext_rdata (s : State) : (s.hostNext).rdata = s.rdata := rfl
@[simp] theorem State.hostNext_inCfg (s : State) : (s.hostNext).inCfg = s.inCfg := rfl
@[simp] theorem State.hostNext_inDim1 (s : State) : (s.hostNext).inDim1 = s.inDim1 := rfl
@[simp] theorem State.hostNext_inDim2 (s : State) : (s.hostNext).inDim2 = s.inDim2 := rfl
@[simp] theorem State.hostNext_inDim3 (s : State) : (s.hostNext).inDim3 = s.inDim3 := rfl
@[simp] theorem State.hostNext_idx (s : State) : (s.hostNext).idx = s.idx := rfl
@[simp] theorem State.hostNext_out (s : State) : (s.hostNext).out = s.out := rfl
@[simp] theorem State.hostNext_mem (s : State) : (s.hostNext).mem = s.mem := rfl
@[simp] theorem State.hostNext_pending (s : State) : (s.hostNext).pending = s.pending := rfl
@[simp] theorem State.hostNext_busyWindow (s : State) : (s.hostNext).busyWindow = s.busyWindow := rfl
@[simp] theorem State.hostNext_sched (s : State) : (s.hostNext).sched = s.sched := rfl
@[simp] theorem State.hostNext_draws (s : State) : (s.hostNext).draws = s.draws := rfl
@[simp] theorem State.hostNext_resets (s : State) : (s.hostNext).resets = s.resets := rfl

/-! ### setTemp -/

@[simp] theorem State.setTemp_params (s : State) (t : Temp) (v : Word) : (s.setTemp t v).params = s.params := rfl
@[simp] theorem State.setTemp_frame (s : State) (t : Temp) (v : Word) : (s.setTemp t v).frame = s.frame := rfl
@[simp] theorem State.setTemp_result (s : State) (t : Temp) (v : Word) : (s.setTemp t v).result = s.result := rfl
@[simp] theorem State.setTemp_rdata (s : State) (t : Temp) (v : Word) : (s.setTemp t v).rdata = s.rdata := rfl
@[simp] theorem State.setTemp_inCfg (s : State) (t : Temp) (v : Word) : (s.setTemp t v).inCfg = s.inCfg := rfl
@[simp] theorem State.setTemp_inDim1 (s : State) (t : Temp) (v : Word) : (s.setTemp t v).inDim1 = s.inDim1 := rfl
@[simp] theorem State.setTemp_inDim2 (s : State) (t : Temp) (v : Word) : (s.setTemp t v).inDim2 = s.inDim2 := rfl
@[simp] theorem State.setTemp_inDim3 (s : State) (t : Temp) (v : Word) : (s.setTemp t v).inDim3 = s.inDim3 := rfl
@[simp] theorem State.setTemp_idx (s : State) (t : Temp) (v : Word) : (s.setTemp t v).idx = s.idx := rfl
@[simp] theorem State.setTemp_out (s : State) (t : Temp) (v : Word) : (s.setTemp t v).out = s.out := rfl
@[simp] theorem State.setTemp_mem (s : State) (t : Temp) (v : Word) : (s.setTemp t v).mem = s.mem := rfl
@[simp] theorem State.setTemp_pending (s : State) (t : Temp) (v : Word) : (s.setTemp t v).pending = s.pending := rfl
@[simp] theorem State.setTemp_busyWindow (s : State) (t : Temp) (v : Word) : (s.setTemp t v).busyWindow = s.busyWindow := rfl
@[simp] theorem State.setTemp_sched (s : State) (t : Temp) (v : Word) : (s.setTemp t v).sched = s.sched := rfl
@[simp] theorem State.setTemp_draws (s : State) (t : Temp) (v : Word) : (s.setTemp t v).draws = s.draws := rfl
@[simp] theorem State.setTemp_resets (s : State) (t : Temp) (v : Word) : (s.setTemp t v).resets = s.resets := rfl

/-! ### draw -/

@[simp] theorem State.draw_params (s : State) : (s.draw.1).params = s.params := rfl
@[simp] theorem State.draw_frame (s : State) : (s.draw.1).frame = s.frame := rfl
@[simp] theorem State.draw_result (s : State) : (s.draw.1).result = s.result := rfl
@[simp] theorem State.draw_rdata (s : State) : (s.draw.1).rdata = s.rdata := rfl
@[simp] theorem State.draw_inCfg (s : State) : (s.draw.1).inCfg = s.inCfg := rfl
@[simp] theorem State.draw_inDim1 (s : State) : (s.draw.1).inDim1 = s.inDim1 := rfl
@[simp] theorem State.draw_inDim2 (s : State) : (s.draw.1).inDim2 = s.inDim2 := rfl
@[simp] theorem State.draw_inDim3 (s : State) : (s.draw.1).inDim3 = s.inDim3 := rfl
@[simp] theorem State.draw_idx (s : State) : (s.draw.1).idx = s.idx := rfl
@[simp] theorem State.draw_out (s : State) : (s.draw.1).out = s.out := rfl
@[simp] theorem State.draw_mem (s : State) : (s.draw.1).mem = s.mem := rfl
@[simp] theorem State.draw_pending (s : State) : (s.draw.1).pending = s.pending := rfl
@[simp] theorem State.draw_busyWindow (s : State) : (s.draw.1).busyWindow = s.busyWindow := rfl
@[simp] theorem State.draw_host (s : State) : (s.draw.1).host = s.host := rfl
@[simp] theorem State.draw_sched (s : State) : (s.draw.1).sched = s.sched := rfl
@[simp] theorem State.draw_draws (s : State) : (s.draw.1).draws = s.draws + 1 := rfl
@[simp] theorem State.draw_resets (s : State) : (s.draw.1).resets = s.resets := rfl

/-! ### exported -/

@[simp] theorem State.exported_params (s : State) (ch : PlaneCount) : (s.exported ch).params = s.params := rfl
@[simp] theorem State.exported_frame (s : State) (ch : PlaneCount) : (s.exported ch).frame = s.frame := rfl
@[simp] theorem State.exported_result (s : State) (ch : PlaneCount) : (s.exported ch).result = s.result := rfl
@[simp] theorem State.exported_rdata (s : State) (ch : PlaneCount) : (s.exported ch).rdata = s.rdata := rfl
@[simp] theorem State.exported_inCfg (s : State) (ch : PlaneCount) : (s.exported ch).inCfg = s.inCfg := rfl
@[simp] theorem State.exported_inDim1 (s : State) (ch : PlaneCount) : (s.exported ch).inDim1 = s.inDim1 := rfl
@[simp] theorem State.exported_inDim2 (s : State) (ch : PlaneCount) : (s.exported ch).inDim2 = s.inDim2 := rfl
@[simp] theorem State.exported_inDim3 (s : State) (ch : PlaneCount) : (s.exported ch).inDim3 = s.inDim3 := rfl
@[simp] theorem State.exported_idx (s : State) (ch : PlaneCount) : (s.exported ch).idx = s.idx := rfl
@[simp] theorem State.exported_mem (s : State) (ch : PlaneCount) : (s.exported ch).mem = s.mem.writeWords (outAddr 0) (exportCells s.frame ch) := rfl
@[simp] theorem State.exported_pending (s : State) (ch : PlaneCount) : (s.exported ch).pending = s.pending := rfl
@[simp] theorem State.exported_busyWindow (s : State) (ch : PlaneCount) : (s.exported ch).busyWindow = s.busyWindow := rfl
@[simp] theorem State.exported_host (s : State) (ch : PlaneCount) : (s.exported ch).host = s.host := rfl
@[simp] theorem State.exported_sched (s : State) (ch : PlaneCount) : (s.exported ch).sched = s.sched := rfl
@[simp] theorem State.exported_draws (s : State) (ch : PlaneCount) : (s.exported ch).draws = s.draws := rfl
@[simp] theorem State.exported_resets (s : State) (ch : PlaneCount) : (s.exported ch).resets = s.resets := rfl

@[simp] theorem State.hostNext_pc (s : State) : s.hostNext.host.pc = s.host.pc + 1 := rfl
@[simp] theorem State.hostNext_prog (s : State) : s.hostNext.host.prog = s.host.prog := rfl
@[simp] theorem State.hostNext_temps (s : State) : s.hostNext.host.temps = s.host.temps := rfl
@[simp] theorem State.setTemp_pc (s : State) (t : Temp) (v : Word) : (s.setTemp t v).host.pc = s.host.pc := rfl
@[simp] theorem State.setTemp_prog (s : State) (t : Temp) (v : Word) : (s.setTemp t v).host.prog = s.host.prog := rfl
@[simp] theorem State.draw_snd (s : State) : s.draw.2 = Config.busyRead s.draws := rfl
@[simp] theorem State.exported_valid (s : State) (ch : PlaneCount) : (s.exported ch).out.valid = true := rfl
@[simp] theorem State.exported_ch (s : State) (ch : PlaneCount) : (s.exported ch).out.ch = ch := rfl
@[simp] theorem State.exported_w (s : State) (ch : PlaneCount) : (s.exported ch).out.w = s.frame.p1.w := rfl
@[simp] theorem State.exported_h (s : State) (ch : PlaneCount) : (s.exported ch).out.h = s.frame.p1.h := rfl
@[simp] theorem State.exported_stype (s : State) (ch : PlaneCount) : (s.exported ch).out.stype = s.frame.sampleType := rfl

/-! ### The plane registers -/

@[simp] theorem Plane.mapCells_w (p : Plane) (f : Word → Word) : (p.mapCells f).w = p.w := rfl
@[simp] theorem Plane.mapCells_h (p : Plane) (f : Word → Word) : (p.mapCells f).h = p.h := rfl
@[simp] theorem Plane.mapCells_cells (p : Plane) (f : Word → Word) : (p.mapCells f).cells = p.cells.map f := rfl
@[simp] theorem Plane.mapCells_size (p : Plane) (f : Word → Word) : (p.mapCells f).size = p.size := rfl
@[simp] theorem upsampleFilter_w (c : FilterChoice) (x : Plane) (w h : Half) (t : SampleType) :
    (upsampleFilter c x w h t).w = w := rfl
@[simp] theorem upsampleFilter_h (c : FilterChoice) (x : Plane) (w h : Half) (t : SampleType) :
    (upsampleFilter c x w h t).h = h := rfl
@[simp] theorem upsampleFilter_size (c : FilterChoice) (x : Plane) (w h : Half) (t : SampleType) :
    (upsampleFilter c x w h t).size = w.toNat * h.toNat := rfl
@[simp] theorem upsampleFilter_length (c : FilterChoice) (x : Plane) (w h : Half) (t : SampleType) :
    (upsampleFilter c x w h t).cells.length = w.toNat * h.toNat := by simp [upsampleFilter]
@[simp] theorem convertPlane_w (cr : CastRound) (t : SampleType) (src : Frame) (ch : Word → Word → Word → Word) (old : Plane) :
    (convertPlane cr t src ch old).w = old.w := rfl
@[simp] theorem convertPlane_h (cr : CastRound) (t : SampleType) (src : Frame) (ch : Word → Word → Word → Word) (old : Plane) :
    (convertPlane cr t src ch old).h = old.h := rfl
@[simp] theorem convertPlane_size (cr : CastRound) (t : SampleType) (src : Frame) (ch : Word → Word → Word → Word) (old : Plane) :
    (convertPlane cr t src ch old).size = old.size := rfl
@[simp] theorem convertPlane_length (cr : CastRound) (t : SampleType) (src : Frame) (ch : Word → Word → Word → Word) (old : Plane) :
    (convertPlane cr t src ch old).cells.length = src.p1.size := by simp [convertPlane]
@[simp] theorem State.loadPlane_w (s : State) (k : PlaneId) : (s.loadPlane k).w = s.inW k := rfl
@[simp] theorem State.loadPlane_h (s : State) (k : PlaneId) : (s.loadPlane k).h = s.inH k := rfl
@[simp] theorem State.loadPlane_length (s : State) (k : PlaneId) :
    (s.loadPlane k).cells.length = (s.loadPlane k).size := by simp [State.loadPlane, Plane.size]

/-! ### The temporaries -/

theorem Temps.get_set_same (ts : Temps) (t : Temp) (v : Word) : (ts.set t v).get t = v := by cases t <;> rfl
theorem Temps.get_set_other (ts : Temps) (t u : Temp) (v : Word) (h : u ≠ t) : (ts.set t v).get u = ts.get u := by
  cases t <;> cases u <;> first | rfl | exact absurd rfl h

end Sys2Proof.Machine
end

