-- ==== Sys2Proof/Laws/Step.lean ====
section
/-! SUPPORT. What a step and a host operation can do, said once. -/

namespace Sys2Proof.Machine

/-- The answer of a command word (R91, R95). -/
theorem runWord_ok {w : Word} {i : Instr} (s : State) (h : decode w = .ok i) : runWord w s = exec i s := by
  simp only [runWord, h]

theorem runWord_error {w : Word} {e : DecodeError} (s : State) (h : decode w = .error e) :
    runWord w s = .next (s.raise .illegalCommand) := by simp only [runWord, h]

/-- A command word always completes with a next state (R200). -/
theorem runWord_isNext (w : Word) (s : State) : ∃ t, runWord w s = .next t := by
  cases h : decode w with
  | ok i => rw [runWord_ok s h]; exact exec_isNext i s
  | error e => exact ⟨_, runWord_error s h⟩

/-- A step that answers a next state is the engine's turn, the host's turn or the reset input, over the rest of the
schedule. -/
theorem step_cases {s t : State} (h : step s = .next t) :
    ∃ rest, (engineTurn { s with sched := rest } = .next t) ∨ (hostTurn { s with sched := rest } = .next t) ∨
      (t = State.assertReset { s with sched := rest }) := by
  unfold step at h
  split at h
  · next hs =>
    refine ⟨[], ?_⟩
    rw [show { s with sched := [] } = s by rw [← hs]]
    split at h
    · exact .inl h
    · exact .inr (.inl h)
  · next rest _ => exact ⟨rest, .inl h⟩
  · next rest _ => exact ⟨rest, .inr (.inl h)⟩
  · next rest _ => exact ⟨rest, .inr (.inr (Host.Outcome.next.inj h).symm)⟩

/-- The engine's turn (R16, R70). -/
theorem engineTurn_cases {s t : State} (h : engineTurn s = .next t) :
    (s.pending = none ∧ t = s) ∨ (∃ w, s.pending = some w ∧ runWord w { s with pending := none } = .next t) := by
  unfold engineTurn at h
  split at h
  · next w hw => exact .inr ⟨w, hw, h⟩
  · next hw => exact .inl ⟨hw, (Host.Outcome.next.inj h).symm⟩

/-- The host's turn (R16, R101). -/
theorem hostTurn_cases {s t : State} (h : hostTurn s = .next t) :
    t = s ∨ ∃ op, s.host.prog[s.host.pc]? = some op ∧ s.runHostOp op = .next t := by
  unfold hostTurn at h
  split at h
  · next op hop => exact .inr ⟨op, hop, h⟩
  · exact .inl (Host.Outcome.next.inj h).symm

/-- A bus read changes the free-value counter, or ends the busy window, or changes nothing (R68, R233). -/
theorem busRead_cases (s : State) (off : Word) :
    (s.busRead off).1 = { s with draws := s.draws + 1 } ∨ (s.busRead off).1 = { s with busyWindow := false } ∨
      (s.busRead off).1 = s := by
  unfold State.busRead
  split
  · unfold State.readStatus
    split
    · exact .inl rfl
    · exact .inr (.inl rfl)
  · split
    · exact .inl rfl
    · exact .inr (.inr rfl)

/-- Outside the busy window a read answers what its target holds. -/
theorem busRead_quiet (s : State) (off : Word) (h : s.busy = false) :
    (s.busRead off).2 = s.readTarget (addressMap s.params off) := by
  have hp : s.pending.isSome = false := by
    unfold State.busy at h
    exact (Bool.or_eq_false_iff.1 h).1
  unfold State.busRead
  split
  · next hm => rw [hm]; simp [State.readStatus, hp, State.readTarget, State.readReg]
  · simp [h]

theorem busWrite_next {s t : State} {off v : Word} (h : s.busWrite off v = .next t) :
    (s.busy = false ∨ (addressMap s.params off).isGuarded = false) ∧ t = s.writeTarget (addressMap s.params off) v := by
  simp only [State.busWrite] at h
  split at h
  · exact absurd h (by simp)
  · next hg =>
    refine ⟨?_, (Host.Outcome.next.inj h).symm⟩
    exact Bool.and_eq_false_iff.1 (Bool.eq_false_iff.2 hg)

/-- What a host operation can do (R101): a write, a read into a temporary, or a change of the host alone. -/
theorem runHostOp_cases {s t : State} {op : HostOp} (h : s.runHostOp op = .next t) :
    (∃ off v, s.hostNext.busWrite off v = .next t) ∨
      (∃ tmp off, t = (s.hostNext.busRead off).1.setTemp tmp (s.hostNext.busRead off).2) ∨
      (∃ host, t = { s with host := host }) := by
  cases op with
  | write bytes off v =>
    simp only [State.runHostOp] at h
    split at h
    · exact .inl ⟨off, v, h⟩
    · exact absurd h (by simp)
  | read bytes tmp off =>
    simp only [State.runHostOp] at h
    split at h
    · exact .inr (.inl ⟨tmp, off, (Host.Outcome.next.inj h).symm⟩)
    · exact absurd h (by simp)
  | andi td ts k => exact .inr (.inr ⟨_, (Host.Outcome.next.inj h).symm⟩)
  | srli td ts k => exact .inr (.inr ⟨_, (Host.Outcome.next.inj h).symm⟩)
  | bnez tmp target =>
    simp only [State.runHostOp] at h
    split at h
    · exact .inr (.inr ⟨_, (Host.Outcome.next.inj h).symm⟩)
    · exact .inr (.inr ⟨_, (Host.Outcome.next.inj h).symm⟩)

/-- The offset of a register addresses it (R32, R102). -/
theorem addressMap_reg (p : Params) (r : Reg) : addressMap p r.offset = .reg r := by cases r <;> rfl

/-- The offset of IN[k] cell n addresses that cell where the buffer has one (R62). -/
theorem addressMap_inCell (p : Params) (k : PlaneId) (n : Nat) (h : 4 * n < 2 ^ 28) :
    addressMap p (BitVec.ofNat 32 (inAddr k n)) = inTarget p k n := by
  have hk : 1 ≤ k.number ∧ k.number ≤ 3 := by cases k <;> simp [PlaneId.number]
  have ht : (BitVec.ofNat 32 (inAddr k n)).toNat = 0x10000000 * k.number + 4 * n := by
    rw [BitVec.toNat_ofNat, inAddr]
    omega
  have h1 : (0x10000000 * k.number + 4 * n) % 2 ^ 28 / 4 = n := by omega
  have h2 : (0x10000000 * k.number + 4 * n) / 2 ^ 28 = k.number := by omega
  unfold addressMap
  rw [ht]
  simp only [h1, h2]
  cases k <;> rfl

/-- The offset of OUT cell n addresses that cell where the buffer has one (R63). -/
theorem addressMap_outCell (p : Params) (n : Nat) (h : 4 * n < 2 ^ 28) :
    addressMap p (BitVec.ofNat 32 (outAddr n)) = outTarget p n := by
  have ht : (BitVec.ofNat 32 (outAddr n)).toNat = 0x40000000 + 4 * n := by
    rw [BitVec.toNat_ofNat, outAddr]
    omega
  have h1 : (0x40000000 + 4 * n) % 2 ^ 28 / 4 = n := by omega
  have h2 : (0x40000000 + 4 * n) / 2 ^ 28 = 4 := by omega
  unfold addressMap
  rw [ht]
  simp only [h1, h2]

end Sys2Proof.Machine
end

