-- ==== Sys2Proof/Tests/Slice0.lean ====
section
/-! SUPPORT. Tests of the model against the vectors of spec/95_test_vectors.md, and for every obligation that has
hypotheses a state and operands that meet them. -/

open Sys2Proof Sys2Proof.Machine

namespace Sys2Proof.Tests

/-! ## Small states -/

/-- The answer is a next state of which p holds. -/
def nextIs (a : Answer) (p : State → Bool) : Bool :=
  match a with
  | .next t => p t
  | .fault _ => false
  | .refused _ => false

theorem exists_next {a : Answer} {p : State → Bool} (h : nextIs a p = true) : ∃ t, a = .next t ∧ p t = true := by
  cases a with
  | next t => exact ⟨t, rfl, h⟩
  | fault e => exact absurd h (by simp [nextIs])
  | refused r => exact absurd h (by simp [nextIs])

def pl (w h : Nat) (cells : List Word) : Plane := ⟨BitVec.ofNat 16 w, BitVec.ofNat 16 h, cells⟩

def colour (p1 p2 p3 : Plane) (t : SampleType) (depth : Nat) (fmt : ChromaFormat) : Frame :=
  ⟨true, .three, p1, p2, p3, t, BitVec.ofNat 5 depth, fmt⟩

def grey (p1 : Plane) (t : SampleType) (depth : Nat) : Frame :=
  ⟨true, .one, p1, .absent, .absent, t, BitVec.ofNat 5 depth, .gray⟩

def withFrame (f : Frame) : State := { State.reset with frame := f }

/-- Registers staged for LOAD. -/
def staged (cfg d1 d2 d3 : Word) (m : Memory) : State :=
  { State.reset with inCfg := cfg, inDim1 := d1, inDim2 := d2, inDim3 := d3, mem := m }

/-- Frame F420 of spec 95 §2.2. -/
def frame420 : Frame := colour (pl 4 2 [1, 2, 3, 4, 5, 6, 7, 8]) (pl 2 1 [9, 10]) (pl 2 1 [11, 12]) .u8 8 .yuv420

/-- Frame G of spec 95 §2.2. -/
def frameG : Frame := grey (pl 2 2 [10, 20, 30, 40]) .u8 8

/-- The frame of T-EXP-3. -/
def frame444 : Frame := colour (pl 2 1 [1, 2]) (pl 2 1 [3, 4]) (pl 2 1 [5, 6]) .u8 8 .yuv444

/-- A one-pixel YUV444 frame. -/
def pixel (t : SampleType) (depth : Nat) (y u v : Word) : Frame :=
  colour (pl 1 1 [y]) (pl 1 1 [u]) (pl 1 1 [v]) t depth .yuv444

/-- The engine is about to run word w. -/
def about (f : Frame) (w : Nat) : State := (withFrame f).withFetchWord 32 w

/-- A host about to make one operation, on its turn. -/
def hostAbout (s : State) (op : HostOp) : State :=
  { s with host := { HostAgent.idle with prog := [op] }, sched := [.host] }

/-! ## Syntax: ill-formed commands are refused (R92) -/

theorem test_wellFormed_refuses_arity_16 : (Instr.read 16 0).wellFormed = false := by decide
theorem test_wellFormed_refuses_sel_4 : (Instr.read 0 4).wellFormed = false := by decide
theorem test_wellFormed_accepts_largest_fields : (Instr.read 15 3).wellFormed = true := by decide

/-! ## Decoding: words written out from R92, R100, R104 and T-ENC -/

theorem test_decode_load : decode 0b00000000000000000000000000000001#32 = .ok .load := by decide
theorem test_decode_read : decode 0b00000000000000000000001000110010#32 = .ok (.read 3 2) := by decide
theorem test_decode_read_all_fields : decode 0b00000000000000000000001111110010#32 = .ok (.read 15 3) := by decide
theorem test_decode_normalize : decode 0b00000000000000000000000000000011#32 = .ok .normalize := by decide
theorem test_decode_upsample : decode 0b00000000000000000000000000000100#32 = .ok .upsample := by decide
theorem test_decode_toRgb : decode 0b00000000000000000000000000000101#32 = .ok .toRgb := by decide
theorem test_decode_exportOut : decode 0b00000000000000000000000000000110#32 = .ok .exportOut := by decide
theorem test_decode_rejects_opcode_0 : decode 0x00000000#32 = .error .reservedOpcode := by decide
theorem test_decode_rejects_opcode_7 : decode 0x00000007#32 = .error .reservedOpcode := by decide
theorem test_decode_rejects_load_bit_4 : decode 0x00000011#32 = .error .reservedBit := by decide
theorem test_decode_rejects_normalize_bit_31 : decode 0x80000003#32 = .error .reservedBit := by decide
theorem test_decode_rejects_read_bit_10 : decode 0x00000422#32 = .error .reservedBit := by decide
theorem test_decodeTableWord_read : decodeTableWord 32 0x132 = some (.read 3 1) := by decide

/-! ## One step per command -/

/-- T-LOAD-22. -/
theorem test_load_cuts_to_the_declared_type :
    nextIs (step ((staged 0x00001083#32 0x00010001#32 0x00010001#32 0x00010001#32
      (Memory.writeWord (Memory.writeWord (Memory.writeWord [] 0x10000000 0x11#32) 0x20000000 0x1FF#32) 0x30000000
        0x22#32)).withFetchWord 32 1))
      (fun t => t.statusWord == 0x00001102#32 && t.frame.p2.cells == [0xFF#32]) = true := by decide

/-- T-LOAD-16. -/
theorem test_load_type_check_comes_first :
    nextIs (step ((staged 0x000020A3#32 0x00020004#32 0x00010002#32 0x00020002#32 []).withFetchWord 32 1))
      (fun t => t.statusWord == 0x00000018#32 && t.frameInfo == 0#32) = true := by decide

/-- T-READ-2. -/
theorem test_read_selects_plane_and_column :
    nextIs (step { about frame420 0x132 with idx := 0x00010000#32 })
      (fun t => t.rdata == 0x0000000A#32 && t.statusWord == 0x00000302#32) = true := by decide

/-- T-READ-4. -/
theorem test_read_does_not_scale_coordinates :
    nextIs (step { about frame420 0x132 with idx := 0x00000001#32, rdata := 0x0C#32 })
      (fun t => t.rdata == 0x0000000C#32 && t.statusWord == 0x0000039A#32) = true := by decide

/-- T-NORM-10. -/
theorem test_normalize_does_not_clip :
    nextIs (step (about (grey (pl 1 1 [2000]) .u16 10) 3))
      (fun t => t.frame.p1.cells == [0x3FFA3E90#32] && t.statusWord == 0x00002002#32) = true := by decide

/-- T-NORM-15. -/
theorem test_normalize_divides_again :
    nextIs (step (about (grey (pl 1 1 [0x3F800000]) .f32 8) 3)) (fun t => t.frame.p1.cells == [0x3B808081#32]) = true := by
  decide

/-- T-UP-11. -/
theorem test_upsample_both_axes :
    nextIs (step (about (colour (pl 4 4 (List.replicate 16 0)) (pl 2 2 [0, 100, 200, 50]) (pl 2 2 [0, 100, 200, 50])
      .u8 8 .yuv420) 4))
      (fun t => t.frame.p2.cells == [0, 6, 79, 118, 37, 52, 80, 94, 168, 137, 81, 50, 239, 184, 82, 27]) = true := by decide

/-- T-UP-16. -/
theorem test_upsample_float_is_not_clipped :
    nextIs (step (about (colour (pl 4 1 [0, 0, 0, 0]) (pl 2 1 [0, 0x3F800000]) (pl 2 1 [0, 0]) .f32 8 .yuv422) 4))
      (fun t => t.frame.p2.cells == [0xBDD36000#32, 0x3E577000#32, 0x3F4A2400#32, 0x3F8D3600#32]) = true := by decide

/-- T-RGB-6. -/
theorem test_toRgb_trunc :
    nextIs (step (about (pixel .u8 8 255 0 255) 5))
      (fun t => t.frame.p1.cells == [255#32] && t.frame.p2.cells == [207#32] && t.frame.p3.cells == [29#32]) = true := by
  decide

/-- T-RGB-1 with CAST_ROUND = RNE. -/
theorem test_toRgb_rne :
    nextIs (step { about (pixel .u8 8 128 128 128) 5 with params := { Params.default with castRound := .rne } })
      (fun t => t.frame.p1.cells == [129#32] && t.frame.p2.cells == [127#32] && t.frame.p3.cells == [129#32]) = true := by
  decide

/-- T-EXP-3. -/
theorem test_export_interleaves :
    nextIs (step (about frame444 6))
      (fun t => (List.range 7).map t.outRead == [1, 3, 5, 2, 4, 6, 0] && t.outDim == 0x00010002#32
        && t.outInfo == 0x00000103#32) = true := by decide

/-- T-EXP-6. -/
theorem test_export_after_reset :
    nextIs (step (State.reset.withFetchWord 32 6)) (fun t => t.statusWord == 0x00000048#32 && t.outRead 0 == 0#32) = true := by
  decide

/-- T-ENC-7. -/
theorem test_illegal_word_completes :
    nextIs (step (about frameG 0x16)) (fun t => t.statusWord == 0x000000AA#32 && t.outInfo == 0#32) = true := by decide

/-! ## The bus -/

/-- Spec 95 §2.7: reserved bits of IN_CFG read 0. -/
theorem test_inCfg_reads_back_masked :
    nextIs (State.reset.busWrite 0x20#32 0xFFFFFFFF#32) (fun t => (t.busRead 0x20#32).2 == 0x0003F1F3#32) = true := by decide

/-- R67: byte lanes are little-endian. -/
theorem test_lanes_are_little_endian :
    nextIs (State.reset.busWrite 0x20000004#32 0x11223344#32)
      (fun t => t.mem == [(0x20000004, 0x44#8), (0x20000005, 0x33#8), (0x20000006, 0x22#8), (0x20000007, 0x11#8)]) = true := by
  decide

/-- The codes of R25, R27 and R200. -/
theorem test_codes :
    [SampleType.u8, .u16, .f32].map SampleType.code = [0, 1, 2] ∧
      [ChromaFormat.gray, .yuv444, .yuv422, .yuv420, .yuv411, .yuv440].map ChromaFormat.code = [0, 1, 2, 3, 4, 5] ∧
      [ResultCode.ok, .invalidSampleType, .inconsistentChromaSize, .unknownSubsampling, .uninitializedFrame,
        .invalidIndexArity, .notApplicable, .alreadyFull, .requiresFull444, .indexOutOfRange, .illegalCommand].map
        ResultCode.code = [0, 1, 2, 3, 4, 5, 6, 7, 8, 9, 10] := by decide

/-! ## Invariants of the demonstration states -/

theorem frame420_wf : frame420.Wf Params.default where
  absent := by decide
  loaded _ := {
    some := by decide
    gray := by decide
    p1 := ⟨by decide, by decide, by decide, by decide, by decide⟩
    p2 := fun _ => ⟨by decide, by decide, by decide, by decide, by decide⟩
    p3 := fun _ => ⟨by decide, by decide, by decide, by decide, by decide⟩
    sameDims := by decide
    fits := fun _ => show _ ∧ _ by decide
    depthPos := by decide
    depthMax := by decide
    depthWidth := by decide }

theorem frame444_wf : frame444.Wf Params.default where
  absent := by decide
  loaded _ := {
    some := by decide
    gray := by decide
    p1 := ⟨by decide, by decide, by decide, by decide, by decide⟩
    p2 := fun _ => ⟨by decide, by decide, by decide, by decide, by decide⟩
    p3 := fun _ => ⟨by decide, by decide, by decide, by decide, by decide⟩
    sameDims := by decide
    fits := fun _ => show _ ∧ _ by decide
    depthPos := by decide
    depthMax := by decide
    depthWidth := by decide }

theorem frameG_wf : frameG.Wf Params.default where
  absent := by decide
  loaded _ := {
    some := by decide
    gray := by decide
    p1 := ⟨by decide, by decide, by decide, by decide, by decide⟩
    p2 := fun h => absurd h (by decide)
    p3 := fun h => absurd h (by decide)
    sameDims := by decide
    fits := fun h => absurd h (by decide)
    depthPos := by decide
    depthMax := by decide
    depthWidth := by decide }

theorem reset_legal : State.reset.params.legal = true := by decide
theorem reset_cfg : State.reset.inCfg &&& inCfgMask = State.reset.inCfg := by decide
theorem reset_channels : State.reset.out.valid = true ↔ State.reset.out.ch ≠ .none := by decide
theorem reset_extent : State.reset.out.w.toNat * State.reset.out.h.toNat * State.reset.out.ch.toNat
    ≤ 3 * bufferCells State.reset.params := by decide

theorem inv_about {f : Frame} (w : Nat) (h : f.Wf Params.default) : (about f w).Inv where
  legal := reset_legal
  frame := h
  ordered := List.Pairwise.nil
  buffers := fun _ hc => nomatch hc
  cfg := reset_cfg
  pendingBusy := fun _ => rfl
  outChannels := reset_channels
  outExtent := reset_extent

theorem inv_withFrame {f : Frame} (h : f.Wf Params.default) : (withFrame f).Inv where
  legal := reset_legal
  frame := h
  ordered := List.Pairwise.nil
  buffers := fun _ hc => nomatch hc
  cfg := reset_cfg
  pendingBusy := fun hp => absurd (show State.reset.pending.isSome = true from hp) (by decide)
  outChannels := reset_channels
  outExtent := reset_extent

theorem frame420_formed : frame420.CellsFormed Params.default where
  p1 := by simp [frame420, colour, pl, cellForm]
  p2 := by simp [frame420, colour, pl, cellForm]
  p3 := by simp [frame420, colour, pl, cellForm]

theorem frame444_formed : frame444.CellsFormed Params.default where
  p1 := by simp [frame444, colour, pl, cellForm]
  p2 := by simp [frame444, colour, pl, cellForm]
  p3 := by simp [frame444, colour, pl, cellForm]

/-- A binary32 YUV444 frame: the values of T-RGB-22. -/
def frame32 : Frame := pixel .f32 8 0x3F800000 0x3F800000 0x3F800000

theorem frame32_wf : frame32.Wf Params.default where
  absent := by decide
  loaded _ := {
    some := by decide
    gray := by decide
    p1 := ⟨by decide, by decide, by decide, by decide, by decide⟩
    p2 := fun _ => ⟨by decide, by decide, by decide, by decide, by decide⟩
    p3 := fun _ => ⟨by decide, by decide, by decide, by decide, by decide⟩
    sameDims := by decide
    fits := fun _ => show _ ∧ _ by decide
    depthPos := by decide
    depthMax := by decide
    depthWidth := by decide }

theorem one_formed : cellForm .f32 (floatBound .lanczos3Q14 .yuv444) 0x3F800000#32 := show _ ∧ _ by decide

theorem frame32_formed : frame32.CellsFormed Params.default where
  p1 := fun _ _ hw => List.mem_singleton.1 hw ▸ one_formed
  p2 := fun _ _ _ hw => List.mem_singleton.1 hw ▸ one_formed
  p3 := fun _ _ _ hw => List.mem_singleton.1 hw ▸ one_formed

/-! ## Witnesses: a state and operands that meet a statement's hypotheses, clause by clause -/

theorem witness_DecodeOfEncode : (Instr.read 15 3).wellFormed = true := by decide

theorem witness_EncodeOfDecoded : decode 0x000003F2#32 = .ok (.read 15 3) := by decide

theorem witness_StepRunsDecodedCommand_turn :
    (about frameG 0x22).pending = some 0x22#32 ∧ decode 0x22#32 = .ok (.read 2 0) ∧ (about frameG 0x22).sched = [.engine] := by
  decide

theorem witness_StepRunsDecodedCommand_exhausted :
    let s := { about frameG 0x22 with sched := [] }
    s.pending = some 0x22#32 ∧ decode 0x22#32 = .ok (.read 2 0) ∧ s.sched = [] := by decide

theorem witness_IllegalWordChangesOnlyResult :
    (∀ w ∈ [0x00000000#32, 0x00000007#32, 0x0000000F#32, 0x00000402#32, 0x00000011#32, 0x80000003#32], illegalWord w) ∧
      (about frameG 0x402).pending = some 0x402#32 := by
  refine ⟨?_, rfl⟩
  simp [illegalWord]

theorem witness_StepKeepsInvariant :
    (∃ t, (about frame420 4).Inv ∧ step (about frame420 4) = .next t ∧ (t.frame.fmt == .yuv444) = true) ∧
      (∃ t, (about frame444 6).Inv ∧ step (about frame444 6) = .next t ∧ (t.mem != []) = true) := by
  obtain ⟨t, h1, h2⟩ := exists_next (a := step (about frame420 4)) (p := fun t => t.frame.fmt == .yuv444) (by decide)
  obtain ⟨u, h3, h4⟩ := exists_next (a := step (about frame444 6)) (p := fun t => t.mem != []) (by decide)
  exact ⟨⟨t, inv_about _ frame420_wf, h1, h2⟩, ⟨u, inv_about _ frame444_wf, h3, h4⟩⟩

theorem witness_StepKeepsCellForms :
    ∃ t, (about frame420 4).Inv ∧ (about frame420 4).frame.CellsFormed (about frame420 4).params ∧
      step (about frame420 4) = .next t := by
  obtain ⟨t, h1, -⟩ := exists_next (a := step (about frame420 4)) (p := fun _ => true) (by decide)
  exact ⟨t, inv_about _ frame420_wf, frame420_formed, h1⟩

/-- A binary32 frame whose chroma the uninterpreted filter is about to upsample. -/
def frame32Half : Frame := colour (pl 2 1 [0x3F800000, 0x3F800000]) (pl 1 1 [0x3F800000]) (pl 1 1 [0x3F800000]) .f32 8 .yuv422

def aboutOther : State := { about frame32Half 4 with params := { Params.default with upsampleFilter := .other } }

theorem frame32Half_wf : frame32Half.Wf aboutOther.params where
  absent := by decide
  loaded _ := {
    some := by decide
    gray := by decide
    p1 := ⟨by decide, by decide, by decide, by decide, by decide⟩
    p2 := fun _ => ⟨by decide, by decide, by decide, by decide, by decide⟩
    p3 := fun _ => ⟨by decide, by decide, by decide, by decide, by decide⟩
    sameDims := by decide
    fits := fun _ => show _ ∧ _ by decide
    depthPos := by decide
    depthMax := by decide
    depthWidth := by decide }

theorem one_formed_half : ∀ w ∈ [0x3F800000#32, 0x3F800000#32], cellForm .f32 (floatBound .other .yuv422) w := by
  intro w hw
  have : w = 0x3F800000#32 := by simpa using hw
  subst this
  exact show _ ∧ _ by decide

theorem frame32Half_formed : frame32Half.CellsFormed aboutOther.params where
  p1 := fun _ => one_formed_half
  p2 := fun _ _ w hw => one_formed_half w (List.mem_cons_of_mem _ hw)
  p3 := fun _ _ w hw => one_formed_half w (List.mem_cons_of_mem _ hw)

theorem witness_StepKeepsCellForms_other :
    ∃ t, aboutOther.Inv ∧ aboutOther.frame.CellsFormed aboutOther.params ∧ aboutOther.params.upsampleFilter = .other ∧
      step aboutOther = .next t := by
  obtain ⟨t, h1, -⟩ := exists_next (a := step aboutOther) (p := fun t => t.frame.fmt == .yuv444) (by decide)
  exact ⟨t, ⟨by decide, frame32Half_wf, List.Pairwise.nil, (fun _ hc => nomatch hc), by decide, fun _ => rfl, by decide,
    by decide⟩, frame32Half_formed, rfl, h1⟩

theorem witness_ResetInputClearsTheBlock :
    ({ about frame444 6 with sched := [.resetAsserted, .host] } : State).sched = [.resetAsserted, .host] := rfl

theorem witness_LoadBuildsFrame_gray : loadAccepts (staged 0x00000081#32 0x00020002#32 0 0 []) .gray := by
  refine ⟨by decide, by decide, by decide, ?_, ?_, by decide, by decide, fun h => absurd h (by decide)⟩
  · intro k hk
    cases k
    · decide
    · exact absurd hk (by decide)
    · exact absurd hk (by decide)
  · intro k hk
    cases k
    · decide
    · exact absurd hk (by decide)
    · exact absurd hk (by decide)

/-- Depth 16 and 4096 × 4096 luma, the upper ends of their ranges. -/
theorem witness_LoadBuildsFrame_yuv420 :
    loadAccepts (staged 0x00015103#32 0x10001000#32 0x08000800#32 0x08000800#32 []) .yuv420 := by
  refine ⟨by decide, by decide, by decide, ?_, ?_, by decide, fun h => absurd h (by decide), fun _ =>
    ⟨by decide, by decide, by decide, show _ ∧ _ by decide⟩⟩
  · intro k _
    cases k <;> decide
  · intro k _
    cases k <;> decide

theorem witness_LoadErrorsInOrder_registers :
    cfgPlanes (staged 0x00000080#32 0 0 0 []).inCfg = 0 ∧ (cfgBitDepth 0x00000003#32).toNat < 1 ∧
      16 < (cfgBitDepth 0x00000113#32).toNat ∧
      ¬suppliedDimsLegal (staged 0x00000081#32 0x00000002#32 0 0 []) 1 ∧
      ¬suppliedDimsLegal (staged 0x00000081#32 0x00011001#32 0 0 []) 1 :=
  ⟨by decide, by decide, by decide, fun h => absurd (h .plane1 (by decide)) (by decide),
    fun h => absurd (h .plane1 (by decide)) (by decide)⟩

theorem dims_1x1 (cfg : Word) (p : Nat) : suppliedDimsLegal (staged cfg 0x00010001#32 0x00010001#32 0x00010001#32 []) p := by
  have h : 1 ≤ (lowHalf 0x00010001#32).toNat ∧ (lowHalf 0x00010001#32).toNat ≤ Params.default.maxW ∧
      1 ≤ (highHalf 0x00010001#32).toNat ∧ (highHalf 0x00010001#32).toNat ≤ Params.default.maxH := by decide
  intro k _
  cases k <;> exact h

/-- T-LOAD-15. -/
theorem witness_LoadErrorsInOrder_type :
    let s := staged 0x00008083#32 0x00010001#32 0x00010001#32 0x00010001#32 []
    cfgPlanes s.inCfg ≠ 0 ∧ (cfgBitDepth s.inCfg).toNat = 8 ∧ suppliedDimsLegal s (cfgPlanes s.inCfg) ∧
      ¬suppliedTypesLegal s (cfgPlanes s.inCfg) :=
  ⟨by decide, by decide, dims_1x1 _ _, fun h => absurd (h .plane2 (by decide)) (by decide)⟩

theorem types_u8 {s : State} {p : Nat} (h1 : cfgType s.inCfg .plane1 = 0) (h2 : cfgType s.inCfg .plane2 = 0)
    (h3 : cfgType s.inCfg .plane3 = 0) : suppliedTypesLegal s p := by
  intro k _
  cases k <;> omega

/-- T-LOAD-17 with depth 9, the first past u8. -/
theorem witness_LoadErrorsInOrder_width :
    let s := staged 0x00000093#32 0x00010001#32 0x00010001#32 0x00010001#32 []
    cfgPlanes s.inCfg ≠ 0 ∧ suppliedDimsLegal s (cfgPlanes s.inCfg) ∧ suppliedTypesLegal s (cfgPlanes s.inCfg) ∧
      (cfgBitDepth s.inCfg).toNat = 9 ∧ 8 * (1 + cfgType s.inCfg .plane1) < (cfgBitDepth s.inCfg).toNat :=
  ⟨by decide, dims_1x1 _ _, types_u8 (by decide) (by decide) (by decide), by decide, by decide⟩

/-- T-LOAD-11, T-LOAD-12. -/
theorem witness_LoadErrorsInOrder_chroma :
    (let s := staged 0x00000082#32 0x00010001#32 0x00010001#32 0x00010001#32 [];
      cfgPlanes s.inCfg = 2 ∧ suppliedDimsLegal s 2 ∧ suppliedTypesLegal s 2 ∧ (cfgBitDepth s.inCfg).toNat = 8) ∧
    (let s := staged 0x00000083#32 0x00020004#32 0x00010002#32 0x00020002#32 [];
      cfgPlanes s.inCfg = 3 ∧ suppliedDimsLegal s 3 ∧ suppliedTypesLegal s 3 ∧ (cfgBitDepth s.inCfg).toNat = 8 ∧
        ¬(s.inW .plane2 = s.inW .plane3 ∧ s.inH .plane2 = s.inH .plane3)) := by
  refine ⟨⟨by decide, dims_1x1 _ _, types_u8 (by decide) (by decide) (by decide), by decide⟩, by decide, ?_,
    types_u8 (by decide) (by decide) (by decide), by decide, by decide⟩
  intro k _
  cases k <;> exact ⟨by decide, by decide, by decide, by decide⟩

/-- T-LOAD-13. -/
theorem witness_LoadErrorsInOrder_ratio :
    let s := staged 0x00000083#32 0x00010006#32 0x00010002#32 0x00010002#32 []
    cfgPlanes s.inCfg = 3 ∧ suppliedDimsLegal s 3 ∧ suppliedTypesLegal s 3 ∧ (cfgBitDepth s.inCfg).toNat = 8 ∧
      s.inW .plane2 = s.inW .plane3 ∧ s.inH .plane2 = s.inH .plane3 ∧
      ∀ f, f ≠ .gray → ¬chromaFits f (s.inW .plane1).toNat (s.inH .plane1).toNat (s.inW .plane2).toNat (s.inH .plane2).toNat := by
  refine ⟨by decide, ?_, types_u8 (by decide) (by decide) (by decide), by decide, by decide, by decide, ?_⟩
  · intro k _
    cases k <;> exact ⟨by decide, by decide, by decide, by decide⟩
  · intro f hf
    cases f
    · exact absurd rfl hf
    all_goals exact show ¬(_ ∧ _) by decide

theorem witness_ClassifyByExactRatio : 1 ≤ 2 ∧ 1 ≤ 1 ∧ classify 2 1 1 1 = some .yuv422 := by decide

theorem witness_ReadReturnsCell_gray :
    let s := { withFrame frameG with idx := 0x00010001#32 }
    s.frame.init = true ∧ s.frame.fmt = .gray ∧ idxRow s < s.frame.p1.h.toNat ∧ idxCol s < s.frame.p1.w.toNat := by decide

theorem witness_ReadReturnsCell_planes :
    let s := { withFrame frame420 with idx := 0x00010000#32 }
    s.frame.init = true ∧ s.frame.fmt ≠ .gray ∧ PlaneId.plane3.number = 2 + 1 ∧
      idxRow s < (s.frame.plane .plane3).h.toNat ∧ idxCol s < (s.frame.plane .plane3).w.toNat := by decide

theorem witness_ReadErrorsInOrder :
    State.reset.frame.init = false ∧ (frameG.init = true ∧ frameG.fmt = .gray ∧ 0 ≠ 2) ∧
      (frame420.init = true ∧ frame420.fmt ≠ .gray ∧ 2 ≠ 3) ∧
      (let s := { withFrame frameG with idx := 0x00000002#32 };
        (s.frame.plane .plane1).h.toNat ≤ idxRow s) ∧
      (let s := { withFrame frame420 with idx := 0x00020000#32 };
        PlaneId.plane3.number = 2 + 1 ∧ (s.frame.plane .plane3).w.toNat ≤ idxCol s) := by decide

theorem witness_NormalizeDividesPresentCells :
    State.reset.frame.init = false ∧ frameG.init = true ∧ PlaneId.plane1.number ≤ frameG.planes.toNat ∧
      frameG.planes.toNat < PlaneId.plane2.number := by decide

theorem witness_NormalizeEndpoints : 1 ≤ (1#5).toNat ∧ (1#5).toNat ≤ 16 ∧ 1 ≤ (16#5).toNat ∧ (16#5).toNat ≤ 16 := by decide

theorem witness_NormalizedSampleInUnitIffInRange :
    (255#32).toNat < 256 ∧ (65535#32).toNat < 65536 ∧ 1 ≤ (1#5).toNat ∧ (16#5).toNat ≤ 16 := by decide

theorem witness_UpsampleAppliesLanczos_u8 :
    let s := withFrame frame420
    s.params.upsampleFilter = .lanczos3Q14 ∧ s.frame.init = true ∧ s.frame.fmt ≠ .gray ∧
      ¬(s.frame.p2.w = s.frame.p1.w ∧ s.frame.p2.h = s.frame.p1.h) ∧ s.frame.p3.w = s.frame.p2.w ∧
      s.frame.p3.h = s.frame.p2.h ∧ 2 * s.frame.p2.w.toNat = s.frame.p1.w.toNat ∧
      2 * s.frame.p2.h.toNat = s.frame.p1.h.toNat ∧ s.frame.sampleType ≠ .f32 := by decide

theorem witness_UpsampleAppliesLanczos_f32 :
    let s := withFrame (colour (pl 4 1 [0, 0, 0, 0]) (pl 1 1 [0x3F800000]) (pl 1 1 [0]) .f32 8 .yuv411)
    s.params.upsampleFilter = .lanczos3Q14 ∧ s.frame.init = true ∧ s.frame.fmt ≠ .gray ∧
      ¬(s.frame.p2.w = s.frame.p1.w ∧ s.frame.p2.h = s.frame.p1.h) ∧ s.frame.p3.w = s.frame.p2.w ∧
      s.frame.p3.h = s.frame.p2.h ∧ 4 * s.frame.p2.w.toNat = s.frame.p1.w.toNat ∧
      1 * s.frame.p2.h.toNat = s.frame.p1.h.toNat ∧
      (s.frame.p2.cells ++ s.frame.p3.cells).all F32.finite = true := by decide

/-- With the uninterpreted filter. -/
theorem witness_UpsampleCompletesForEveryFilter :
    let s := { withFrame frame420 with params := { Params.default with upsampleFilter := .other } }
    s.frame.init = true ∧ s.frame.fmt ≠ .gray ∧ ¬(s.frame.p2.w = s.frame.p1.w ∧ s.frame.p2.h = s.frame.p1.h) ∧
      s.frame.sampleType ≠ .f32 ∧ aboutOther.frame.sampleType = .f32 ∧ aboutOther.params.upsampleFilter = .other := by decide

/-- T-UP-1. -/
theorem witness_FilterMeetsItsContract :
    SampleType.u8 ≠ .f32 ∧ 247#32 ∈ (upsampleFilter .lanczos3Q14 (pl 4 1 [0, 0, 255, 255]) 8 1 .u8).cells := by decide

/-- T-UP-8. -/
theorem witness_LanczosKeepsConstantPlane :
    let x := pl 2 1 [77, 77]
    (77#32).toNat < 2 ^ SampleType.u8.width ∧ 1 ≤ x.w.toNat ∧ 1 ≤ x.h.toNat ∧
      ∀ i j, i < x.h.toNat → j < x.w.toNat → x.cell i j = 77#32 := by
  refine ⟨by decide, by decide, by decide, ?_⟩
  intro i j hi hj
  have h : ∀ i : Fin 1, ∀ j : Fin 2, (pl 2 1 [77, 77]).cell i j = 77#32 := by decide
  exact h ⟨i, hi⟩ ⟨j, hj⟩

/-- T-UP-3 mirrored, at the last column. -/
theorem witness_LanczosMirrors :
    let x := pl 2 1 [0, 255]
    let y := pl 2 1 [255, 0]
    y.w = x.w ∧ y.h = x.h ∧ 1 ≤ x.h.toNat ∧ 7 < 4 * x.w.toNat ∧
      ∀ i j, i < x.h.toNat → j < x.w.toNat → y.cell i j = x.cell i (x.w.toNat - 1 - j) := by
  refine ⟨rfl, rfl, by decide, by decide, ?_⟩
  intro i j hi hj
  have h : ∀ i : Fin 1, ∀ j : Fin 2, (pl 2 1 [255, 0]).cell i j = (pl 2 1 [0, 255]).cell i (2 - 1 - j) := by decide
  exact h ⟨i, hi⟩ ⟨j, hj⟩

/-- The largest finite value, and a value halfway between two others: both meet the hypotheses. -/
theorem witness_BinaryOperationsRoundToNearest :
    specFinite 0x7F7FFFFF#32 ∧ specFinite 0x80000001#32 ∧ specScaled 0x80000001#32 ≠ 0 ∧
      specScaled 0x80000000#32 + specScaled 0x80000000#32 = 0 ∧ 1 ≤ 2 ^ 28 ∧ 16777215 < 2 ^ 24 := by
  simp only [specFinite]
  decide

/-- 5/2 is tied between 2 and 3. -/
theorem witness_RoundHalfEvenIsNearest :
    2 * ((2 : Int) * (2 : Nat) - 5).natAbs = 2 ∧ (2 : Int) % 2 = 0 ∧ 2 * ((3 : Int) * (2 : Nat) - 7).natAbs = 2 ∧
      2 * ((2 : Int) * (3 : Nat) - 5).natAbs < 3 := by decide

/-- 2.5 truncates to 2 and is tied; -2.5 truncates to -2. -/
theorem witness_CastRoundsByParameter :
    specFinite 0x40200000#32 ∧ 0 ≤ specScaled 0x40200000#32 ∧ 2 * 2 ^ 149 ≤ specScaled 0x40200000#32 ∧
      specScaled 0x40200000#32 < (2 + 1) * 2 ^ 149 ∧ (2 * (2 * 2 ^ 149 - specScaled 0x40200000#32).natAbs = 2 ^ 149) ∧
      specScaled 0xC0200000#32 ≤ -2 * 2 ^ 149 ∧ (-2 - 1) * 2 ^ 149 < specScaled 0xC0200000#32 := by
  simp only [specFinite]
  decide

theorem witness_ClipSaturates :
    specFinite 0x80000000#32 ∧ specScaled 0x80000000#32 ≤ 0 ∧ 2 ^ 149 ≤ specScaled 0x3F800000#32 ∧
      0 < specScaled 0x3F7FFFFF#32 ∧ specScaled 0x3F7FFFFF#32 < 2 ^ 149 := by
  simp only [specFinite]
  decide

theorem witness_ToRgbConvertsEveryPixel :
    let f := frame444
    f.init = true ∧ f.fmt = .yuv444 ∧ f.planes = .three ∧ f.p2.w = f.p1.w ∧ f.p2.h = f.p1.h ∧ f.p3.w = f.p1.w ∧
      f.p3.h = f.p1.h ∧ ∀ k, (f.plane k).cells.length = (f.plane k).size := by
  refine ⟨rfl, rfl, rfl, rfl, rfl, rfl, rfl, ?_⟩
  intro k
  cases k <;> decide

theorem witness_ToRgbOutputsInRange :
    (∃ t, (withFrame frame444).Inv ∧ (withFrame frame444).frame.CellsFormed (withFrame frame444).params ∧ exec .toRgb (withFrame frame444) = .next t ∧
      t.result = .ok ∧ t.frame.sampleType ≠ .f32) ∧
    (∃ t, (withFrame frame32).Inv ∧ (withFrame frame32).frame.CellsFormed (withFrame frame32).params ∧ exec .toRgb (withFrame frame32) = .next t ∧
      t.result = .ok ∧ t.frame.sampleType = .f32) := by
  obtain ⟨t, h1, h2⟩ := exists_next (a := exec .toRgb (withFrame frame444))
    (p := fun t => decide (t.result = .ok ∧ t.frame.sampleType ≠ .f32)) (by decide)
  obtain ⟨u, h3, h4⟩ := exists_next (a := exec .toRgb (withFrame frame32))
    (p := fun t => decide (t.result = .ok ∧ t.frame.sampleType = .f32)) (by decide)
  exact ⟨⟨t, inv_withFrame frame444_wf, frame444_formed, h1, of_decide_eq_true h2⟩,
    ⟨u, inv_withFrame frame32_wf, frame32_formed, h3, of_decide_eq_true h4⟩⟩

theorem witness_ZeroChromaGivesGray : F32.finite 0x3FC00000#32 = true := by decide

theorem witness_ExportLaysOutPixels :
    (frame444.init = true ∧ frame444.fmt = .yuv444 ∧ frame444.p2.w = frame444.p1.w ∧ frame444.p3.w = frame444.p1.w ∧
      0 < frame444.p1.h.toNat ∧ 1 < frame444.p1.w.toNat) ∧
    (frameG.init = true ∧ frameG.fmt = .gray ∧ 1 < frameG.p1.h.toNat ∧ 1 < frameG.p1.w.toNat) := by decide

theorem witness_SequencingErrorsInOrder :
    State.reset.frame.init = false ∧ (frameG.init = true ∧ frameG.fmt = .gray) ∧
      (frame444.init = true ∧ frame444.fmt ≠ .gray ∧ frame444.p2.w = frame444.p1.w ∧ frame444.p2.h = frame444.p1.h) ∧
      (frame420.init = true ∧ frame420.fmt ≠ .gray ∧ frame420.fmt ≠ .yuv444) := by decide

theorem witness_RaisedErrorChangesOnlyResult :
    ∃ t, exec .upsample (withFrame frame444) = .next t ∧ t.result ≠ .ok := by
  obtain ⟨t, h1, h2⟩ := exists_next (a := exec .upsample (withFrame frame444)) (p := fun t => decide (t.result ≠ .ok))
    (by decide)
  exact ⟨t, h1, of_decide_eq_true h2⟩

theorem witness_ResultCodesOfCommands : ∃ t, exec (.read 3 2) (withFrame frame444) = .next t := exec_isNext _ _

theorem witness_CommandsWriteOnlyTheirState :
    (∃ t, exec .exportOut (withFrame frame444) = .next t) ∧ (withFrame frame444).exportChannels = .ok .three ∧
      (withFrame frame420).exportChannels = .error .requiresFull444 ∧
      outAddr 0 + 4 * (exportCells frame444 .three).length ≤ 0x40000018 := ⟨exec_isNext _ _, rfl, rfl, by decide⟩

theorem witness_FormatChangesOnlyByLoadAndUpsample :
    ∃ t, exec .upsample (withFrame frame420) = .next t ∧ t.frame.fmt ≠ (withFrame frame420).frame.fmt := by
  obtain ⟨t, h1, h2⟩ := exists_next (a := exec .upsample (withFrame frame420)) (p := fun t => decide (t.frame.fmt ≠ .yuv420))
    (by decide)
  exact ⟨t, h1, of_decide_eq_true h2⟩

theorem witness_SampleTypeTransitions :
    (∃ t, exec .load (staged 0x00000081#32 0x00010001#32 0 0 []) = .next t ∧ t.result = .ok) ∧
      (∃ t, exec .normalize (withFrame frameG) = .next t ∧ t.result = .ok) ∧
      (∃ t, exec .toRgb (withFrame frame444) = .next t ∧ t.result = .ok) := by
  obtain ⟨t, h1, h2⟩ := exists_next (a := exec .load (staged 0x00000081#32 0x00010001#32 0 0 []))
    (p := fun t => decide (t.result = .ok)) (by decide)
  obtain ⟨u, h3, h4⟩ := exists_next (a := exec .normalize (withFrame frameG)) (p := fun t => decide (t.result = .ok)) (by decide)
  obtain ⟨v, h5, h6⟩ := exists_next (a := exec .toRgb (withFrame frame444)) (p := fun t => decide (t.result = .ok)) (by decide)
  exact ⟨⟨t, h1, of_decide_eq_true h2⟩, ⟨u, h3, of_decide_eq_true h4⟩, ⟨v, h5, of_decide_eq_true h6⟩⟩

theorem witness_InitAndDepthChangeOnlyByLoad :
    let s := (staged 0x00000081#32 0x00010001#32 0 0 []).withFetchWord 32 1
    noResetNext s ∧ ∃ t, step s = .next t ∧ t.frame.init ≠ s.frame.init := by
  refine ⟨by simp [noResetNext, State.withFetchWord], ?_⟩
  obtain ⟨t, h1, h2⟩ := exists_next (a := step ((staged 0x00000081#32 0x00010001#32 0 0 []).withFetchWord 32 1))
    (p := fun t => decide (t.frame.init ≠ false)) (by decide)
  exact ⟨t, h1, of_decide_eq_true h2⟩

theorem witness_CallOrderMeetsNoError :
    ((withFrame frameG).Inv ∧ frameG.init = true ∧ frameG.fmt = .gray) ∧
      ((withFrame frame420).Inv ∧ frame420.init = true ∧ frame420.fmt ≠ .gray) ∧
      ((withFrame frame444).Inv ∧ frame444.init = true ∧ frame444.fmt = .yuv444) :=
  ⟨⟨inv_withFrame frameG_wf, rfl, rfl⟩, ⟨inv_withFrame frame420_wf, rfl, by decide⟩, ⟨inv_withFrame frame444_wf, rfl, rfl⟩⟩

theorem witness_StatusRegisterFields : (withFrame frame420).pending = none ∧ (about frame420 4).pending ≠ none := by decide

theorem witness_quiet : (withFrame frame420).busy = false ∧ (about frame420 4).busy = true := by decide

theorem witness_StagedCellReadsBack :
    State.reset.params.legal = true ∧ State.reset.busy = false ∧
      (4 * 16777215 < 2 ^ 28 ∧ 16777215 < State.reset.params.maxW * State.reset.params.maxH) ∧
      (4 * 16777216 < 2 ^ 28 ∧ State.reset.params.maxW * State.reset.params.maxH ≤ 16777216) := by decide

/-- The state an EXPORT of frame444 leaves has six OUT cells. -/
theorem witness_OutReadsAreGated :
    (State.reset.params.legal = true ∧ State.reset.busy = false ∧ State.reset.out.valid = false ∧ 4 * 0 < 2 ^ 28) ∧
      (let s := { withFrame frame444 with out := ⟨2, 1, .three, .u8, true⟩ };
        s.busy = false ∧ s.out.valid = true ∧ 5 < s.out.w.toNat * s.out.h.toNat * s.out.ch.toNat ∧
          s.out.w.toNat * s.out.h.toNat * s.out.ch.toNat ≤ 6 ∧ 4 * 50331648 < 2 ^ 28 ∧
          3 * (s.params.maxW * s.params.maxH) ≤ 50331648) := by decide

theorem witness_ReservedAndReadOnlyAccesses :
    (0x3C ≤ (0x3C#32).toNat ∧ (0x3C#32).toNat < 0x10000000) ∧
      (0x3C ≤ (0x0FFFFFFC#32).toNat ∧ (0x0FFFFFFC#32).toNat < 0x10000000) ∧ 0x50000000 ≤ (0x50000000#32).toNat ∧
      0x50000000 ≤ (0xFFFFFFFC#32).toNat ∧ readOnlyReg .status = true := by decide

theorem witness_MisformedAccessIsRefused :
    (let s := hostAbout State.reset (.write 2 0 1);
      s.sched = [.host] ∧ 2 ≠ 4 ∧ s.host.prog[s.host.pc]? = some (.write 2 0 1)) ∧
    (let s := { hostAbout State.reset (.read 4 .t0 0x00000002#32) with sched := [] };
      s.sched = [] ∧ s.pending = none ∧ (0x00000002#32).toNat % 4 ≠ 0 ∧
        s.host.prog[s.host.pc]? = some (.read 4 .t0 0x00000002#32)) := by decide

theorem witness_BusyWindowProtocol :
    State.reset.busy = false ∧ (about frame420 4).busy = true ∧
      addressMap (about frame420 4).params 0x00000008#32 = .reg .cmd ∧
      addressMap (about frame420 4).params 0x10000004#32 = .inCell .plane1 1 ∧
      addressMap (about frame420 4).params 0x0000001C#32 = .reg .rdata ∧
      addressMap (about frame420 4).params 0x40000000#32 = .outCell 0 ∧
      (∃ t, engineTurn (about frame420 4) = .next t) ∧ (withFrame frame420).pending = none := by
  obtain ⟨t, h1, -⟩ := exists_next (a := engineTurn (about frame420 4)) (p := fun _ => true) (by decide)
  exact ⟨by decide, by decide, by decide, by decide, by decide, by decide, ⟨t, h1⟩, rfl⟩

theorem witness_HostOperationsFollowNotation : (0x0000000C#32).toNat % 4 = 0 := by decide

theorem witness_HostTurnRunsNextOperation :
    (let s := hostAbout State.reset (.andi .t0 .t1 1);
      s.sched = [.host] ∧ s.host.prog[s.host.pc]? = some (.andi .t0 .t1 1)) ∧
    (State.reset.sched = [] ∧ State.reset.pending = none ∧ State.reset.host.prog[State.reset.host.pc]? = none) := by decide

theorem witness_HostTurnKeepsFrameAndOutputs :
    let s := hostAbout (withFrame frame420) (.sw 0x10000000#32 99)
    s.params.legal = true ∧ ∃ t, hostTurn s = .next t ∧ (t.mem != []) = true := by
  refine ⟨by decide, ?_⟩
  exact exists_next (p := fun t => t.mem != []) (by decide)

theorem witness_OutSnapshotPersists :
    let s := about frame444 3
    s.params.legal = true ∧ noResetNext s ∧ (∃ t, step s = .next t) ∧ ∀ w, s.pending = some w → decode w ≠ .ok .exportOut := by
  refine ⟨by decide, by simp [noResetNext, about, State.withFetchWord], ?_, ?_⟩
  · obtain ⟨t, h1, -⟩ := exists_next (a := step (about frame444 3)) (p := fun _ => true) (by decide)
    exact ⟨t, h1⟩
  · intro w hw
    have : (3#32) = w := Option.some.inj hw
    subst this
    decide

theorem witness_PendingCommandRuns :
    let s := { about frame420 4 with sched := [.host, .host] }
    s.pending = some 4#32 ∧ ∀ turn ∈ s.sched, turn ≠ .resetAsserted := by decide

theorem witness_BusyPollAdmitsBothOrders :
    let s := hostAbout (about frame420 4) (.read 4 .t7 0x0000000C#32)
    s.pending = some 4#32 ∧ s.host.prog[s.host.pc]? = some (.read 4 .t7 0x0000000C#32) := by decide

theorem witness_StreamDepthRoutesType : 2 % 2 = 0 ∧ 16 = 16 ∧ 3 % 2 = 1 ∧ (9 ≠ 8 ∧ 9 ≠ 10 ∧ 9 ≠ 16) := by decide

theorem witness_StreamFrameIsYuv420 : 1 ≤ 2 ∧ 2 % 2 = 0 ∧ streamChromaLength 2 2 10 = 2 := by decide

end Sys2Proof.Tests
end

section
/-! PROOFS. The statements about the spec's vocabulary (00_scope R12, R16, R171, R172): binary32 rounding, rounding to an
integer, the re-cast, the clip, and the host's turn. -/

open Sys2Proof Sys2Proof.Machine

namespace Sys2Proof.Machine

/-! ### The host's turn -/

theorem hostTurn_of_op {s : State} {op : HostOp} (h : s.host.prog[s.host.pc]? = some op) :
    hostTurn s = s.runHostOp op := by
  simp only [hostTurn, h]

theorem hostTurn_of_finished {s : State} (h : s.host.prog[s.host.pc]? = none) : hostTurn s = .next s := by
  simp only [hostTurn, h]

/-- The schedule gives the turn to the host (R16). -/
theorem step_of_host_turn {s : State} {rest : List Turn} (h : s.sched = .host :: rest) :
    step s = hostTurn { s with sched := rest } := by
  simp only [step, h]

/-- With the schedule exhausted and no command pending the host moves (R16, log 1). -/
theorem step_of_exhausted {s : State} (hs : s.sched = []) (hp : s.pending = none) : step s = hostTurn s := by
  simp [step, hs, hp]

/-- Settles O54: each of the two forms of the host's turn is `hostTurn`, whose two cases are the statement's. -/
theorem hostTurnRunsNextOperation : Obligations.HostTurnRunsNextOperation := by
  intro s
  refine ⟨fun op hop => ⟨fun rest hs => ?_, fun hs hp => ?_⟩, fun hnone => ⟨fun rest hs => ?_, fun hs hp => ?_⟩⟩
  · rw [step_of_host_turn hs]
    exact hostTurn_of_op hop
  · rw [step_of_exhausted hs hp, hostTurn_of_op hop]
  · rw [step_of_host_turn hs]
    exact hostTurn_of_finished hnone
  · rw [step_of_exhausted hs hp, hostTurn_of_finished hnone]

/-! ### Rounding to an integer -/

/-- `rheInt` is within half a denominator of the exact quotient, and even where it is exactly half away (R12). -/
theorem rheInt_nearest (num : Int) {den : Nat} (hd : 0 < den) :
    2 * (rheInt num den * den - num).natAbs ≤ den ∧
      (2 * (rheInt num den * den - num).natAbs = den → rheInt num den % 2 = 0) := by
  obtain ⟨⟨hle, hge⟩, htie⟩ := rheNat_nearest (num := num.natAbs) hd
  unfold rheInt
  split
  · rw [Int.neg_mul, ← Int.natCast_mul]
    omega
  · rw [← Int.natCast_mul]
    omega

/-- Settles O56: two integers that both lie within half a denominator differ by at most one, and only at a tie, which one
even integer breaks. -/
theorem roundHalfEvenIsNearest : Obligations.RoundHalfEvenIsNearest := by
  intro num k den hd hk
  obtain ⟨hle, htie⟩ := rheInt_nearest num hd
  generalize rheInt num den = m at *
  have hgap : (m - k).natAbs * den = (m * den - k * den).natAbs := by
    rw [← Int.sub_mul, Int.natAbs_mul, Int.natAbs_natCast]
  have hone : (m - k).natAbs ≤ 1 := by
    by_contra hfar
    have := Nat.mul_le_mul_right den (show 2 ≤ (m - k).natAbs by omega)
    omega
  by_contra hne
  have hadj : (m - k).natAbs = 1 := by omega
  rw [hadj, Nat.one_mul] at hgap
  omega

/-- Division truncated toward zero, of a quotient at or above 0. -/
theorem tdiv_eq_of_nonneg {a b k : Int} (hb : 0 < b) (ha : 0 ≤ a) (hlo : k * b ≤ a) (hhi : a < (k + 1) * b) :
    Int.tdiv a b = k := by
  rw [Int.tdiv_eq_ediv_of_nonneg ha]
  exact Int.le_antisymm (Int.le_of_lt_add_one ((Int.ediv_lt_iff_lt_mul hb).2 hhi)) ((Int.le_ediv_iff_mul_le hb).2 hlo)

namespace F32

/-! ### The spec's reading of a word is the model's -/

theorem specFinite_iff (w : Word) : specFinite w ↔ finite w = true := by
  rw [finite_iff]
  unfold specFinite
  omega

theorem specMag_eq (w : Word) : specMag w = mag w := by
  have hexp : w.toNat / 2 ^ 23 % 256 = w.toNat % 2 ^ 31 / 2 ^ 23 := by omega
  have hfrac : w.toNat % 2 ^ 23 = w.toNat % 2 ^ 31 % 2 ^ 23 := by omega
  unfold specMag
  rw [hexp, hfrac, mag_eq]
  rfl

theorem specScaled_eq (w : Word) : specScaled w = scaled w := by
  unfold specScaled scaled
  simp only [sign_eq, specMag_eq, decide_eq_true_eq]

/-- Bit 31 is the sign, as a number. -/
theorem toNat_div_two_pow_31 (w : Word) : w.toNat / 2 ^ 31 = (sign w).toNat := by
  have := w.isLt
  rw [sign_eq]
  by_cases h : 2 ^ 31 ≤ w.toNat
  · simp only [h, decide_true, Bool.toNat_true]
    omega
  · simp only [h, decide_false, Bool.toNat_false]
    omega

/-! ### The re-cast and the clip -/

theorem cast_trunc {x : Word} (hx : finite x = true) :
    cast .trunc x = BitVec.ofInt 32 (Int.tdiv (scaled x) (2 ^ 149)) := by
  simp only [cast, hx, if_true]

theorem cast_rne {x : Word} (hx : finite x = true) :
    cast .rne x = BitVec.ofInt 32 (rheInt (scaled x) (2 ^ 149)) := by
  simp only [cast, hx, if_true]

/-- Settles O57: TRUNC is `Int.tdiv`, symmetric about 0; RNE is `rheInt`. -/
theorem castRoundsByParameter : Obligations.CastRoundsByParameter := by
  intro x k hx
  have hf := (specFinite_iff x).1 hx
  rw [specScaled_eq, cast_trunc hf, cast_rne hf]
  have hpos : (0 : Int) < 2 ^ 149 := by decide
  refine ⟨fun h0 hlo hhi => ?_, fun h0 hhi hlo => ?_, fun hk => ?_⟩
  · rw [tdiv_eq_of_nonneg hpos h0 hlo hhi]
  · have hneg : Int.tdiv (-scaled x) (2 ^ 149) = -k := tdiv_eq_of_nonneg hpos (by omega) (by omega) (by omega)
    rw [Int.neg_tdiv, neg_inj] at hneg
    rw [hneg]
  · rw [roundHalfEvenIsNearest (scaled x) k (2 ^ 149) (Nat.one_le_two_pow) hk]

theorem clip01_nonpos {x : Word} (hn : isNaN x = false) (h : scaled x ≤ 0) : clip01 x = 0 := by
  simp [clip01, hn, h]

theorem clip01_ge_one {x : Word} (hn : isNaN x = false) (h : 2 ^ 149 ≤ scaled x) : clip01 x = one := by
  have h0 : ¬ scaled x ≤ 0 := by omega
  simp only [clip01, hn, h0, h, Bool.false_eq_true, if_false, if_true]

theorem clip01_between {x : Word} (hn : isNaN x = false) (h0 : 0 < scaled x) (h1 : scaled x < 2 ^ 149) :
    clip01 x = x := by
  simp only [clip01, hn, not_le.2 h0, not_le.2 h1, Bool.false_eq_true, if_false]

/-- Settles O58: a finite word is no NaN, so `clip01`'s three cases decide; the two infinities are no NaN either. -/
theorem clipSaturates : Obligations.ClipSaturates := by
  refine ⟨fun x hx => ?_, clip01_ge_one (by decide) (by decide), clip01_nonpos (by decide) (by decide)⟩
  have hn := isNaN_of_finite ((specFinite_iff x).1 hx)
  rw [specScaled_eq]
  exact ⟨clip01_nonpos hn, clip01_ge_one hn, clip01_between hn⟩

/-! ### Each operation is one rounding -/

/-- A number with its sign given as a Bool. -/
def signed (negative : Bool) (n : Nat) : Int := if negative then -(n : Int) else n

theorem scaled_eq_signed (w : Word) : scaled w = signed (sign w) (mag w) := rfl

theorem signed_mul (s t : Bool) (m n : Nat) : signed s m * signed t n = signed (s ^^ t) (m * n) := by
  cases s <;> cases t <;> simp [signed]

theorem natAbs_signed (s : Bool) (n : Nat) : (signed s n).natAbs = n := by
  cases s <;> simp [signed]

theorem sign_signed (s : Bool) {n : Nat} (h : n ≠ 0) : (signed s n).sign = signed s 1 := by
  have hpos : (0 : Int) < n := by omega
  cases s
  · exact Int.sign_eq_one_of_pos hpos
  · exact Int.sign_eq_neg_one_of_neg (show -(n : Int) < 0 by omega)

theorem signed_decide_natAbs (num : Int) : signed (decide (num < 0)) num.natAbs = num := by
  unfold signed
  by_cases h : num < 0
  · simp only [h, decide_true, if_true]
    omega
  · simp only [h, decide_false, Bool.false_eq_true, if_false]
    omega

/-- The last bit of a packed word is the last bit of its magnitude. -/
theorem toNat_pack_mod_two (negative : Bool) {bits : Nat} (h : bits < 2 ^ 31) :
    (pack negative bits).toNat % 2 = bits % 2 := by
  rw [toNat_pack negative h]
  cases negative
  · simp
  · simp only [if_true]
    omega

theorem roundMag_lt (num den : Nat) : roundMag num den < 2 ^ 31 :=
  Nat.lt_of_le_of_lt (Nat.min_le_right _ _) (by decide)

/-- A sign and a rounded magnitude are the signed quotient rounded (R12). -/
theorem roundsTo_pack_roundMag (negative : Bool) (n : Nat) {den : Nat} (hd : 0 < den) :
    roundsTo (pack negative (roundMag n den)) (signed negative n) den := by
  unfold roundsTo
  rw [natAbs_signed]
  split
  · next hlt =>
    have hfin := (roundMag_finite_iff hd).2 hlt
    refine ⟨(specFinite_iff _).2 (finite_pack _ hfin), fun v _ => ?_⟩
    simp only [specScaled_eq, toNat_pack_mod_two _ (roundMag_lt n den)]
    exact pack_roundMag_nearest negative hd hfin v
  · next hge =>
    have hinf : roundMag n den = 0x7F800000 := by
      have hle : roundMag n den ≤ 0x7F800000 := Nat.min_le_right _ _
      have := mt (roundMag_finite_iff hd).1 hge
      omega
    have hn : 0 < n := by
      have : 0 < (2 ^ 25 - 1) * 2 ^ 252 * den := Nat.mul_pos (by decide) hd
      omega
    rw [hinf]
    cases negative
    · rw [if_neg (by simp [signed])]
      rfl
    · rw [if_pos (by simp [signed, hn])]
      rfl

theorem roundsTo_ofScaled (num : Int) {den : Nat} (hd : 0 < den) : roundsTo (ofScaled num den) num den := by
  have h := roundsTo_pack_roundMag (decide (num < 0)) num.natAbs hd
  rwa [signed_decide_natAbs] at h

theorem roundMag_zero {den : Nat} (hd : 0 < den) : roundMag 0 den = 0 :=
  Nat.le_zero.1 (roundMag_le hd (Nat.zero_le _))

theorem ofScaled_zero {den : Nat} (hd : 0 < den) : ofScaled 0 den = 0 := by
  unfold ofScaled
  rw [Int.natAbs_zero, roundMag_zero hd]
  rfl

/-! ### Sums -/

theorem sign_neg (w : Word) : sign (neg w) = !sign w := by
  have hbit : (neg w).extractLsb' 31 1 = w.extractLsb' 31 1 ^^^ 1#1 := by
    unfold neg
    rw [BitVec.extractLsb'_xor]
    rfl
  unfold sign
  rw [hbit]
  generalize w.extractLsb' 31 1 = b
  revert b
  decide

theorem scaled_neg (w : Word) : scaled (neg w) = -scaled w := by
  unfold scaled
  rw [sign_neg, mag_neg]
  cases sign w <;> simp

theorem pack_zero (negative : Bool) : pack negative 0 = if negative then 0x80000000#32 else 0#32 := by
  cases negative <;> rfl

/-- A sum of finite terms that is exactly 0 is a zero, negative only if both terms are (log 12). -/
theorem add_of_zero_sum {x y : Word} (hx : finite x = true) (hy : finite y = true) (h : scaled x + scaled y = 0) :
    add x y = pack (sign x && sign y) 0 := by
  simp [add, hx, hy, h]

theorem add_of_nonzero_sum {x y : Word} (hx : finite x = true) (hy : finite y = true) (h : scaled x + scaled y ≠ 0) :
    add x y = ofScaled (scaled x + scaled y) 1 := by
  simp [add, hx, hy, h]

theorem roundsTo_add {x y : Word} (hx : finite x = true) (hy : finite y = true) :
    roundsTo (add x y) (scaled x + scaled y) 1 := by
  by_cases h : scaled x + scaled y = 0
  · have hz := roundsTo_pack_roundMag (sign x && sign y) 0 Nat.one_pos
    rw [roundMag_zero Nat.one_pos] at hz
    rw [add_of_zero_sum hx hy h, h]
    simpa [signed] using hz
  · rw [add_of_nonzero_sum hx hy h]
    exact roundsTo_ofScaled _ Nat.one_pos

theorem roundsTo_sub {x y : Word} (hx : finite x = true) (hy : finite y = true) :
    roundsTo (sub x y) (scaled x - scaled y) 1 := by
  rw [Int.sub_eq_add_neg, ← scaled_neg]
  exact roundsTo_add hx (by rwa [finite_neg])

/-! ### Products and quotients -/

theorem mul_of_finite {x y : Word} (hx : finite x = true) (hy : finite y = true) :
    mul x y = pack (sign x ^^ sign y) (roundMag (mag x * mag y) (2 ^ 149)) := by
  simp only [mul, hx, hy, Bool.and_self, if_true]

theorem div_of_finite {x y : Word} (hx : finite x = true) (hy : finite y = true) (h : mag y ≠ 0) :
    div x y = pack (sign x ^^ sign y) (roundMag (mag x * 2 ^ 149) (mag y)) := by
  simp [div, hx, hy, h]

theorem roundsTo_mul {x y : Word} (hx : finite x = true) (hy : finite y = true) :
    roundsTo (mul x y) (scaled x * scaled y) (2 ^ 149) := by
  rw [mul_of_finite hx hy, scaled_eq_signed, scaled_eq_signed, signed_mul]
  exact roundsTo_pack_roundMag _ _ (Nat.two_pow_pos _)

theorem roundsTo_div {x y : Word} (hx : finite x = true) (hy : finite y = true) (h : mag y ≠ 0) :
    roundsTo (div x y) (scaled x * 2 ^ 149 * (scaled y).sign) (scaled y).natAbs := by
  have hnum : scaled x * 2 ^ 149 * (scaled y).sign = signed (sign x ^^ sign y) (mag x * 2 ^ 149) := by
    calc _ = signed (sign x) (mag x) * signed (sign y) 1 * 2 ^ 149 := by
          rw [scaled_eq_signed, scaled_eq_signed, sign_signed _ h]; ring
      _ = signed (sign x ^^ sign y) (mag x * 1) * signed false (2 ^ 149) := by rw [signed_mul]; rfl
      _ = _ := by rw [signed_mul, Bool.xor_false, Nat.mul_one]
  rw [div_of_finite hx hy h, hnum, scaled_eq_signed y, natAbs_signed]
  exact roundsTo_pack_roundMag _ _ (Nat.pos_of_ne_zero h)

/-- The sign bit of a packed word whose sign is the exclusive or of two others'. -/
theorem signBit_pack_xor (x y : Word) {bits : Nat} (h : bits < 2 ^ 31) :
    (pack (sign x ^^ sign y) bits).toNat / 2 ^ 31 = (x.toNat / 2 ^ 31 + y.toNat / 2 ^ 31) % 2 := by
  rw [toNat_div_two_pow_31, toNat_div_two_pow_31, toNat_div_two_pow_31, sign_pack _ h]
  cases sign x <;> cases sign y <;> rfl

/-! ### Conversion of a natural number -/

/-- A natural number of at most 24 bits has a code: its significand is the number shifted to 24 bits. -/
theorem exists_code_of_lt {n : Nat} (h : n < 2 ^ 24) : ∃ c < 0x7F800000, codeMag c = n * 2 ^ 149 := by
  rcases Nat.eq_zero_or_pos n with rfl | hpos
  · exact ⟨0, by decide, by decide⟩
  · have hlo := Nat.log2_self_le (Nat.pos_iff_ne_zero.1 hpos)
    have hhi : n < 2 ^ (Nat.log2 n + 1) := Nat.lt_log2_self
    have hL : Nat.log2 n < 24 := (Nat.log2_lt (Nat.pos_iff_ne_zero.1 hpos)).2 h
    generalize Nat.log2 n = L at *
    have hm : n * 2 ^ (23 - L) < 2 ^ 24 := by
      calc n * 2 ^ (23 - L) < 2 ^ (L + 1) * 2 ^ (23 - L) := Nat.mul_lt_mul_of_pos_right hhi (Nat.two_pow_pos _)
        _ = 2 ^ 24 := by rw [← Nat.pow_add]; congr 1; omega
    have hl : 2 ^ 23 ≤ n * 2 ^ (23 - L) := by
      calc 2 ^ 23 = 2 ^ L * 2 ^ (23 - L) := by rw [← Nat.pow_add]; congr 1; omega
        _ ≤ _ := Nat.mul_le_mul_right _ hlo
    refine ⟨(126 + L) * 2 ^ 23 + n * 2 ^ (23 - L), by omega, ?_⟩
    rw [codeMag_of_significand (Nat.le_of_lt hm) (fun _ => hl), Nat.mul_assoc, ← Nat.pow_add]
    congr 2
    omega

/-- Conversion of a natural number of at most 24 bits is exact (R12). -/
theorem ofNat_exact {n : Nat} (h : n < 2 ^ 24) : finite (ofNat n) = true ∧ scaled (ofNat n) = n * 2 ^ 149 := by
  obtain ⟨c, hc, hmag⟩ := exists_code_of_lt h
  have hround : roundMag (n * 2 ^ 149) 1 = c := by
    rw [← hmag, ← Nat.mul_one (codeMag c)]
    exact roundMag_exact Nat.one_pos (Nat.le_of_lt hc)
  have hword : ofNat n = pack false c := by
    unfold ofNat ofScaled
    rw [Int.natAbs_natCast, hround, decide_eq_false (by omega)]
  rw [hword]
  refine ⟨finite_pack _ hc, ?_⟩
  rw [scaled_pack _ (by omega), hmag]
  push_cast
  rfl

/-- Settles O55: every operation packs a sign with one rounded magnitude, and `roundsTo_pack_roundMag` says that is the
nearest value; products and quotients take the exclusive or of the signs. -/
theorem binaryOperationsRoundToNearest : Obligations.BinaryOperationsRoundToNearest := by
  refine ⟨fun x y hx hy => ?_, fun num den hd => ⟨roundsTo_ofScaled num hd, ?_⟩, fun n hn => ?_⟩
  · have hfx := (specFinite_iff x).1 hx
    have hfy := (specFinite_iff y).1 hy
    have hmag : scaled y ≠ 0 → mag y ≠ 0 := by
      intro h h0
      exact h (by simp [scaled, h0])
    simp only [specScaled_eq]
    refine ⟨roundsTo_add hfx hfy, roundsTo_sub hfx hfy, roundsTo_mul hfx hfy,
      fun h => roundsTo_div hfx hfy (hmag h), ?_, fun h => ?_, fun h => ?_⟩
    · rw [mul_of_finite hfx hfy, signBit_pack_xor _ _ (roundMag_lt _ _)]
    · rw [div_of_finite hfx hfy (hmag h), signBit_pack_xor _ _ (roundMag_lt _ _)]
    · rw [add_of_zero_sum hfx hfy h, pack_zero]
      simp only [sign_eq, Bool.and_eq_true, decide_eq_true_eq]
  · rintro rfl
    exact ofScaled_zero hd
  · rw [specFinite_iff, specScaled_eq]
    exact ofNat_exact hn

end F32

end Sys2Proof.Machine
end

section
/-! PROOFS. What a command, the engine's turn and the host's turn can do, each said once (spec 20_memory R70, R71;
60_exceptions R200, R201). -/

open Sys2Proof Sys2Proof.Machine

namespace Sys2Proof.Machine

/-! ### Commands -/

/-- The state a command's body leaves once its checks have passed, before RESULT is set (R110, R130, R140, R150, R170,
R190). -/
inductive State.Completes (s : State) : Instr → State → Prop
  | load {f : ChromaFormat} (h : s.loadCheck = .ok f) : s.Completes .load { s with frame := s.loadFrame f }
  | read {arity sel : Nat} {v : Word} (h : s.readCell arity sel = .ok v) :
      s.Completes (.read arity sel) { s with rdata := v }
  | normalize (h : s.normalizeCheck = .ok ()) : s.Completes .normalize { s with frame := s.frame.normalized }
  | upsample (h : s.upsampleCheck = .ok ()) : s.Completes .upsample { s with frame := s.upsampledFrame }
  | toRgb (h : s.toRgbCheck = .ok ()) :
      s.Completes .toRgb { s with frame := s.frame.converted s.params.castRound }
  | exportOut {ch : PlaneCount} (h : s.exportChannels = .ok ch) : s.Completes .exportOut (s.exported ch)

theorem loadFormat_error_ne_ok {s : State} {p : Nat} {e : ResultCode} (h : s.loadFormat p = .error e) : e ≠ .ok := by
  rintro rfl
  unfold State.loadFormat at h
  repeat' split at h
  all_goals exact absurd h nofun

theorem loadCheck_error_ne_ok {s : State} {e : ResultCode} (h : s.loadCheck = .error e) : e ≠ .ok := by
  rintro rfl
  simp only [State.loadCheck] at h
  repeat' split at h
  case isFalse => exact loadFormat_error_ne_ok h rfl
  all_goals exact absurd h nofun

theorem readPlane_error_ne_ok {s : State} {arity sel : Nat} {e : ResultCode} (h : s.readPlane arity sel = .error e) :
    e ≠ .ok := by
  rintro rfl
  unfold State.readPlane at h
  repeat' split at h
  all_goals exact absurd h nofun

theorem readCell_error_ne_ok {s : State} {arity sel : Nat} {e : ResultCode} (h : s.readCell arity sel = .error e) :
    e ≠ .ok := by
  rintro rfl
  unfold State.readCell at h
  split at h
  · next hplane => exact readPlane_error_ne_ok hplane (Except.error.inj h)
  · dsimp only at h
    split at h
    · exact absurd h nofun
    · exact absurd h nofun

theorem normalizeCheck_error_ne_ok {s : State} {e : ResultCode} (h : s.normalizeCheck = .error e) : e ≠ .ok := by
  rintro rfl
  unfold State.normalizeCheck at h
  split at h
  all_goals exact absurd h nofun

theorem upsampleCheck_error_ne_ok {s : State} {e : ResultCode} (h : s.upsampleCheck = .error e) : e ≠ .ok := by
  rintro rfl
  unfold State.upsampleCheck at h
  repeat' split at h
  all_goals exact absurd h nofun

theorem toRgbCheck_error_ne_ok {s : State} {e : ResultCode} (h : s.toRgbCheck = .error e) : e ≠ .ok := by
  rintro rfl
  unfold State.toRgbCheck at h
  repeat' split at h
  all_goals exact absurd h nofun

theorem exportChannels_error_ne_ok {s : State} {e : ResultCode} (h : s.exportChannels = .error e) : e ≠ .ok := by
  rintro rfl
  unfold State.exportChannels at h
  repeat' split at h
  all_goals exact absurd h nofun

/-- A command raises an error and changes nothing else, or its body completes and RESULT is OK (R201, R203). -/
theorem exec_cases {i : Instr} {s t : State} (h : exec i s = .next t) :
    (∃ e, e ≠ .ok ∧ t = s.raise e) ∨ (∃ u, s.Completes i u ∧ t = u.finish) := by
  cases i with
  | load =>
    rcases execLoad_cases h with ⟨e, he, rfl⟩ | ⟨f, hf, rfl⟩
    · exact .inl ⟨e, loadCheck_error_ne_ok he, rfl⟩
    · exact .inr ⟨_, .load hf, rfl⟩
  | read arity sel =>
    rcases execRead_cases h with ⟨e, he, rfl⟩ | ⟨v, hv, rfl⟩
    · exact .inl ⟨e, readCell_error_ne_ok he, rfl⟩
    · exact .inr ⟨_, .read hv, rfl⟩
  | normalize =>
    rcases execNormalize_cases h with ⟨e, he, rfl⟩ | ⟨_, hu, rfl⟩
    · exact .inl ⟨e, normalizeCheck_error_ne_ok he, rfl⟩
    · exact .inr ⟨_, .normalize hu, rfl⟩
  | upsample =>
    rcases execUpsample_cases h with ⟨e, he, rfl⟩ | ⟨_, hu, rfl⟩
    · exact .inl ⟨e, upsampleCheck_error_ne_ok he, rfl⟩
    · exact .inr ⟨_, .upsample hu, rfl⟩
  | toRgb =>
    rcases execToRgb_cases h with ⟨e, he, rfl⟩ | ⟨_, hu, rfl⟩
    · exact .inl ⟨e, toRgbCheck_error_ne_ok he, rfl⟩
    · exact .inr ⟨_, .toRgb hu, rfl⟩
  | exportOut =>
    rcases execExport_cases h with ⟨e, he, rfl⟩ | ⟨ch, hch, rfl⟩
    · exact .inl ⟨e, exportChannels_error_ne_ok he, rfl⟩
    · exact .inr ⟨_, .exportOut hch, rfl⟩

/-- A command that ends with OK completed its body. -/
theorem exec_completes {i : Instr} {s t : State} (h : exec i s = .next t) (hok : t.result = .ok) :
    ∃ u, s.Completes i u ∧ t = u.finish := by
  rcases exec_cases h with ⟨e, he, rfl⟩ | hu
  · exact absurd hok he
  · exact hu

/-- A command word is the command it decodes to, or raises IllegalCommand (R91, R95). -/
theorem runWord_cases {w : Word} {s t : State} (h : runWord w s = .next t) :
    (∃ i, decode w = .ok i ∧ exec i s = .next t) ∨ t = s.raise .illegalCommand := by
  cases hd : decode w with
  | ok i =>
    rw [runWord_ok s hd] at h
    exact .inl ⟨i, rfl, h⟩
  | error e =>
    rw [runWord_error s hd] at h
    exact .inr (Host.Outcome.next.inj h).symm

/-- A command changes the frame, RDATA, OUT with its registers, and RESULT alone (R70). -/
theorem exec_writes {i : Instr} {s t : State} (h : exec i s = .next t) :
    t = { s with frame := t.frame, rdata := t.rdata, out := t.out, mem := t.mem, result := t.result } := by
  rcases exec_cases h with ⟨e, -, rfl⟩ | ⟨u, hu, rfl⟩
  · rfl
  · cases hu <;> rfl

/-! ### The host -/

/-- A read moves the draw counter or closes the busy window, which only happens with no command pending (R68, R233). -/
theorem busRead_state (s : State) (off : Word) :
    ∃ draws window, (s.busRead off).1 = { s with draws := draws, busyWindow := window } ∧
      (s.pending.isSome = true → window = s.busyWindow) := by
  unfold State.busRead
  split
  · unfold State.readStatus
    split
    · exact ⟨_, _, rfl, fun _ => rfl⟩
    · next hp => exact ⟨_, _, rfl, fun h => absurd h hp⟩
  · split
    · exact ⟨_, _, rfl, fun _ => rfl⟩
    · exact ⟨_, _, rfl, fun _ => rfl⟩

/-- A host turn stores one word at the target of its offset, or changes only the host's own state, the draw counter and the
busy window, which a pending command keeps as it is (R68, R101). -/
theorem hostTurn_effect {s t : State} (h : hostTurn s = .next t) :
    (∃ off v, t = s.hostNext.writeTarget (addressMap s.params off) v) ∨
      (∃ host draws window, t = { s with host := host, draws := draws, busyWindow := window } ∧
        (s.pending.isSome = true → window = s.busyWindow)) := by
  rcases hostTurn_cases h with rfl | ⟨op, -, hop⟩
  · exact .inr ⟨_, _, _, rfl, fun _ => rfl⟩
  rcases runHostOp_cases hop with ⟨off, v, hw⟩ | ⟨tmp, off, rfl⟩ | ⟨host, rfl⟩
  · exact .inl ⟨off, v, (busWrite_next hw).2⟩
  · obtain ⟨draws, window, hr, hp⟩ := busRead_state s.hostNext off
    rw [hr]
    exact .inr ⟨_, draws, window, rfl, hp⟩
  · exact .inr ⟨host, _, _, rfl, fun _ => rfl⟩

/-- A store on the bus changes IN_CFG, IN_DIM1..3, IDX, IN's bytes, or starts a command, and nothing else (R70). -/
theorem writeTarget_writes (s : State) (t : Target) (v : Word) :
    s.writeTarget t v = { s with
      inCfg := (s.writeTarget t v).inCfg, inDim1 := (s.writeTarget t v).inDim1, inDim2 := (s.writeTarget t v).inDim2
      inDim3 := (s.writeTarget t v).inDim3, idx := (s.writeTarget t v).idx, mem := (s.writeTarget t v).mem
      pending := (s.writeTarget t v).pending, busyWindow := (s.writeTarget t v).busyWindow } := by
  cases t with
  | reg r => cases r <;> rfl
  | inCell k n => rfl
  | outCell n => rfl
  | hole => rfl

end Sys2Proof.Machine
end

section
/-! PROOFS. The structural invariant (spec 10_state R21 to R29, 20_memory R61 to R63): it holds after reset and every step
keeps it. -/

open Sys2Proof Sys2Proof.Machine

namespace Sys2Proof.Machine

/-! ### What the invariant speaks of -/

/-- The invariant speaks of the parameters, the frame, memory, IN_CFG, OUT's registers and the busy window alone. -/
theorem State.Inv.congr {s t : State} (h : s.Inv) (hparams : t.params = s.params) (hframe : t.frame = s.frame)
    (hmem : t.mem = s.mem) (hcfg : t.inCfg = s.inCfg) (hout : t.out = s.out)
    (hbusy : t.pending.isSome = true → t.busyWindow = true) : t.Inv where
  legal := by rw [hparams]; exact h.legal
  frame := by rw [hparams, hframe]; exact h.frame
  ordered := by rw [hmem]; exact h.ordered
  buffers := by rw [hparams, hmem]; exact h.buffers
  cfg := by rw [hcfg]; exact h.cfg
  pendingBusy := hbusy
  outChannels := by rw [hout]; exact h.outChannels
  outExtent := by rw [hparams, hout]; exact h.outExtent

theorem State.Inv.raise {s : State} (h : s.Inv) (e : ResultCode) : (s.raise e).Inv :=
  h.congr rfl rfl rfl rfl rfl h.pendingBusy

theorem State.Inv.finish {s : State} (h : s.Inv) : s.finish.Inv := h.congr rfl rfl rfl rfl rfl h.pendingBusy

theorem State.Inv.hostNext {s : State} (h : s.Inv) : s.hostNext.Inv := h.congr rfl rfl rfl rfl rfl h.pendingBusy

theorem State.Inv.setSched {s : State} (h : s.Inv) (sched : List Turn) : ({ s with sched := sched } : State).Inv :=
  h.congr rfl rfl rfl rfl rfl h.pendingBusy

theorem State.Inv.clearPending {s : State} (h : s.Inv) : ({ s with pending := none } : State).Inv :=
  h.congr rfl rfl rfl rfl rfl nofun

theorem State.Inv.setFrame {s : State} (h : s.Inv) {f : Frame} (hf : f.Wf s.params) :
    ({ s with frame := f } : State).Inv where
  legal := h.legal
  frame := hf
  ordered := h.ordered
  buffers := h.buffers
  cfg := h.cfg
  pendingBusy := h.pendingBusy
  outChannels := h.outChannels
  outExtent := h.outExtent

theorem Frame.Loaded.wf {p : Params} {f : Frame} (h : f.Loaded p) (hi : f.init = true) : f.Wf p :=
  ⟨fun h0 => absurd (hi.symm.trans h0) (by decide), fun _ => h⟩

/-! ### The buffers -/

/-- R8's constraint: each region holds its buffer. -/
theorem Params.legal_fits {p : Params} (h : p.legal = true) : 4 * (3 * bufferCells p) ≤ 2 ^ 28 := by
  simp only [Params.legal, Bool.and_eq_true, decide_eq_true_eq] at h
  obtain ⟨⟨-, h3⟩, -⟩ := h
  calc 4 * (3 * bufferCells p) = 3 * p.maxW * p.maxH * 4 := by unfold bufferCells; ring
    _ ≤ 2 ^ 28 := h3

theorem inBuffers_inCell {p : Params} (hp : p.legal = true) {k : PlaneId} {n a : Nat} (hn : n < bufferCells p)
    (hlo : inAddr k n ≤ a) (hhi : a < inAddr k n + 4) : inBuffers p a = true := by
  have hfits := Params.legal_fits hp
  have hk : 1 ≤ k.number ∧ k.number ≤ 3 := by cases k <;> decide
  unfold inAddr at hlo hhi
  have hdiv : a / 2 ^ 28 = k.number := by omega
  have hmod : a % 2 ^ 28 < 4 * bufferCells p := by omega
  simp only [inBuffers, Bool.or_eq_true, Bool.and_eq_true, decide_eq_true_eq]
  omega

theorem inBuffers_outCell {p : Params} (hp : p.legal = true) {a : Nat} (hlo : outAddr 0 ≤ a)
    (hhi : a < outAddr 0 + 4 * (3 * bufferCells p)) : inBuffers p a = true := by
  have hfits := Params.legal_fits hp
  unfold outAddr at hlo hhi
  have hdiv : a / 2 ^ 28 = 4 := by omega
  have hmod : a % 2 ^ 28 < 4 * (3 * bufferCells p) := by omega
  simp only [inBuffers, Bool.or_eq_true, Bool.and_eq_true, decide_eq_true_eq]
  omega

theorem inTarget_inCell {p : Params} {j k : PlaneId} {m n : Nat} (h : inTarget p j m = .inCell k n) :
    n < bufferCells p := by
  unfold inTarget at h
  split at h
  · next hm =>
    obtain ⟨-, rfl⟩ := Target.inCell.inj h
    exact hm
  · exact absurd h nofun

theorem outTarget_ne_inCell {p : Params} {k : PlaneId} {m n : Nat} : outTarget p m ≠ .inCell k n := by
  unfold outTarget
  split <;> exact nofun

theorem regTarget_ne_inCell {i : Nat} {k : PlaneId} {n : Nat} : regTarget i ≠ .inCell k n := by
  unfold regTarget
  split <;> exact nofun

/-- The bus addresses only cells a staging buffer has (R62). -/
theorem addressMap_inCell_lt {p : Params} {off : Word} {k : PlaneId} {n : Nat} (h : addressMap p off = .inCell k n) :
    n < bufferCells p := by
  unfold addressMap at h
  dsimp only at h
  split at h
  · exact absurd h regTarget_ne_inCell
  · exact inTarget_inCell h
  · exact inTarget_inCell h
  · exact inTarget_inCell h
  · exact absurd h outTarget_ne_inCell
  · exact absurd h nofun

/-! ### EXPORT -/

/-- EXPORT stores W·H·CH cells (R190, R191). -/
theorem exportCells_length (f : Frame) (ch : PlaneCount) : (exportCells f ch).length = f.p1.size * ch.toNat := by
  cases ch with
  | none => rfl
  | one => simp [exportCells, PlaneCount.toNat]
  | three => simp [exportCells, PlaneCount.toNat]

theorem Plane.Wf.size_le {p : Params} {x : Plane} (h : x.Wf p) : x.size ≤ bufferCells p := Nat.mul_le_mul h.wMax h.hMax

theorem State.Inv.exported {s : State} (h : s.Inv) {ch : PlaneCount} (hch : s.exportChannels = .ok ch) :
    (s.exported ch).Inv := by
  obtain ⟨hi, hfmt⟩ := exportChannels_ok hch
  have hne : ch ≠ .none := by rcases hfmt with ⟨-, rfl⟩ | ⟨-, rfl⟩ <;> decide
  have hsize : s.frame.p1.size * ch.toNat ≤ 3 * bufferCells s.params := by
    rw [Nat.mul_comm]
    exact Nat.mul_le_mul (by cases ch <;> decide) (h.frame.loaded hi).p1.size_le
  refine ⟨h.legal, h.frame, Memory.writeWords_wf _ _ _ h.ordered, fun c hc => ?_, h.cfg, h.pendingBusy,
    ⟨fun _ => hne, fun _ => rfl⟩, hsize⟩
  rcases Memory.mem_writeWords _ _ _ _ hc with ⟨hlo, hhi⟩ | hold
  · rw [exportCells_length] at hhi
    exact inBuffers_outCell h.legal hlo (by omega)
  · exact h.buffers c hold

/-! ### Every step -/

theorem State.Inv.completes {s u : State} {i : Instr} (h : s.Inv) (hu : s.Completes i u) : u.Inv := by
  cases hu with
  | load hc => exact h.setFrame ((State.loadFrame_loaded hc).wf rfl)
  | read hc => exact h.congr rfl rfl rfl rfl rfl h.pendingBusy
  | normalize hc =>
    have hi := normalizeCheck_ok hc
    exact h.setFrame ((Frame.normalized_loaded (h.frame.loaded hi)).wf (by simp [Frame.normalized, hi]))
  | upsample hc =>
    obtain ⟨hi, hg, -⟩ := upsampleCheck_ok hc
    exact h.setFrame ((State.upsampledFrame_loaded (h.frame.loaded hi) hg).wf hi)
  | toRgb hc =>
    obtain ⟨hi, h4⟩ := toRgbCheck_ok hc
    exact h.setFrame ((Frame.converted_loaded _ (h.frame.loaded hi) h4).wf hi)
  | exportOut hc => exact h.exported hc

theorem State.Inv.exec {s t : State} {i : Instr} (h : s.Inv) (ht : exec i s = .next t) : t.Inv := by
  rcases exec_cases ht with ⟨e, -, rfl⟩ | ⟨u, hu, rfl⟩
  · exact h.raise e
  · exact (h.completes hu).finish

theorem State.Inv.engineTurn {s t : State} (h : s.Inv) (ht : engineTurn s = .next t) : t.Inv := by
  rcases engineTurn_cases ht with ⟨-, rfl⟩ | ⟨w, -, hw⟩
  · exact h
  rcases runWord_cases hw with ⟨i, -, hi⟩ | rfl
  · exact h.clearPending.exec hi
  · exact h.clearPending.raise _

theorem State.Inv.writeTarget {s : State} (h : s.Inv) (off v : Word) :
    (s.writeTarget (addressMap s.params off) v).Inv := by
  cases ht : addressMap s.params off with
  | reg r =>
    cases r with
    | cmd => exact h.congr rfl rfl rfl rfl rfl fun _ => rfl
    | inCfg =>
      refine ⟨h.legal, h.frame, h.ordered, h.buffers, ?_, h.pendingBusy, h.outChannels, h.outExtent⟩
      show v &&& inCfgMask &&& inCfgMask = v &&& inCfgMask
      rw [BitVec.and_assoc, BitVec.and_self]
    | _ => exact h.congr rfl rfl rfl rfl rfl h.pendingBusy
  | inCell k n =>
    refine ⟨h.legal, h.frame, Memory.writeWord_wf _ _ _ h.ordered, fun c hc => ?_, h.cfg, h.pendingBusy, h.outChannels,
      h.outExtent⟩
    rcases Memory.mem_writeWord _ _ _ _ hc with ⟨hlo, hhi⟩ | hold
    · exact inBuffers_inCell h.legal (addressMap_inCell_lt ht) hlo hhi
    · exact h.buffers c hold
  | outCell n => exact h
  | hole => exact h

theorem State.Inv.hostTurn {s t : State} (h : s.Inv) (ht : hostTurn s = .next t) : t.Inv := by
  rcases hostTurn_effect ht with ⟨off, v, rfl⟩ | ⟨host, draws, window, rfl, hp⟩
  · exact h.hostNext.writeTarget off v
  · exact h.congr rfl rfl rfl rfl rfl fun hs => (hp hs).trans (h.pendingBusy hs)

theorem Frame.uninitialized_wf (p : Params) : Frame.uninitialized.Wf p := ⟨fun _ => rfl, nofun⟩

theorem State.reset_inv : State.reset.Inv where
  legal := by decide
  frame := Frame.uninitialized_wf _
  ordered := List.Pairwise.nil
  buffers := nofun
  cfg := by decide
  pendingBusy := nofun
  outChannels := by decide
  outExtent := Nat.zero_le _

theorem State.Inv.assertReset {s : State} (h : s.Inv) : s.assertReset.Inv where
  legal := h.legal
  frame := Frame.uninitialized_wf _
  ordered := List.Pairwise.nil
  buffers := nofun
  cfg := State.reset_inv.cfg
  pendingBusy := nofun
  outChannels := State.reset_inv.outChannels
  outExtent := Nat.zero_le _

/-- Settles O10: the engine's turn, the host's turn and the reset input each keep the invariant. -/
theorem stepKeepsInvariant : Obligations.StepKeepsInvariant := by
  intro s t h ht
  obtain ⟨rest, he | hh | rfl⟩ := step_cases ht
  · exact (h.setSched rest).engineTurn he
  · exact (h.setSched rest).hostTurn hh
  · exact (h.setSched rest).assertReset

/-- Settles O9: after reset there is no frame and memory lists no byte. -/
theorem invariantHoldsAtReset : Obligations.InvariantHoldsAtReset := ⟨State.reset_inv, nofun, nofun, nofun⟩

end Sys2Proof.Machine
end

section
/-! PROOFS. What each command leaves unchanged (spec 10_state R22 to R28, R48, R70, R192), and the reset input (R230). -/

open Sys2Proof Sys2Proof.Machine

namespace Sys2Proof.Machine

/-! ### The state a command may write -/

/-- EXPORT changes no byte outside the cells it exports (R190). -/
theorem State.memByte_exported (s : State) (ch : PlaneCount) {a : Nat}
    (h : a < outAddr 0 ∨ outAddr 0 + 4 * (exportCells s.frame ch).length ≤ a) :
    (s.exported ch).memByte a = s.memByte a :=
  State.memByte_eq_of_read? _ _ _ (Memory.read?_writeWords_other _ _ _ _ h) rfl

/-- Settles O34: `exec_writes`, and then what each body writes. -/
theorem commandsWriteOnlyTheirState : Obligations.CommandsWriteOnlyTheirState := by
  intro i s t h
  refine ⟨exec_writes h, ?_⟩
  rcases exec_cases h with ⟨e, -, rfl⟩ | ⟨u, hu, rfl⟩
  · exact ⟨fun _ => rfl, fun _ => ⟨rfl, rfl⟩, fun _ => rfl, fun _ => ⟨fun _ _ _ _ => rfl, fun _ _ => ⟨rfl, rfl⟩⟩,
      fun _ _ => rfl⟩
  cases hu with
  | read hc => exact ⟨fun hr => absurd rfl (hr _ _), fun _ => ⟨rfl, rfl⟩, fun _ => rfl, nofun, fun _ _ => rfl⟩
  | exportOut hc =>
    refine ⟨fun _ => rfl, fun hx => absurd rfl hx, fun _ => rfl, fun _ => ⟨fun ch hch a ha => ?_, fun e he => ?_⟩,
      fun a ha => State.memByte_exported s _ (.inl ha)⟩
    · obtain rfl := Except.ok.inj (hc.symm.trans hch)
      exact State.memByte_exported s _ ha
    · exact absurd (hc.symm.trans he) nofun
  | _ =>
    refine ⟨fun _ => rfl, fun _ => ⟨rfl, rfl⟩, fun hi => ?_, nofun, fun _ _ => rfl⟩
    rcases hi with hi | ⟨_, _, hi⟩ <;> exact absurd hi nofun

/-- A command other than EXPORT keeps OUT, its registers and every byte of memory (R48). -/
theorem exec_keeps_out {i : Instr} {s t : State} (h : exec i s = .next t) (hi : i ≠ .exportOut) :
    t.out = s.out ∧ t.mem = s.mem ∧ t.resets = s.resets := by
  obtain ⟨hw, -, hout, -⟩ := commandsWriteOnlyTheirState i s t h
  obtain ⟨ho, hm⟩ := hout hi
  exact ⟨ho, hm, by rw [hw]⟩

/-! ### The frame's format, type, depth and init -/

@[simp] theorem Frame.normalized_init (f : Frame) : f.normalized.init = f.init := Frame.mapPresent_init _ _
@[simp] theorem Frame.normalized_planes (f : Frame) : f.normalized.planes = f.planes := Frame.mapPresent_planes _ _
@[simp] theorem Frame.normalized_fmt (f : Frame) : f.normalized.fmt = f.fmt := Frame.mapPresent_fmt _ _
@[simp] theorem Frame.normalized_bitDepth (f : Frame) : f.normalized.bitDepth = f.bitDepth :=
  Frame.mapPresent_bitDepth _ _

/-- Settles O35: of the six bodies only LOAD's and UPSAMPLE's write fmt. -/
theorem formatChangesOnlyByLoadAndUpsample : Obligations.FormatChangesOnlyByLoadAndUpsample := by
  intro i s t h hne
  rcases exec_cases h with ⟨e, -, rfl⟩ | ⟨u, hu, rfl⟩
  · exact absurd rfl hne
  cases hu with
  | load hc => exact .inl rfl
  | upsample hc => exact .inr ⟨rfl, rfl, (upsampleCheck_ok hc).2.1⟩
  | normalize hc => exact absurd (Frame.normalized_fmt _) hne
  | _ => exact absurd rfl hne

/-- A type LOAD accepts has the code it was declared with, and is no f32 (R41, R112). -/
theorem loadableType_some {code : Nat} {t : SampleType} (h : loadableType code = some t) : t.code = code ∧ t ≠ .f32 := by
  unfold loadableType at h
  split at h
  · obtain rfl := Option.some.inj h
    exact ⟨rfl, nofun⟩
  · obtain rfl := Option.some.inj h
    exact ⟨rfl, nofun⟩
  · exact absurd h nofun

theorem plane1_mem_suppliedPlanes {p : Nat} (h : p ≠ 0) : PlaneId.plane1 ∈ suppliedPlanes p := by
  obtain ⟨n, rfl⟩ := Nat.exists_eq_succ_of_ne_zero h
  exact List.mem_cons_self

/-- The type of the frame LOAD builds is plane 1's declared one, u8 or u16 (R112, R115). -/
theorem elemType_of_loadCheck {s : State} {f : ChromaFormat} (h : s.loadCheck = .ok f) :
    (s.elemType .plane1).code = cfgType s.inCfg .plane1 ∧ s.elemType .plane1 ≠ .f32 := by
  obtain ⟨h0, -, -, -, htypes, -⟩ := loadCheck_ok h
  obtain ⟨t, ht⟩ := Option.isSome_iff_exists.1 (List.all_eq_true.1 htypes _ (plane1_mem_suppliedPlanes h0))
  have he : s.elemType .plane1 = t := by rw [State.elemType, ht, Option.getD_some]
  rw [he]
  exact loadableType_some ht

/-- Settles O36: LOAD takes plane 1's declared type, NORMALIZE writes f32, no other body writes the type. -/
theorem sampleTypeTransitions : Obligations.SampleTypeTransitions := by
  intro i s t h hok
  obtain ⟨u, hu, rfl⟩ := exec_completes h hok
  cases hu with
  | load hc => exact ⟨fun _ => (elemType_of_loadCheck hc).1, nofun, fun hl => absurd rfl hl⟩
  | normalize hc => exact ⟨nofun, fun _ => rfl, fun _ hn => absurd rfl hn⟩
  | _ => exact ⟨nofun, nofun, fun _ _ => rfl⟩

/-- Every body but LOAD's keeps init and bitDepth; LOAD's sets init (R22, R26). -/
theorem State.Completes.init_bitDepth {s u : State} {i : Instr} (h : s.Completes i u) :
    (i = .load ∧ u.frame.init = true) ∨ (u.frame.init = s.frame.init ∧ u.frame.bitDepth = s.frame.bitDepth) := by
  cases h with
  | load hc => exact .inl ⟨rfl, rfl⟩
  | normalize hc => exact .inr ⟨Frame.normalized_init _, Frame.normalized_bitDepth _⟩
  | _ => exact .inr ⟨rfl, rfl⟩

/-! ### Steps that do not assert reset -/

theorem step_cases_of_noReset {s t : State} (hr : noResetNext s) (h : step s = .next t) :
    ∃ rest, engineTurn { s with sched := rest } = .next t ∨ hostTurn { s with sched := rest } = .next t := by
  unfold step at h
  split at h
  · next hs =>
    refine ⟨[], ?_⟩
    rw [show { s with sched := [] } = s by rw [← hs]]
    split at h
    · exact .inl h
    · exact .inr h
  · next rest _ => exact ⟨rest, .inl h⟩
  · next rest _ => exact ⟨rest, .inr h⟩
  · next hs => exact absurd (by rw [hs]; rfl) hr

/-- No host turn changes the frame, OUT's registers, the parameters or the count of resets (R70). -/
theorem hostTurn_keeps {s t : State} (h : hostTurn s = .next t) :
    t.frame = s.frame ∧ t.out = s.out ∧ t.params = s.params ∧ t.resets = s.resets := by
  rcases hostTurn_effect h with ⟨off, v, rfl⟩ | ⟨host, draws, window, rfl, -⟩
  · rw [writeTarget_writes]
    exact ⟨rfl, rfl, rfl, rfl⟩
  · exact ⟨rfl, rfl, rfl, rfl⟩

/-- Settles O37: the host keeps the frame, and among commands only LOAD's body writes init or bitDepth. -/
theorem initAndDepthChangeOnlyByLoad : Obligations.InitAndDepthChangeOnlyByLoad := by
  intro s t hr h
  have unchanged : t.frame.init = s.frame.init ∧ t.frame.bitDepth = s.frame.bitDepth →
      (s.frame.init = true → t.frame.init = true) ∧
      ((t.frame.init ≠ s.frame.init ∨ t.frame.bitDepth ≠ s.frame.bitDepth) →
        t.result = .ok ∧ ∃ w, s.pending = some w ∧ decode w = .ok .load) :=
    fun ⟨hi, hd⟩ => ⟨fun h1 => hi.trans h1, fun hne => absurd hne (by simp [hi, hd])⟩
  obtain ⟨rest, he | hh⟩ := step_cases_of_noReset hr h
  · rcases engineTurn_cases he with ⟨-, rfl⟩ | ⟨w, hw, hrun⟩
    · exact unchanged ⟨rfl, rfl⟩
    rcases runWord_cases hrun with ⟨i, hdec, hexec⟩ | rfl
    · rcases exec_cases hexec with ⟨e, -, rfl⟩ | ⟨u, hu, rfl⟩
      · exact unchanged ⟨rfl, rfl⟩
      rcases hu.init_bitDepth with ⟨rfl, hinit⟩ | hsame
      · exact ⟨fun _ => hinit, fun _ => ⟨rfl, w, hw, hdec⟩⟩
      · exact unchanged hsame
    · exact unchanged ⟨rfl, rfl⟩
  · obtain ⟨hf, -⟩ := hostTurn_keeps hh
    exact unchanged (by rw [hf]; exact ⟨rfl, rfl⟩)

/-! ### OUT between two EXPORTs -/

theorem State.outRead_congr {s t : State} (hout : t.out = s.out)
    (hbytes : ∀ a, 0x40000000 ≤ a → t.memByte a = s.memByte a) (n : Nat) : t.outRead n = s.outRead n := by
  have hword : t.outCell n = s.outCell n :=
    State.memWord_eq_of_memByte s t _ fun b hb _ => hbytes b (by unfold outAddr at hb; omega)
  rw [State.outRead, State.outRead, hout, hword]

/-- IN's cells all lie below OUT (R61, R62). -/
theorem inAddr_lt_out {p : Params} (hp : p.legal = true) {k : PlaneId} {n : Nat} (hn : n < bufferCells p) :
    inAddr k n + 4 ≤ 0x40000000 := by
  have hfits := Params.legal_fits hp
  have hk : k.number ≤ 3 := by cases k <;> decide
  unfold inAddr
  omega

/-- No host turn changes a byte of OUT (R70). -/
theorem hostTurn_memByte_out {s t : State} (hp : s.params.legal = true) (h : hostTurn s = .next t) {a : Nat}
    (ha : 0x40000000 ≤ a) : t.memByte a = s.memByte a := by
  rcases hostTurn_effect h with ⟨off, v, rfl⟩ | ⟨host, draws, window, rfl, -⟩
  · cases htgt : addressMap s.params off with
    | reg r => cases r <;> rfl
    | inCell k n =>
      have := inAddr_lt_out hp (k := k) (addressMap_inCell_lt htgt)
      exact State.memByte_eq_of_read? _ _ _ (Memory.read?_writeWord_other _ _ _ _ (by omega)) rfl
    | outCell n => rfl
    | hole => rfl
  · rfl

/-- Settles O50: the host writes no byte of OUT, and of the commands only EXPORT does. -/
theorem outSnapshotPersists : Obligations.OutSnapshotPersists := by
  intro s t hp hr h hexport n
  obtain ⟨rest, he | hh⟩ := step_cases_of_noReset hr h
  · rcases engineTurn_cases he with ⟨-, rfl⟩ | ⟨w, hw, hrun⟩
    · rfl
    rcases runWord_cases hrun with ⟨i, hdec, hexec⟩ | rfl
    · obtain ⟨hout, hmem, hresets⟩ := exec_keeps_out hexec (by rintro rfl; exact hexport w hw hdec)
      exact State.outRead_congr hout (fun a _ => State.memByte_eq_of_read? _ _ _ (by rw [hmem]) hresets) n
    · rfl
  · obtain ⟨-, hout, -⟩ := hostTurn_keeps hh
    exact State.outRead_congr hout (fun a ha => hostTurn_memByte_out (s := { s with sched := rest }) hp hh ha) n

/-! ### The reset input -/

/-- With the block's own state as reset leaves it every register holds its reset value (R32). -/
theorem State.readReg_reset (params : Params) (host : HostAgent) (sched : List Turn) (draws resets : Nat) (r : Reg) :
    ({ State.reset with params := params, host := host, sched := sched, draws := draws, resets := resets } : State).readReg r
      = registerResetValue r := by
  cases r with
  | outDim => exact (by decide : dimWord 0 0 = 0#32)
  | _ => rfl

/-- Settles O12: reset leaves no command pending, so its registers read as they are. -/
theorem resetInputClearsTheBlock : Obligations.ResetInputClearsTheBlock := by
  intro s rest hs
  refine ⟨State.assertReset { s with sched := rest }, by simp only [step, hs], rfl, rfl, rfl, fun r => ?_, fun _ => rfl,
    fun _ => rfl, rfl, rfl, rfl⟩
  rw [busRead_quiet _ _ rfl, addressMap_reg]
  exact State.readReg_reset _ _ _ _ _ r

/-- Settles O7: no command is pending after reset, so each read answers the register. -/
theorem resetRegistersReadTheirValues : Obligations.ResetRegistersReadTheirValues := by
  refine ⟨fun r => ?_, rfl, rfl, rfl, rfl, rfl⟩
  rw [busRead_quiet _ _ rfl, addressMap_reg]
  exact State.readReg_reset _ _ _ _ _ r

end Sys2Proof.Machine
end

section
/-! PROOFS. The host's bus (spec 10_state R33 to R46, 20_memory R60 to R68, 70_reset R233): what a read answers and a write
stores at each kind of target, and what the registers hold bit by bit. -/

open Sys2Proof Sys2Proof.Machine

namespace Sys2Proof.Machine

/-! ### One rule per kind of access -/

theorem busRead_status {s : State} {off : Word} (h : addressMap s.params off = .reg .status) :
    s.busRead off = s.readStatus := by
  simp only [State.busRead, h]

/-- A read that no rule makes a draw answers what its target holds and changes nothing (R68). -/
theorem busRead_stable {s : State} {off : Word} {t : Target} (h : addressMap s.params off = t) (hs : t ≠ .reg .status)
    (hr : (s.busy && t.isResult) = false) : s.busRead off = (s, s.readTarget t) := by
  unfold State.busRead
  rw [h]
  split
  · exact absurd rfl hs
  · rw [hr]
    rfl

/-- A result read in the busy window is a draw (R233). -/
theorem busRead_draw {s : State} {off : Word} {t : Target} (h : addressMap s.params off = t) (hb : s.busy = true)
    (hr : t.isResult = true) : s.busRead off = s.draw := by
  unfold State.busRead
  rw [h]
  split
  · exact absurd hr nofun
  · rw [hb, hr]
    rfl

theorem busWrite_allowed {s : State} {off v : Word} {t : Target} (h : addressMap s.params off = t)
    (hg : (s.busy && t.isGuarded) = false) : s.busWrite off v = .next (s.writeTarget t v) := by
  simp [State.busWrite, h, hg]

/-- A guarded write in the busy window is refused (R233). -/
theorem busWrite_refused {s : State} {off v : Word} {t : Target} (h : addressMap s.params off = t) (hb : s.busy = true)
    (hg : t.isGuarded = true) : s.busWrite off v = .refused .hostWriteWhileBusy := by
  simp [State.busWrite, h, hb, hg]

theorem readStatus_pending {s : State} (h : s.pending.isSome = true) :
    s.readStatus = ({ s with draws := s.draws + 1 }, Config.busyRead s.draws ||| 1#32) := by
  simp only [State.readStatus, h, if_true]
  rfl

theorem readStatus_idle {s : State} (h : s.pending = none) :
    s.readStatus = ({ s with busyWindow := false }, s.statusWord) := by
  simp [State.readStatus, h]

/-! ### Holes and read-only registers -/

theorem regTarget_hole {i : Nat} (h : 15 ≤ i) : regTarget i = .hole := by
  obtain ⟨j, rfl⟩ := Nat.exists_eq_add_of_le' h
  rfl

/-- Past the last register, and from the end of OUT's region on, nothing is addressed (R46, R61, R65). -/
theorem addressMap_hole (p : Params) {off : Word}
    (h : (0x3C ≤ off.toNat ∧ off.toNat < 0x10000000) ∨ 0x50000000 ≤ off.toNat) : addressMap p off = .hole := by
  unfold addressMap
  rcases h with ⟨hlo, hhi⟩ | hhi
  · rw [show off.toNat / 2 ^ 28 = 0 by omega]
    exact regTarget_hole (by omega)
  · obtain ⟨j, hj⟩ := Nat.exists_eq_add_of_le' (show 5 ≤ off.toNat / 2 ^ 28 by omega)
    rw [hj]
    rfl

theorem busWrite_readOnly {s : State} {r : Reg} (h : readOnlyReg r = true) (v : Word) :
    s.busWrite r.offset v = .next s := by
  have hg : (Target.reg r).isGuarded = false := by revert h; cases r <;> decide
  have hw : s.writeTarget (.reg r) v = s := by
    cases r with
    | cmd | inCfg | inDim1 | inDim2 | inDim3 | idx => exact absurd h nofun
    | _ => rfl
  rw [busWrite_allowed (addressMap_reg _ r) (by rw [hg, Bool.and_false]), hw]

/-- Settles O8: neither register is a result, so not even the busy window changes what it reads. -/
theorem idAndVersionAreHardwired : Obligations.IdAndVersionAreHardwired := fun s v =>
  ⟨busRead_stable (addressMap_reg s.params .id) nofun (Bool.and_false _),
    busRead_stable (addressMap_reg s.params .version) nofun (Bool.and_false _),
    busWrite_readOnly (r := .id) rfl v, busWrite_readOnly (r := .version) rfl v⟩

/-- Settles O44: a hole and a read-only register are neither guarded nor a result, so the busy window plays no part. -/
theorem reservedAndReadOnlyAccesses : Obligations.ReservedAndReadOnlyAccesses := by
  intro s off v
  refine ⟨fun h => ?_, fun r hr => busWrite_readOnly hr v,
    busRead_stable (addressMap_reg s.params .cmd) nofun (Bool.and_false _)⟩
  have hole := addressMap_hole s.params h
  exact ⟨busRead_stable hole nofun (Bool.and_false _), busWrite_allowed hole (Bool.and_false _)⟩

/-! ### The registers bit by bit -/

theorem ResultCode.code_lt (c : ResultCode) : c.code < 16 := by cases c <;> decide
theorem ChromaFormat.code_lt (f : ChromaFormat) : f.code < 8 := by cases f <;> decide
theorem SampleType.code_lt (t : SampleType) : t.code < 4 := by cases t <;> decide
theorem PlaneCount.toNat_lt (n : PlaneCount) : n.toNat < 4 := by cases n <;> decide

theorem State.bit_err (s : State) : bit s.err = if s.result = .ok then 0 else 1 := by
  unfold State.err
  cases s.result <;> rfl

/-- STATUS's fields side by side (R36). -/
theorem State.statusWord_toNat (s : State) :
    s.statusWord.toNat = bit s.pending.isSome + 2 * bit s.frame.init + 8 * (if s.result = .ok then 0 else 1)
      + 16 * s.result.code + 256 * (if s.frame.init then s.frame.fmt.code else 0)
      + 4096 * (if s.frame.init then s.frame.sampleType.code else 0) := by
  have hbit : ∀ b, bit b ≤ 1 := by decide
  have hp := hbit s.pending.isSome
  have hi := hbit s.frame.init
  have hr := s.result.code_lt
  have hf := s.frame.fmt.code_lt
  have ht := s.frame.sampleType.code_lt
  rw [State.statusWord, State.bit_err, BitVec.toNat_ofNat]
  split <;> split <;> omega

theorem or_one_mod_two (w : Word) : (w ||| 1#32).toNat % 2 = 1 := by
  rw [BitVec.toNat_or]
  exact Nat.or_mod_two_eq_one.2 (.inr rfl)

/-- Settles O39: with no command pending the fields are read off `State.statusWord_toNat`; with one pending bit 0 is set. -/
theorem statusRegisterFields : Obligations.StatusRegisterFields := by
  intro s
  rw [show (0x0000000C#32) = Reg.status.offset from rfl, busRead_status (addressMap_reg _ _)]
  refine ⟨fun hp => ?_, fun hp => ?_⟩
  · have hb : bit s.pending.isSome = 0 := by rw [hp]; rfl
    have hr := s.result.code_lt
    have hi : bit s.frame.init = (if s.frame.init then 1 else 0) := rfl
    have hi' : (if s.frame.init then 1 else 0) < 2 := by split <;> decide
    have he : (if s.result = .ok then 0 else 1) < 2 := by split <;> decide
    have hf : (if s.frame.init then s.frame.fmt.code else 0) < 8 := by split <;> simp [ChromaFormat.code_lt]
    have ht : (if s.frame.init then s.frame.sampleType.code else 0) < 4 := by split <;> simp [SampleType.code_lt]
    simp only [readStatus_idle hp, State.statusWord_toNat, hb, hi]
    generalize (if s.frame.init then 1 else 0) = i at *
    generalize (if s.result = .ok then 0 else 1) = e at *
    generalize (if s.frame.init then s.frame.fmt.code else 0) = f at *
    generalize (if s.frame.init then s.frame.sampleType.code else 0) = t at *
    omega
  · rw [readStatus_pending (Option.isSome_iff_ne_none.2 hp)]
    exact or_one_mod_two _

theorem dimWord_toNat (w h : Half) : (dimWord w h).toNat = w.toNat + 65536 * h.toNat := by
  rw [dimWord, BitVec.toNat_append, ← Nat.shiftLeft_add_eq_or_of_lt w.isLt, Nat.shiftLeft_eq]
  omega

theorem State.frameInfo_toNat (s : State) :
    s.frameInfo.toNat = if s.frame.init then s.frame.bitDepth.toNat + 256 * s.frame.planes.toNat else 0 := by
  have hd := s.frame.bitDepth.isLt
  have hn := s.frame.planes.toNat_lt
  unfold State.frameInfo
  split
  · rw [BitVec.toNat_ofNat]
    omega
  · rfl

theorem State.yDim_toNat (s : State) :
    s.yDim.toNat = if s.frame.init then s.frame.p1.w.toNat + 65536 * s.frame.p1.h.toNat else 0 := by
  unfold State.yDim
  split
  · exact dimWord_toNat _ _
  · rfl

theorem State.cDim_toNat (s : State) :
    s.cDim.toNat = if s.frame.init = false ∨ s.frame.planes = .one then 0
      else s.frame.p2.w.toNat + 65536 * s.frame.p2.h.toNat := by
  unfold State.cDim
  cases s.frame.init with
  | false => rfl
  | true => cases s.frame.planes <;> simp [dimWord_toNat]

theorem State.outInfo_toNat (s : State) :
    s.outInfo.toNat = s.out.ch.toNat + 16 * s.out.stype.code + (if s.out.valid then 256 else 0) := by
  have hn := s.out.ch.toNat_lt
  have ht := s.out.stype.code_lt
  rw [State.outInfo, BitVec.toNat_ofNat, bit]
  split <;> omega

/-- Outside the busy window a register reads its value. -/
theorem busRead_reg_quiet {s : State} (h : s.busy = false) (r : Reg) : (s.busRead r.offset).2 = s.readReg r := by
  rw [busRead_quiet s _ h, addressMap_reg]
  rfl

/-- Settles O40: outside the busy window each read answers its register, whose value is its fields side by side. -/
theorem mirrorRegisterFields : Obligations.MirrorRegisterFields := fun s h =>
  ⟨(congrArg BitVec.toNat (busRead_reg_quiet h .frameInfo)).trans s.frameInfo_toNat,
    (congrArg BitVec.toNat (busRead_reg_quiet h .yDim)).trans s.yDim_toNat,
    (congrArg BitVec.toNat (busRead_reg_quiet h .cDim)).trans s.cDim_toNat,
    busRead_reg_quiet h .rdata,
    (congrArg BitVec.toNat (busRead_reg_quiet h .outDim)).trans (dimWord_toNat _ _),
    (congrArg BitVec.toNat (busRead_reg_quiet h .outInfo)).trans s.outInfo_toNat⟩

/-! ### Writes outside the busy window -/

theorem busWrite_quiet {s : State} (h : s.busy = false) {off v : Word} {t : Target} (ht : addressMap s.params off = t) :
    s.busWrite off v = .next (s.writeTarget t v) := busWrite_allowed ht (by rw [h, Bool.false_and])

theorem busWrite_reg_quiet {s : State} (h : s.busy = false) (r : Reg) (v : Word) :
    s.busWrite r.offset v = .next (s.writeTarget (.reg r) v) := busWrite_quiet h (addressMap_reg _ r)

/-- Settles O41: a write stores in its register alone and leaves the window closed, so the read answers what was stored. -/
theorem configRegistersReadBack : Obligations.ConfigRegistersReadBack := fun s v h =>
  ⟨⟨_, busWrite_reg_quiet h .inCfg v, rfl, busRead_reg_quiet (s := s.writeTarget (.reg .inCfg) v) h .inCfg⟩,
    ⟨_, busWrite_reg_quiet h .inDim1 v, rfl, busRead_reg_quiet (s := s.writeTarget (.reg .inDim1) v) h .inDim1⟩,
    ⟨_, busWrite_reg_quiet h .inDim2 v, rfl, busRead_reg_quiet (s := s.writeTarget (.reg .inDim2) v) h .inDim2⟩,
    ⟨_, busWrite_reg_quiet h .inDim3 v, rfl, busRead_reg_quiet (s := s.writeTarget (.reg .inDim3) v) h .inDim3⟩,
    ⟨_, busWrite_reg_quiet h .idx v, rfl, busRead_reg_quiet (s := s.writeTarget (.reg .idx) v) h .idx⟩⟩

theorem addressMap_inCell_of_lt {p : Params} {k : PlaneId} {n : Nat} (hn : 4 * n < 2 ^ 28) (h : n < bufferCells p) :
    addressMap p (BitVec.ofNat 32 (inAddr k n)) = .inCell k n := by
  rw [addressMap_inCell p k n hn, inTarget, if_pos h]

theorem addressMap_inCell_of_ge {p : Params} {k : PlaneId} {n : Nat} (hn : 4 * n < 2 ^ 28) (h : bufferCells p ≤ n) :
    addressMap p (BitVec.ofNat 32 (inAddr k n)) = .hole := by
  rw [addressMap_inCell p k n hn, inTarget, if_neg (Nat.not_lt.2 h)]

/-- The lanes of a stored word are the bytes of its cell (R67). -/
theorem memByte_writeTarget_inCell (s : State) (k : PlaneId) (n : Nat) (v : Word) {i : Nat} (hi : i < 4) :
    (s.writeTarget (.inCell k n) v).memByte (inAddr k n + i) = byteLane v i := by
  have hr : (s.writeTarget (.inCell k n) v).mem.read? (inAddr k n + i) = some (byteLane v i) :=
    Memory.read?_writeWord_lane _ _ _ _ hi
  rw [State.memByte, hr]

/-- A stored cell reads back (R67, R68). -/
theorem readTarget_writeTarget_inCell (s : State) (k : PlaneId) (n : Nat) (v : Word) :
    (s.writeTarget (.inCell k n) v).readTarget (.inCell k n) = v :=
  State.memWord_of_lanes _ _ _ fun _ hi => Memory.read?_writeWord_lane _ _ _ _ hi

/-- Settles O42: cell n is addressed below the buffer's end, and a hole from there on. -/
theorem stagedCellReadsBack : Obligations.StagedCellReadsBack := by
  intro s k n v _ h hn
  refine ⟨fun hlt => ?_, fun hge => ?_⟩
  · have hmap : addressMap s.params (BitVec.ofNat 32 (inAddr k n)) = .inCell k n := addressMap_inCell_of_lt hn hlt
    refine ⟨_, busWrite_quiet h hmap, rfl, ?_, fun i hi => memByte_writeTarget_inCell s k n v hi, fun a ha => ?_⟩
    · have hread := busRead_stable (s := s.writeTarget (.inCell k n) v) hmap nofun (Bool.and_false _)
      rwa [readTarget_writeTarget_inCell] at hread
    · exact State.memByte_eq_of_read? _ _ _ (Memory.read?_writeWord_other _ _ _ _ ha) rfl
  · have hmap : addressMap s.params (BitVec.ofNat 32 (inAddr k n)) = .hole := addressMap_inCell_of_ge hn hge
    exact ⟨busWrite_quiet h hmap, busRead_stable hmap nofun (Bool.and_false _)⟩

/-! ### The busy window -/

theorem engineTurn_keeps_busyWindow {s t : State} (h : engineTurn s = .next t) : t.busyWindow = s.busyWindow := by
  rcases engineTurn_cases h with ⟨-, rfl⟩ | ⟨w, -, hw⟩
  · rfl
  rcases runWord_cases hw with ⟨i, -, hi⟩ | rfl
  · rw [exec_writes hi]
  · rfl

/-- Settles O46: guarded targets refuse, result targets draw, the others read as they are. -/
theorem busyWindowProtocol : Obligations.BusyWindowProtocol := by
  intro s off v
  refine ⟨fun h => busWrite_reg_quiet h .cmd v, fun hb => ⟨fun hg => ?_, fun hr => ?_⟩, fun ht => ?_, fun hp => ?_,
    fun hp => ?_, fun t ht => engineTurn_keeps_busyWindow ht⟩
  · rcases hg with hg | hg | hg | hg | hg | hg | ⟨k, n, hg⟩ <;> exact busWrite_refused hg hb rfl
  · rcases hr with hr | hr | hr | hr | hr | hr | ⟨n, hr⟩ <;> exact busRead_draw hr hb rfl
  · rcases ht with ht | ht | ht | ht | ht | ht | ht | ⟨k, n, ht⟩ <;> rw [ht] <;>
      exact busRead_stable ht nofun (Bool.and_false _)
  · exact (busRead_status (addressMap_reg s.params .status)).trans
      (readStatus_pending (Option.isSome_iff_ne_none.2 hp))
  · exact (busRead_status (addressMap_reg s.params .status)).trans (readStatus_idle hp)

end Sys2Proof.Machine
end

section
/-! PROOFS. Classification and the upsampling filter's contract (spec 40_load R116, R118; 43_upsample R150, R151; 10_state
R24, R30). -/

open Sys2Proof Sys2Proof.Machine

namespace Sys2Proof.Machine

/-- Settles O15: with positive luma dimensions the rows before the one whose ratio holds do not match. -/
theorem classifyByExactRatio : Obligations.ClassifyByExactRatio := by
  intro yW yH uW uH f hw hh
  constructor
  · intro h
    rcases classify_some h with ⟨rfl, hx, hy⟩ | ⟨rfl, hx, hy⟩ | ⟨rfl, hx, hy⟩ | ⟨rfl, hx, hy⟩ | ⟨rfl, hx, hy⟩ <;>
      exact ⟨nofun, by omega, by omega⟩
  · rintro ⟨hgray, hfits⟩
    unfold classify
    cases f with
    | gray => exact absurd rfl hgray
    | yuv444 =>
      obtain ⟨hx, hy⟩ := hfits
      rw [if_pos (by omega)]
    | yuv422 =>
      obtain ⟨hx, hy⟩ := hfits
      rw [if_neg (by omega), if_pos (by omega)]
    | yuv420 =>
      obtain ⟨hx, hy⟩ := hfits
      rw [if_neg (by omega), if_neg (by omega), if_pos (by omega)]
    | yuv411 =>
      obtain ⟨hx, hy⟩ := hfits
      rw [if_neg (by omega), if_neg (by omega), if_neg (by omega), if_pos (by omega)]
    | yuv440 =>
      obtain ⟨hx, hy⟩ := hfits
      rw [if_neg (by omega), if_neg (by omega), if_neg (by omega), if_neg (by omega), if_pos (by omega)]

/-! ### The filter's cells -/

theorem toNat_ofInt_le {z : Int} {hi : Nat} (h0 : 0 ≤ z) (hz : z ≤ hi) (h : hi < 2 ^ 32) :
    (BitVec.ofInt 32 z).toNat ≤ hi := by
  rw [BitVec.toNat_ofInt]
  omega

theorem toNat_ofInt_clampInt_le (z : Int) {hi : Nat} (h : hi < 2 ^ 32) :
    (BitVec.ofInt 32 (clampInt z 0 hi)).toNat ≤ hi :=
  toNat_ofInt_le (by unfold clampInt; omega) (by unfold clampInt; omega) h

/-- Integer outputs are saturated to the storage range (R155). -/
theorem lanczosRound_lt (acc : Int) {t : SampleType} (ht : t ≠ .f32) : (lanczosRound acc t).toNat < 2 ^ t.width := by
  cases t with
  | u8 => exact Nat.lt_succ_of_le (toNat_ofInt_clampInt_le (hi := 2 ^ 8 - 1) _ (by decide))
  | u16 => exact Nat.lt_succ_of_le (toNat_ofInt_clampInt_le (hi := 2 ^ 16 - 1) _ (by decide))
  | f32 => exact absurd rfl ht

theorem conform_lt (w : Word) {t : SampleType} (ht : t ≠ .f32) : (conform t w).toNat < 2 ^ t.width := by
  cases t with
  | u8 =>
    have h : (conform .u8 w).toNat = w.toNat % 2 ^ 8 % 2 ^ 32 := BitVec.toNat_ofNat ..
    rw [h, SampleType.width]
    omega
  | u16 =>
    have h : (conform .u16 w).toNat = w.toNat % 2 ^ 16 % 2 ^ 32 := BitVec.toNat_ofNat ..
    rw [h, SampleType.width]
    omega
  | f32 => exact absurd rfl ht

/-- Whichever the filter, an integer cell of its result fits its type (R24, R151). -/
theorem filterCell_lt (choice : FilterChoice) (x : Plane) (w h n : Nat) {t : SampleType} (ht : t ≠ .f32) :
    (filterCell choice x w h t n).toNat < 2 ^ t.width := by
  cases choice with
  | other => exact conform_lt _ ht
  | lanczos3Q14 =>
    unfold filterCell
    dsimp only
    split
    · exact lanczosRound_lt _ ht
    · exact conform_lt _ ht

theorem forall_mem_upsampleFilter {choice : FilterChoice} {x : Plane} {w h : Half} {t : SampleType} {P : Word → Prop}
    (hP : ∀ n, P (filterCell choice x w.toNat h.toNat t n)) : ∀ c ∈ (upsampleFilter choice x w h t).cells, P c := by
  intro c hc
  obtain ⟨n, -, rfl⟩ := List.mem_map.1 hc
  exact hP n

/-- Settles O23: every cell is saturated or cut to its type, an uninterpreted filter's binary32 cell made finite. -/
theorem filterMeetsItsContract : Obligations.FilterMeetsItsContract := by
  intro choice x w h t
  refine ⟨rfl, rfl, upsampleFilter_length .., fun ht => forall_mem_upsampleFilter fun n => filterCell_lt _ _ _ _ n ht, ?_⟩
  rintro rfl rfl
  exact forall_mem_upsampleFilter fun n => (F32.specFinite_iff _).2 (F32.finite_toFinite _)

theorem upsampleCheck_of_subsampled {s : State} (hi : s.frame.init = true) (hg : s.frame.fmt ≠ .gray)
    (hs : ¬(s.frame.p2.w = s.frame.p1.w ∧ s.frame.p2.h = s.frame.p1.h)) : s.upsampleCheck = .ok () := by
  simp only [State.upsampleCheck, hi, hg, hs, Bool.true_eq_false, if_false]

/-- UPSAMPLE's body runs when its checks pass (R150). -/
theorem exec_upsample_of_ok {s : State} (h : s.upsampleCheck = .ok ()) :
    exec .upsample s = .next (State.finish { s with frame := s.upsampledFrame }) :=
  (finishOrRaise_map s _ _).trans (by rw [h])

/-- Settles O22: both chroma planes are the filter's, so its contract is the statement. -/
theorem upsampleCompletesForEveryFilter : Obligations.UpsampleCompletesForEveryFilter := by
  intro s hi hg hs
  refine ⟨_, exec_upsample_of_ok (upsampleCheck_of_subsampled hi hg hs), rfl, rfl, fun k hk => ?_⟩
  have contract := fun x => filterMeetsItsContract s.params.upsampleFilter x s.frame.p1.w s.frame.p1.h s.frame.sampleType
  cases k with
  | plane1 => exact absurd rfl hk
  | plane2 => exact contract s.frame.p2
  | plane3 => exact contract s.frame.p3

end Sys2Proof.Machine
end

section
/-! PROOFS. The form of cells (spec 10_state R24, R29, R30): what division, the filter and the colour conversion do to a
finite bounded value, that TO_RGB's outputs lie in range (R171, R172), and that every step keeps every cell's form. -/

open Sys2Proof Sys2Proof.Machine

namespace Sys2Proof.Machine

/-- Every cell of a plane register has the form of type t, a binary32 one bounded. -/
def Plane.Formed (t : SampleType) (bound : Nat) (x : Plane) : Prop := ∀ w ∈ x.cells, cellForm t bound w

theorem Frame.CellsFormed.plane {p : Params} {f : Frame} (h : f.CellsFormed p) (hi : f.init = true)
    (h3 : f.planes = .three) (k : PlaneId) : (f.plane k).Formed f.sampleType (floatBound p.upsampleFilter f.fmt) := by
  cases k with
  | plane1 => exact h.p1 hi
  | plane2 => exact h.p2 hi h3
  | plane3 => exact h.p3 hi h3

theorem Frame.CellsFormed.of_planes {p : Params} {f : Frame}
    (h : ∀ k, (f.plane k).Formed f.sampleType (floatBound p.upsampleFilter f.fmt)) : f.CellsFormed p :=
  ⟨fun _ => h .plane1, fun _ _ => h .plane2, fun _ _ => h .plane3⟩

theorem Frame.CellsFormed.congr {s t : State} (h : s.frame.CellsFormed s.params) (hf : t.frame = s.frame)
    (hp : t.params = s.params) : t.frame.CellsFormed t.params := by
  rw [hf, hp]
  exact h

/-- An integer cell fits its type's width (R24). -/
theorem cellForm_of_lt {t : SampleType} (ht : t ≠ .f32) {w : Word} (h : w.toNat < 2 ^ t.width) (bound : Nat) :
    cellForm t bound w := by
  cases t with
  | u8 => exact h
  | u16 => exact h
  | f32 => exact absurd rfl ht

theorem cellForm_mono {t : SampleType} {a b : Nat} (hab : a ≤ b) {w : Word} (h : cellForm t a w) : cellForm t b w := by
  cases t with
  | u8 => exact h
  | u16 => exact h
  | f32 => exact ⟨h.1, Nat.le_trans h.2 hab⟩

theorem Plane.Formed.mono {t : SampleType} {a b : Nat} {x : Plane} (hab : a ≤ b) (h : x.Formed t a) : x.Formed t b :=
  fun w hw => cellForm_mono hab (h w hw)

/-- A list access answers a listed cell, or 0 past the end (log 8). -/
theorem Plane.cellAt_mem_or_zero (x : Plane) (n : Nat) : x.cellAt n ∈ x.cells ∨ x.cellAt n = 0 := by
  unfold Plane.cellAt
  rw [List.getD_eq_getElem?_getD]
  cases h : x.cells[n]? with
  | none => exact .inr rfl
  | some c => exact .inl (List.mem_of_getElem? h)

theorem cellForm_zero (t : SampleType) (bound : Nat) : cellForm t bound 0 := by
  cases t with
  | u8 => exact (by decide : (0 : Word).toNat < 2 ^ 8)
  | u16 => exact (by decide : (0 : Word).toNat < 2 ^ 16)
  | f32 => exact ⟨by decide, Nat.le_trans (Nat.le_of_eq (by decide)) (Nat.zero_le bound)⟩

theorem Plane.Formed.cellAt {t : SampleType} {bound : Nat} {x : Plane} (h : x.Formed t bound) (n : Nat) :
    cellForm t bound (x.cellAt n) := by
  rcases x.cellAt_mem_or_zero n with hm | h0
  · exact h _ hm
  · rw [h0]
    exact cellForm_zero t bound

/-! ### The bounds -/

/-- 65535, the largest magnitude before chroma is upsampled, in units of 2^-149 (R30). -/
theorem floatBound_of_ne_yuv444 (filter : FilterChoice) {fmt : ChromaFormat} (h : fmt ≠ .yuv444) :
    floatBound filter fmt = 65535 * 2 ^ 149 := if_neg h

theorem le_floatBound (filter : FilterChoice) (fmt : ChromaFormat) : 65535 * 2 ^ 149 ≤ floatBound filter fmt := by
  by_cases h : fmt = .yuv444
  · subst h
    cases filter <;> decide
  · exact Nat.le_of_eq (floatBound_of_ne_yuv444 filter h).symm

/-- Each bound is the magnitude of a finite value, so rounding does not pass it. -/
theorem floatBound_code (filter : FilterChoice) (fmt : ChromaFormat) :
    ∃ c < 0x7F800000, F32.codeMag c = floatBound filter fmt := by
  by_cases h : fmt = .yuv444
  · subst h
    cases filter with
    | lanczos3Q14 =>
      obtain ⟨c, hc, hm⟩ := F32.exists_code_of_lt (n := 2 * 65535) (by decide)
      exact ⟨c, hc, hm.trans (Nat.mul_assoc ..)⟩
    | other => exact ⟨0x7F7FFFFF, by decide, by decide⟩
  · rw [floatBound_of_ne_yuv444 filter h]
    exact F32.exists_code_of_lt (by decide)

namespace F32

/-- Rounding to a representable bound stays finite and within it. -/
theorem cellForm_pack_roundMag (negative : Bool) {num den bound : Nat} (hd : 0 < den)
    (hb : ∃ c < 0x7F800000, codeMag c = bound) (h : num ≤ bound * den) :
    cellForm .f32 bound (pack negative (roundMag num den)) := by
  obtain ⟨c, hc, rfl⟩ := hb
  obtain ⟨hfin, hle⟩ := mag_pack_roundMag_le negative hd hc h
  refine ⟨hfin, ?_⟩
  rw [mag_pack _ (roundMag_lt num den)]
  exact codeMag_mono (Nat.le_of_lt hc) hle

theorem mag_eq_natAbs (w : Word) : mag w = (scaled w).natAbs := by rw [scaled_eq_signed, natAbs_signed]

theorem mag_ofNat {n : Nat} (h : n < 2 ^ 24) : mag (ofNat n) = n * 2 ^ 149 := by
  rw [mag_eq_natAbs, (ofNat_exact h).2]
  omega

/-- Division by a value of at least 1 keeps a bound. -/
theorem cellForm_div {x y : Word} {bound : Nat} (hb : ∃ c < 0x7F800000, codeMag c = bound) (hx : cellForm .f32 bound x)
    (hy : finite y = true) (hone : 2 ^ 149 ≤ mag y) : cellForm .f32 bound (div x y) := by
  have hpos : 0 < mag y := Nat.lt_of_lt_of_le (Nat.two_pow_pos _) hone
  rw [div_of_finite hx.1 hy (Nat.pos_iff_ne_zero.1 hpos)]
  exact cellForm_pack_roundMag _ hpos hb (Nat.mul_le_mul hx.2 hone)

end F32

open F32

/-! ### NORMALIZE -/

theorem fullScale_bounds {bd : BitVec 5} (h1 : 1 ≤ bd.toNat) (h16 : bd.toNat ≤ 16) :
    1 ≤ fullScale bd ∧ fullScale bd ≤ 65535 := by
  have hlo : 2 ^ 1 ≤ 2 ^ bd.toNat := Nat.pow_le_pow_right (by decide) h1
  have hhi : 2 ^ bd.toNat ≤ 2 ^ 16 := Nat.pow_le_pow_right (by decide) h16
  unfold fullScale
  omega

theorem normDivisor_bounds (t : SampleType) {bd : BitVec 5} (h1 : 1 ≤ bd.toNat) (h16 : bd.toNat ≤ 16) :
    1 ≤ normDivisor t bd ∧ normDivisor t bd ≤ 65535 := by
  cases t with
  | u8 => exact (by decide : 1 ≤ 255 ∧ 255 ≤ 65535)
  | u16 => exact fullScale_bounds h1 h16
  | f32 => exact fullScale_bounds h1 h16

theorem cellForm_ofNat {n bound : Nat} (hn : n ≤ 65535) (hb : 65535 * 2 ^ 149 ≤ bound) :
    cellForm .f32 bound (F32.ofNat n) := by
  have h24 : n < 2 ^ 24 := by omega
  refine ⟨(ofNat_exact h24).1, ?_⟩
  rw [mag_ofNat h24]
  exact Nat.le_trans (Nat.mul_le_mul_right _ hn) hb

theorem cellForm_cellAsF32 {t : SampleType} {bound : Nat} {w : Word} (hb : 65535 * 2 ^ 149 ≤ bound)
    (h : cellForm t bound w) : cellForm .f32 bound (cellAsF32 t w) := by
  cases t with
  | u8 => exact cellForm_ofNat (show w.toNat % 2 ^ 8 ≤ 65535 by omega) hb
  | u16 => exact cellForm_ofNat (show w.toNat % 2 ^ 16 ≤ 65535 by omega) hb
  | f32 => exact h

/-- A normalized cell is finite and keeps the bound: the divisor is at least 1 (R140, R142). -/
theorem cellForm_normalizeCell {t : SampleType} {bd : BitVec 5} {bound : Nat} {w : Word}
    (hb : 65535 * 2 ^ 149 ≤ bound) (hc : ∃ c < 0x7F800000, codeMag c = bound) (h1 : 1 ≤ bd.toNat) (h16 : bd.toNat ≤ 16)
    (h : cellForm t bound w) : cellForm .f32 bound (normalizeCell t bd w) := by
  obtain ⟨hlo, hhi⟩ := normDivisor_bounds t h1 h16
  have h24 : normDivisor t bd < 2 ^ 24 := by omega
  refine cellForm_div hc (cellForm_cellAsF32 hb h) (ofNat_exact h24).1 ?_
  rw [mag_ofNat h24]
  exact Nat.le_mul_of_pos_left _ hlo

theorem Plane.Formed.mapCells {t u : SampleType} {bound : Nat} {x : Plane} {g : Word → Word} (h : x.Formed t bound)
    (hg : ∀ w, cellForm t bound w → cellForm u bound (g w)) : (x.mapCells g).Formed u bound := by
  intro w hw
  obtain ⟨v, hv, rfl⟩ := List.mem_map.1 hw
  exact hg v (h v hv)

theorem Frame.normalized_formed {p : Params} {f : Frame} (hl : f.Loaded p) (hi : f.init = true) (h : f.CellsFormed p) :
    f.normalized.CellsFormed p := by
  have key : ∀ {x : Plane}, x.Formed f.sampleType (floatBound p.upsampleFilter f.fmt) →
      (x.mapCells (normalizeCell f.sampleType f.bitDepth)).Formed .f32 (floatBound p.upsampleFilter f.fmt) :=
    fun hx => hx.mapCells fun w =>
      cellForm_normalizeCell (le_floatBound _ _) (floatBound_code _ _) hl.depthPos hl.depthMax
  cases hp : f.planes with
  | none => exact absurd hp hl.some
  | one =>
    rw [Frame.normalized, Frame.mapPresent_one _ hp]
    have no : ∀ {q : Prop}, f.planes = .three → q := fun h3 => absurd (hp.symm.trans h3) (by decide)
    exact ⟨fun _ => key (h.p1 hi), fun _ => no, fun _ => no⟩
  | three =>
    rw [Frame.normalized, Frame.mapPresent_three _ hp]
    exact ⟨fun _ => key (h.p1 hi), fun _ _ => key (h.p2 hi hp), fun _ _ => key (h.p3 hi hp)⟩

/-! ### LOAD -/

theorem loadCell_lt (t tk : SampleType) (w : Word) : (loadCell t tk w).toNat < 2 ^ t.width := by
  have hpow : 2 ^ min t.width tk.width ≤ 2 ^ t.width := Nat.pow_le_pow_right (by decide) (Nat.min_le_left _ _)
  have hmod : w.toNat % 2 ^ min t.width tk.width < 2 ^ min t.width tk.width := Nat.mod_lt _ (Nat.two_pow_pos _)
  rw [loadCell, BitVec.toNat_ofNat]
  exact Nat.lt_of_le_of_lt (Nat.mod_le _ _) (Nat.lt_of_lt_of_le hmod hpow)

theorem State.loadFrame_formed {s : State} {f : ChromaFormat} (h : s.loadCheck = .ok f) (p : Params) :
    (s.loadFrame f).CellsFormed p := by
  have ht : s.elemType .plane1 ≠ .f32 := (elemType_of_loadCheck h).2
  have loaded : ∀ k bound, (s.loadPlane k).Formed (s.elemType .plane1) bound := by
    intro k bound w hw
    obtain ⟨n, -, rfl⟩ := List.mem_map.1 hw
    exact cellForm_of_lt ht (loadCell_lt _ _ _) bound
  have orAbsent : ∀ k bound, (if cfgPlanes s.inCfg = 1 then Plane.absent else s.loadPlane k).Formed
      (s.elemType .plane1) bound := by
    intro k bound
    split
    · exact nofun
    · exact loaded k bound
  exact ⟨fun _ => loaded _ _, fun _ _ => orAbsent _ _, fun _ _ => orAbsent _ _⟩

/-! ### UPSAMPLE -/

/-- The magnitudes of the coefficients of phase p, summed (R154). -/
def tapGain (f p : Nat) : Nat := ((taps f p).2.map Int.natAbs).sum

theorem tapGain_one (p : Nat) : tapGain 1 p = 16384 := rfl

theorem tapGain_two_le (p : Nat) : tapGain 2 p ≤ 22980 := by
  match p with
  | 0 => decide
  | 1 => decide
  | _ + 2 => exact (by decide : 16384 ≤ 22980)

theorem tapGain_four_le (p : Nat) : tapGain 4 p ≤ 24706 := by
  match p with
  | 0 => decide
  | 1 => decide
  | 2 => decide
  | 3 => decide
  | _ + 4 => exact (by decide : 16384 ≤ 24706)

/-- The factors a subsampled format has: 2 across both axes, or more on one axis and 1 on the other (R29, R151). -/
def subsamplingFactors (fx fy : Nat) : Prop := (fx = 1 ∨ fx = 2 ∨ fx = 4) ∧ (fy = 1 ∨ (fy = 2 ∧ fx ≠ 4))

/-- For a subsampled format's factors the products of both axes' coefficients sum in magnitude to at most 2·2^28 (R154). -/
theorem tapGain_mul_le {fx fy : Nat} (h : subsamplingFactors fx fy) (px py : Nat) :
    tapGain fy py * tapGain fx px ≤ 2 * 2 ^ 28 := by
  obtain ⟨hfx, hfy⟩ := h
  have hx2 : fx ≠ 4 → tapGain fx px ≤ 22980 := by
    rintro h4
    rcases hfx with rfl | rfl | rfl
    · rw [tapGain_one]
      decide
    · exact tapGain_two_le px
    · exact absurd rfl h4
  have hx4 : tapGain fx px ≤ 24706 := by
    by_cases h4 : fx = 4
    · rw [h4]
      exact tapGain_four_le px
    · exact Nat.le_trans (hx2 h4) (by decide)
  rcases hfy with rfl | ⟨rfl, h4⟩
  · exact Nat.le_trans (Nat.mul_le_mul (Nat.le_of_eq (tapGain_one py)) hx4) (by decide)
  · exact Nat.le_trans (Nat.mul_le_mul (tapGain_two_le py) (hx2 h4)) (by decide)

/-- A weighted sum of values of magnitude at most B is at most B times the weights' magnitudes. -/
theorem natAbs_sumInt_le (l : List (Int × Nat)) (g : Nat → Int) {B : Nat} (h : ∀ j, (g j).natAbs ≤ B) :
    (sumInt (l.map fun t => t.1 * g t.2)).natAbs ≤ (l.map fun t => t.1.natAbs).sum * B := by
  induction l with
  | nil => exact Nat.zero_le _
  | cons t l ih =>
    have hhead : (t.1 * g t.2).natAbs ≤ t.1.natAbs * B := by
      rw [Int.natAbs_mul]
      exact Nat.mul_le_mul_left _ (h _)
    calc (t.1 * g t.2 + sumInt (l.map fun t => t.1 * g t.2)).natAbs
        ≤ (t.1 * g t.2).natAbs + (sumInt (l.map fun t => t.1 * g t.2)).natAbs := Int.natAbs_add_le _ _
      _ ≤ t.1.natAbs * B + (l.map fun t => t.1.natAbs).sum * B := Nat.add_le_add hhead ih
      _ = _ := by rw [List.map_cons, List.sum_cons, Nat.add_mul]

/-- An axis's taps carry the coefficients of its phase. -/
theorem axisTaps_gain (f o n : Nat) : ((axisTaps f o n).map fun t => t.1.natAbs).sum = tapGain f (o % f) := by
  have hcoeff : (axisTaps f o n).map Prod.fst = (taps f (o % f)).2 := by
    rw [axisTaps, List.map_map]
    exact List.zipIdx_map_fst ..
  rw [tapGain, ← hcoeff, List.map_map]
  rfl

theorem lanczosAcc_natAbs_le {x : Plane} {fx fy : Nat} (hf : subsamplingFactors fx fy) (r c : Nat) {B : Nat}
    (hx : x.Formed .f32 B) : (lanczosAcc x fx fy r c .f32).natAbs ≤ 2 * B * 2 ^ 28 := by
  have hcell : ∀ i j, (scaledVal (x.cell i j) .f32).natAbs ≤ B := by
    intro i j
    show (scaled (x.cellAt _)).natAbs ≤ B
    rw [← mag_eq_natAbs]
    exact (hx.cellAt _).2
  have hrow := fun i => natAbs_sumInt_le (axisTaps fx c x.w.toNat) (fun j => scaledVal (x.cell i j) .f32) (hcell i)
  have hall := natAbs_sumInt_le (axisTaps fy r x.h.toNat) _ hrow
  rw [axisTaps_gain, axisTaps_gain, ← Nat.mul_assoc] at hall
  calc _ ≤ tapGain fy (r % fy) * tapGain fx (c % fx) * B := hall
    _ ≤ 2 * 2 ^ 28 * B := Nat.mul_le_mul_right _ (tapGain_mul_le hf _ _)
    _ = _ := by ring

/-- An axis whose target is an allowed factor times its source has that factor (R151). -/
theorem axisFactor_of_mul {allowed : List Nat} {f source target : Nat} (hf : f ∈ allowed) (hs : 1 ≤ source)
    (ht : f * source = target) : axisFactor allowed target source = some f := by
  unfold axisFactor
  cases hfind : allowed.find? fun g => decide (g * source = target) with
  | none => exact absurd (decide_eq_true ht) (List.find?_eq_none.1 hfind f hf)
  | some g =>
    have hg : g * source = target := by simpa using List.find?_some hfind
    rw [Nat.eq_of_mul_eq_mul_right hs (hg.trans ht.symm)]

/-- A subsampled format's chroma dimensions have admissible factors (R29, R151). -/
theorem chromaFits_factors {fmt : ChromaFormat} {yW yH uW uH : Nat} (hg : fmt ≠ .gray) (h : chromaFits fmt yW yH uW uH) :
    ∃ fx fy, subsamplingFactors fx fy ∧ fx * uW = yW ∧ fy * uH = yH := by
  cases fmt with
  | gray => exact absurd rfl hg
  | yuv444 => exact ⟨1, 1, ⟨by decide, by decide⟩, by rw [Nat.one_mul, h.1], by rw [Nat.one_mul, h.2]⟩
  | yuv422 => exact ⟨2, 1, ⟨by decide, by decide⟩, h.1, by rw [Nat.one_mul, h.2]⟩
  | yuv420 => exact ⟨2, 2, ⟨by decide, by decide⟩, h.1, h.2⟩
  | yuv411 => exact ⟨4, 1, ⟨by decide, by decide⟩, h.1, by rw [Nat.one_mul, h.2]⟩
  | yuv440 => exact ⟨1, 2, ⟨by decide, by decide⟩, by rw [Nat.one_mul, h.1], h.2⟩

/-- A finite plane whose dimensions have admissible factors lies in the filter's domain (R151). -/
theorem filterFactors_of_subsampling {x : Plane} {w h fx fy B : Nat} (hf : subsamplingFactors fx fy)
    (hx : x.Formed .f32 B) (hw : 1 ≤ x.w.toNat) (hh : 1 ≤ x.h.toNat) (hfw : fx * x.w.toNat = w)
    (hfh : fy * x.h.toNat = h) : filterFactors x w h .f32 = some (fx, fy) := by
  obtain ⟨hfx, hfy⟩ := hf
  have hdef : x.valuesDefined .f32 = true := List.all_eq_true.2 fun c hc => (hx c hc).1
  have hmx : fx ∈ [1, 2, 4] := by simpa using hfx
  have hmy : fy ∈ [1, 2] := by simpa using hfy.imp id And.left
  simp only [filterFactors, axisFactor_of_mul hmx hw hfw, axisFactor_of_mul hmy hh hfh, hdef, if_true]

/-- A binary32 plane of a subsampled frame is upsampled to finite cells within the bound of a YUV444 frame (R30). -/
theorem upsampleFilter_formed_f32 (choice : FilterChoice) {x : Plane} {w h : Half} {fx fy : Nat}
    (hf : subsamplingFactors fx fy) (hx : x.Formed .f32 (65535 * 2 ^ 149)) (hw : 1 ≤ x.w.toNat) (hh : 1 ≤ x.h.toNat)
    (hfw : fx * x.w.toNat = w.toNat) (hfh : fy * x.h.toNat = h.toNat) :
    (upsampleFilter choice x w h .f32).Formed .f32 (floatBound choice .yuv444) := by
  refine forall_mem_upsampleFilter fun n => ?_
  cases choice with
  | other => exact ⟨finite_toFinite _, mag_le_of_finite (finite_toFinite _)⟩
  | lanczos3Q14 =>
    simp only [filterCell, filterFactors_of_subsampling hf hx hw hh hfw hfh]
    exact cellForm_pack_roundMag _ (Nat.two_pow_pos _) (floatBound_code .lanczos3Q14 .yuv444)
      (lanczosAcc_natAbs_le hf _ _ hx)

theorem State.upsampledFrame_formed {s : State} (hl : s.frame.Loaded s.params) (h : s.frame.CellsFormed s.params)
    (hc : s.upsampleCheck = .ok ()) : s.upsampledFrame.CellsFormed s.params := by
  obtain ⟨hi, hg, hsub⟩ := upsampleCheck_ok hc
  have h4 : s.frame.fmt ≠ .yuv444 := fun h4 => hsub ⟨(hl.full h4).2.1, (hl.full h4).2.2.1⟩
  have h3 : s.frame.planes = .three := by
    cases hp : s.frame.planes with
    | none => exact absurd hp hl.some
    | one => exact absurd (hl.gray.1 hp) hg
    | three => rfl
  obtain ⟨fx, fy, hf, hfw, hfh⟩ := chromaFits_factors hg (hl.fits h3)
  obtain ⟨hw23, hh23⟩ := hl.sameDims h3
  have hb := floatBound_of_ne_yuv444 s.params.upsampleFilter h4
  have key : ∀ x : Plane, x.Wf s.params → x.w = s.frame.p2.w → x.h = s.frame.p2.h →
      x.Formed s.frame.sampleType (65535 * 2 ^ 149) →
      (upsampleFilter s.params.upsampleFilter x s.frame.p1.w s.frame.p1.h s.frame.sampleType).Formed s.frame.sampleType
        (floatBound s.params.upsampleFilter .yuv444) := by
    intro x hwf hxw hxh hx
    by_cases ht : s.frame.sampleType = .f32
    · rw [ht] at hx ⊢
      exact upsampleFilter_formed_f32 _ hf hx hwf.wPos hwf.hPos (by rw [hxw, hfw]) (by rw [hxh, hfh])
    · exact forall_mem_upsampleFilter fun n => cellForm_of_lt ht (filterCell_lt _ _ _ _ n ht) _
  refine ⟨fun _ => ?_, fun _ _ => ?_, fun _ _ => ?_⟩
  · exact Plane.Formed.mono (Nat.le_trans (Nat.le_of_eq hb) (le_floatBound _ _)) (h.p1 hi)
  · exact key _ (hl.p2 h3) rfl rfl (hb ▸ h.p2 hi h3)
  · exact key _ (hl.p3 h3) hw23.symm hh23.symm (hb ▸ h.p3 hi h3)

/-! ### TO_RGB -/

/-- A finite value in [0, 1]. -/
def inUnit (x : Word) : Prop := finite x = true ∧ 0 ≤ scaled x ∧ scaled x ≤ 2 ^ 149

theorem sign_of_scaled_nonneg {x : Word} (h : 0 ≤ scaled x) (hm : mag x ≠ 0) : sign x = false := by
  cases hs : sign x with
  | false => rfl
  | true =>
    rw [scaled_eq_signed, hs] at h
    have : 0 ≤ -(mag x : Int) := h
    omega

/-- The product of two values that are not negative is not negative. -/
theorem scaled_mul_nonneg {x y : Word} (hx : finite x = true) (hy : finite y = true) (hx0 : 0 ≤ scaled x)
    (hy0 : 0 ≤ scaled y) : 0 ≤ scaled (mul x y) := by
  rw [mul_of_finite hx hy]
  by_cases hz : mag x * mag y = 0
  · rw [hz, roundMag_zero (Nat.two_pow_pos _)]
    generalize (sign x ^^ sign y) = negative
    revert negative
    decide
  · obtain ⟨hmx, hmy⟩ := Nat.mul_ne_zero_iff.1 hz
    rw [sign_of_scaled_nonneg hx0 hmx, sign_of_scaled_nonneg hy0 hmy, scaled_pack _ (roundMag_lt _ _)]
    exact Int.natCast_nonneg _

/-- A value in [0, 1] times a natural number d lies in [0, d] (R172). -/
theorem mul_ofNat_range {x : Word} (hx : inUnit x) {d : Nat} (hd : d < 2 ^ 24) :
    finite (mul x (F32.ofNat d)) = true ∧ 0 ≤ scaled (mul x (F32.ofNat d)) ∧
      scaled (mul x (F32.ofNat d)) ≤ d * 2 ^ 149 := by
  obtain ⟨hfin, h0, h1⟩ := hx
  obtain ⟨hdfin, hdval⟩ := ofNat_exact hd
  have hmag : mag x * mag (F32.ofNat d) ≤ d * 2 ^ 149 * 2 ^ 149 := by
    rw [mag_ofNat hd, Nat.mul_comm]
    exact Nat.mul_le_mul_left _ (by rw [mag_eq_natAbs]; omega)
  have hform : cellForm .f32 (d * 2 ^ 149) (mul x (F32.ofNat d)) := by
    rw [mul_of_finite hfin hdfin]
    exact cellForm_pack_roundMag _ (Nat.two_pow_pos _) (exists_code_of_lt hd) hmag
  obtain ⟨hpfin, hpmag⟩ := hform
  have hp0 := scaled_mul_nonneg hfin hdfin h0 (by omega)
  rw [mag_eq_natAbs] at hpmag
  exact ⟨hpfin, hp0, by omega⟩

/-- The re-cast of a value in [0, d] lies in [0, d], whichever way it rounds (R172). -/
theorem toNat_cast_le (cr : CastRound) {x : Word} {d : Nat} (hx : finite x = true) (h0 : 0 ≤ scaled x)
    (h1 : scaled x ≤ d * 2 ^ 149) (hd : d < 2 ^ 32) : (cast cr x).toNat ≤ d := by
  cases cr with
  | trunc =>
    rw [cast_trunc hx, Int.tdiv_eq_ediv_of_nonneg h0]
    exact toNat_ofInt_le (by omega) (by omega) hd
  | rne =>
    have hr : rheInt (scaled x) (2 ^ 149) = rheNat (scaled x).natAbs (2 ^ 149) := if_neg (by omega)
    have hle : rheNat (scaled x).natAbs (2 ^ 149) ≤ d := rheNat_le (Nat.two_pow_pos _) (by omega)
    rw [cast_rne hx, hr]
    exact toNat_ofInt_le (Int.natCast_nonneg _) (by exact_mod_cast hle) hd

/-- A converted value is stored as at most full scale in an integer frame (R172). -/
theorem rgbCell_le (cr : CastRound) {t : SampleType} (ht : t ≠ .f32) {bd : BitVec 5} (h1 : 1 ≤ bd.toNat)
    (h16 : bd.toNat ≤ 16) {x : Word} (hx : inUnit x) : (rgbCell cr t bd x).toNat ≤ fullScale bd := by
  obtain ⟨-, hfull⟩ := fullScale_bounds h1 h16
  obtain ⟨hfin, h0, hle⟩ := mul_ofNat_range hx (show fullScale bd < 2 ^ 24 by omega)
  have hcast := toNat_cast_le cr hfin h0 hle (by omega)
  cases t with
  | u8 => exact hcast
  | u16 => exact hcast
  | f32 => exact absurd rfl ht

theorem Frame.asFloat_eq (f : Frame) : f.asFloat = if f.sampleType = .f32 then f else f.normalized := by
  unfold Frame.asFloat
  cases f.sampleType <;> rfl

theorem Frame.asFloat_bitDepth (f : Frame) : f.asFloat.bitDepth = f.bitDepth := by
  rw [Frame.asFloat_eq]
  split
  · rfl
  · exact Frame.normalized_bitDepth f

/-- The float frame TO_RGB reads is formed, its type f32 (R170, R172). -/
theorem Frame.asFloat_formed {p : Params} {f : Frame} (hl : f.Loaded p) (hi : f.init = true) (h3 : f.planes = .three)
    (h : f.CellsFormed p) (k : PlaneId) : (f.asFloat.plane k).Formed .f32 (floatBound p.upsampleFilter f.fmt) := by
  rw [Frame.asFloat_eq]
  split
  · next ht => exact ht ▸ h.plane hi h3 k
  · have hnorm := (Frame.normalized_formed hl hi h).plane (by simpa using hi) (by simpa using h3) k
    rwa [Frame.normalized_fmt] at hnorm

/-- Each cell TO_RGB stores is the stored form of a value in [0, 1] (R171, R172). -/
theorem Frame.converted_cells {p : Params} {f : Frame} (cr : CastRound) (hl : f.Loaded p) (hi : f.init = true)
    (h3 : f.planes = .three) (h : f.CellsFormed p) (k : PlaneId) :
    ∀ w ∈ ((f.converted cr).plane k).cells, ∃ x, inUnit x ∧ w = rgbCell cr f.sampleType f.bitDepth x := by
  have hfin : ∀ k n, finite ((f.asFloat.plane k).cellAt n) = true := fun k n =>
    ((Frame.asFloat_formed hl hi h3 h k).cellAt n).1
  have key : ∀ (channel : Word → Word → Word → Word) (old : Plane),
      (∀ {y u v}, finite y = true → finite u = true → finite v = true → inUnit (channel y u v)) →
      ∀ w ∈ (convertPlane cr f.sampleType f.asFloat channel old).cells,
        ∃ x, inUnit x ∧ w = rgbCell cr f.sampleType f.bitDepth x := by
    intro channel old hch w hw
    obtain ⟨n, -, rfl⟩ := List.mem_map.1 hw
    rw [Frame.asFloat_bitDepth]
    exact ⟨_, hch (hfin .plane1 n) (centred_finite (hfin .plane2 n)) (centred_finite (hfin .plane3 n)), rfl⟩
  cases k with
  | plane1 => exact key pixelR _ fun hy _ hv => pixelR_range hy hv
  | plane2 => exact key pixelG _ fun hy hu hv => pixelG_range hy hu hv
  | plane3 => exact key pixelB _ fun hy hu _ => pixelB_range hy hu

/-- Settles O28: the clip leaves a value in [0, 1], which an integer frame stores as at most full scale. -/
theorem toRgbOutputsInRange : Obligations.ToRgbOutputsInRange := by
  intro s t hinv hformed h hok k w hw
  obtain ⟨u, hu, rfl⟩ := exec_completes h hok
  cases hu with
  | toRgb hc =>
    obtain ⟨hi, h4⟩ := toRgbCheck_ok hc
    have hl := hinv.frame.loaded hi
    obtain ⟨x, hx, rfl⟩ := Frame.converted_cells _ hl hi (hl.full h4).1 hformed k w hw
    refine ⟨fun ht => ?_, fun ht => rgbCell_le _ ht hl.depthPos hl.depthMax hx⟩
    rw [show s.frame.sampleType = .f32 from ht]
    exact hx

theorem Frame.converted_formed {p : Params} {f : Frame} (cr : CastRound) (hl : f.Loaded p) (hi : f.init = true)
    (h4 : f.fmt = .yuv444) (h : f.CellsFormed p) : (f.converted cr).CellsFormed p := by
  refine .of_planes fun k w hw => ?_
  obtain ⟨x, hx, rfl⟩ := Frame.converted_cells cr hl hi (hl.full h4).1 h k w hw
  by_cases ht : f.sampleType = .f32
  · have hmag : mag x ≤ 65535 * 2 ^ 149 := by
      obtain ⟨-, h0, h1⟩ := hx
      rw [mag_eq_natAbs]
      omega
    rw [show (f.converted cr).sampleType = .f32 from ht, ht]
    exact ⟨hx.1, Nat.le_trans hmag (le_floatBound _ _)⟩
  · have hle := rgbCell_le cr ht hl.depthPos hl.depthMax hx
    have hpow : 2 ^ f.bitDepth.toNat ≤ 2 ^ f.sampleType.width := Nat.pow_le_pow_right (by decide) hl.depthWidth
    have hpos := Nat.two_pow_pos f.bitDepth.toNat
    exact cellForm_of_lt ht (by unfold fullScale at hle; omega) _

/-! ### Every step -/

theorem State.Completes.cellsFormed {s u : State} {i : Instr} (hu : s.Completes i u) (hinv : s.Inv)
    (h : s.frame.CellsFormed s.params) : u.frame.CellsFormed u.params := by
  cases hu with
  | load hc => exact State.loadFrame_formed hc _
  | read hc => exact h
  | normalize hc =>
    have hi := normalizeCheck_ok hc
    exact Frame.normalized_formed (hinv.frame.loaded hi) hi h
  | upsample hc => exact State.upsampledFrame_formed (hinv.frame.loaded (upsampleCheck_ok hc).1) h hc
  | toRgb hc =>
    obtain ⟨hi, h4⟩ := toRgbCheck_ok hc
    exact Frame.converted_formed _ (hinv.frame.loaded hi) hi h4 h
  | exportOut hc => exact h

theorem engineTurn_cellsFormed {s t : State} (ht : engineTurn s = .next t) (hinv : s.Inv)
    (h : s.frame.CellsFormed s.params) : t.frame.CellsFormed t.params := by
  rcases engineTurn_cases ht with ⟨-, rfl⟩ | ⟨w, -, hw⟩
  · exact h
  rcases runWord_cases hw with ⟨i, -, hi⟩ | rfl
  · rcases exec_cases hi with ⟨e, -, rfl⟩ | ⟨u, hu, rfl⟩
    · exact h
    · exact hu.cellsFormed hinv.clearPending h
  · exact h

/-- Settles O11: only the engine's turn writes cells; the host keeps the frame, and reset leaves none. -/
theorem stepKeepsCellForms : Obligations.StepKeepsCellForms := by
  intro s t hinv h ht
  obtain ⟨rest, he | hh | rfl⟩ := step_cases ht
  · exact engineTurn_cellsFormed he (hinv.setSched rest) h
  · obtain ⟨hf, -, hp, -⟩ := hostTurn_keeps hh
    exact h.congr hf hp
  · exact ⟨nofun, nofun, nofun⟩

end Sys2Proof.Machine
end

section
/-! PROOFS. Who moves next and what a poll sees (spec 20_memory R66, R70 to R72, 70_reset R234, R235): the engine's turn, a
host turn beside a pending command, and the two orders of a STATUS poll and the command's step. -/

open Sys2Proof Sys2Proof.Machine

namespace Sys2Proof.Machine

/-! ### The engine's turn -/

theorem engineTurn_of_pending {s : State} {w : Word} (h : s.pending = some w) :
    engineTurn s = runWord w { s with pending := none } := by
  simp only [engineTurn, h]

/-- The schedule gives the turn to the engine (R71). -/
theorem step_of_engine_turn {s : State} {rest : List Turn} (h : s.sched = .engine :: rest) :
    step s = engineTurn { s with sched := rest } := by
  simp only [step, h]

/-- With the schedule exhausted a pending command runs before the host moves (R71, log 1). -/
theorem step_of_exhausted_pending {s : State} {w : Word} (hs : s.sched = []) (hp : s.pending = some w) :
    step s = engineTurn s := by
  simp [step, hs, hp]

/-- Settles O5: each of the two forms of the engine's turn runs the pending word, which is the command it decodes to. -/
theorem stepRunsDecodedCommand : Obligations.StepRunsDecodedCommand := by
  intro s w i hp hdec
  refine ⟨fun hs => ?_, fun rest hs => ?_⟩
  · rw [step_of_exhausted_pending hs hp, engineTurn_of_pending hp, runWord_ok _ hdec]
  · rw [step_of_engine_turn hs, engineTurn_of_pending (s := { s with sched := rest }) hp, runWord_ok _ hdec]

/-- A command word changes the frame, RDATA, OUT with its registers, and RESULT alone (R70, R95). -/
theorem runWord_writes {w : Word} {s t : State} (h : runWord w s = .next t) :
    t = { s with frame := t.frame, rdata := t.rdata, out := t.out, mem := t.mem, result := t.result } := by
  rcases runWord_cases h with ⟨i, -, hi⟩ | rfl
  · exact exec_writes hi
  · rfl

/-- A pending command completes, and its step leaves the host and the coming turns alone (R70, R71). -/
theorem engineTurn_completes {s : State} {w : Word} (hp : s.pending = some w) :
    ∃ t, engineTurn s = .next t ∧ t.pending = none ∧ t.host = s.host ∧ t.sched = s.sched := by
  obtain ⟨t, ht⟩ := runWord_isNext w { s with pending := none }
  refine ⟨t, (engineTurn_of_pending hp).trans ht, ?_⟩
  rw [runWord_writes ht]
  exact ⟨rfl, rfl, rfl⟩

/-! ### The host's turn -/

theorem accessForm_eq_false {bytes : Nat} {off : Word} (h : bytes ≠ 4 ∨ off.toNat % 4 ≠ 0) :
    accessForm bytes off = false := by
  simpa [accessForm, or_iff_not_imp_left] using h

/-- An access of another width or alignment is refused (R66). -/
theorem hostTurn_misformed {s : State} {bytes : Nat} {off v : Word} {tmp : Temp} (hform : bytes ≠ 4 ∨ off.toNat % 4 ≠ 0)
    (hop : s.host.prog[s.host.pc]? = some (.write bytes off v) ∨ s.host.prog[s.host.pc]? = some (.read bytes tmp off)) :
    hostTurn s = .refused .busAccessForm := by
  rcases hop with hop | hop <;> simp [hostTurn_of_op hop, State.runHostOp, accessForm_eq_false hform]

/-- Settles O45: each of the two forms of the host's turn is `hostTurn`, which refuses the access. -/
theorem misformedAccessIsRefused : Obligations.MisformedAccessIsRefused := by
  intro s bytes off v tmp hturn hform hop
  rcases hturn with ⟨rest, hs⟩ | ⟨hs, hp⟩
  · rw [step_of_host_turn hs]
    exact hostTurn_misformed hform hop
  · rw [step_of_exhausted hs hp]
    exact hostTurn_misformed hform hop

/-- No host turn changes what commands have left in RESULT and RDATA (R70). -/
theorem hostTurn_keeps_results {s t : State} (h : hostTurn s = .next t) : t.result = s.result ∧ t.rdata = s.rdata := by
  rcases hostTurn_effect h with ⟨off, v, rfl⟩ | ⟨host, draws, window, rfl, -⟩
  · rw [writeTarget_writes]
    exact ⟨rfl, rfl⟩
  · exact ⟨rfl, rfl⟩

/-- Settles O49: a host turn stores in the staging registers and IN alone, and IN lies below OUT. -/
theorem hostTurnKeepsFrameAndOutputs : Obligations.HostTurnKeepsFrameAndOutputs := by
  intro s t hlegal h
  obtain ⟨hframe, hout, hparams, -⟩ := hostTurn_keeps h
  obtain ⟨hresult, hrdata⟩ := hostTurn_keeps_results h
  exact ⟨hframe, hresult, hrdata, hout, hparams, fun a ha => hostTurn_memByte_out hlegal h ha⟩

/-! ### A pending command is not lost -/

/-- Only a CMD write changes `pending`, and it is guarded (R49, R233). -/
theorem writeTarget_pending {s : State} {t : Target} (h : t.isGuarded = false) (v : Word) :
    (s.writeTarget t v).pending = s.pending := by
  cases t with
  | reg r =>
    cases r with
    | cmd => exact absurd h nofun
    | _ => rfl
  | _ => rfl

theorem busRead_pending (s : State) (off : Word) : (s.busRead off).1.pending = s.pending := by
  obtain ⟨draws, window, h, -⟩ := busRead_state s off
  rw [h]

/-- Beside a pending command no host turn writes CMD, so the command stays pending (R233). -/
theorem hostTurn_keeps_pending {s t : State} {w : Word} (hp : s.pending = some w) (h : hostTurn s = .next t) :
    t.pending = some w := by
  rcases hostTurn_cases h with rfl | ⟨op, -, hop⟩
  · exact hp
  rcases runHostOp_cases hop with ⟨off, v, hw⟩ | ⟨tmp, off, rfl⟩ | ⟨host, rfl⟩
  · obtain ⟨hquiet | hguard, rfl⟩ := busWrite_next hw
    · exact absurd hquiet (by simp [State.busy, hp])
    · exact (writeTarget_pending hguard v).trans hp
  · exact (busRead_pending s.hostNext off).trans hp
  · exact hp

theorem hostTurn_keeps_sched {s t : State} (h : hostTurn s = .next t) : t.sched = s.sched := by
  rcases hostTurn_effect h with ⟨off, v, rfl⟩ | ⟨host, draws, window, rfl, -⟩
  · rw [writeTarget_writes]
    rfl
  · rfl

theorem core_run_succ_of_next {s t : State} (h : step s = .next t) (n : Nat) :
    Sys2Proof.core.run (n + 1) s = Sys2Proof.core.run n t := by
  have hcore : Sys2Proof.core.step s = .next t := h
  simp only [Host.Core.run, hcore]

theorem core_run_succ_of_refused {s : State} {r : Refusal} (h : step s = .refused r) (n : Nat) :
    Sys2Proof.core.run (n + 1) s = .refused r := by
  have hcore : Sys2Proof.core.step s = .refused r := h
  simp only [Host.Core.run, hcore]

/-- Settles O51, by induction on the schedule: the command runs now where the schedule is exhausted or gives the engine the
turn; a host turn is refused, or leaves the command pending over a shorter schedule. -/
theorem pendingCommandRuns : Obligations.PendingCommandRuns := by
  intro s w hp hreset
  induction hs : s.sched generalizing s with
  | nil =>
    refine ⟨0, Nat.le_refl 0, .inr ⟨s, rfl, hp, ?_⟩⟩
    rw [step_of_exhausted_pending hs hp, engineTurn_of_pending hp, hs]
    rfl
  | cons turn rest ih =>
    rw [hs] at hreset
    cases turn with
    | engine =>
      refine ⟨0, Nat.zero_le _, .inr ⟨s, rfl, hp, ?_⟩⟩
      rw [step_of_engine_turn hs, engineTurn_of_pending (s := { s with sched := rest }) hp, hs]
      rfl
    | resetAsserted => exact absurd rfl (hreset _ List.mem_cons_self)
    | host =>
      have hstep := step_of_host_turn hs
      cases hturn : hostTurn { s with sched := rest } with
      | fault f => exact nomatch f
      | refused r =>
        exact ⟨1, Nat.succ_le_succ (Nat.zero_le _), .inl ⟨r, core_run_succ_of_refused (hstep.trans hturn) 0⟩⟩
      | next t =>
        have hsched : t.sched = rest := hostTurn_keeps_sched hturn
        have hpending : t.pending = some w := hostTurn_keeps_pending (s := { s with sched := rest }) hp hturn
        obtain ⟨n, hn, hrun⟩ :=
          ih t hpending (fun turn hmem => hreset turn (List.mem_cons_of_mem _ (hsched ▸ hmem))) hsched
        refine ⟨n + 1, Nat.succ_le_succ hn, ?_⟩
        rwa [core_run_succ_of_next (hstep.trans hturn)]

/-! ### The STATUS poll -/

/-- The host's poll puts STATUS in t7 (R72, R103). -/
theorem hostTurn_poll {s : State} (h : s.host.prog[s.host.pc]? = some (.read 4 .t7 0x0000000C#32)) :
    hostTurn s = .next ((s.hostNext.busRead 0x0000000C#32).1.setTemp .t7 (s.hostNext.busRead 0x0000000C#32).2) :=
  hostTurn_of_op h

/-- Beside a pending command the poll sees BUSY = 1 and the command stays pending (R71). -/
theorem hostTurn_poll_pending {s : State} {w : Word} (hp : s.pending = some w)
    (h : s.host.prog[s.host.pc]? = some (.read 4 .t7 0x0000000C#32)) :
    ∃ t, hostTurn s = .next t ∧ t.host.temps.v7.toNat % 2 = 1 ∧ t.pending = some w :=
  ⟨_, hostTurn_poll h, (statusRegisterFields s.hostNext).2 (by simp [hp]), hostTurn_keeps_pending hp (hostTurn_poll h)⟩

/-- With no command pending the poll sees BUSY = 0 and RESULT, and closes the window (R71, R72, R233). -/
theorem hostTurn_poll_idle {s : State} (hp : s.pending = none)
    (h : s.host.prog[s.host.pc]? = some (.read 4 .t7 0x0000000C#32)) :
    ∃ t, hostTurn s = .next t ∧ t.host.temps.v7.toNat % 2 = 0 ∧ t.host.temps.v7.toNat / 16 % 16 = s.result.code ∧
      t.busyWindow = false := by
  obtain ⟨hbusy, -, -, -, hresult, -⟩ := (statusRegisterFields s.hostNext).1 hp
  refine ⟨_, hostTurn_poll h, hbusy, hresult, ?_⟩
  rw [State.setTemp_busyWindow, show (0x0000000C#32) = Reg.status.offset from rfl, busRead_status (addressMap_reg _ _),
    readStatus_idle (s := s.hostNext) hp]

/-- Settles O52: the command's step leaves the host and the schedule alone, so either order reaches the poll. -/
theorem busyPollAdmitsBothOrders : Obligations.BusyPollAdmitsBothOrders := by
  intro s w rest hp hpoll
  constructor
  · rw [step_of_host_turn rfl]
    exact hostTurn_poll_pending hp hpoll
  · obtain ⟨t, ht, hidle, hhost, hsched⟩ := engineTurn_completes (s := { s with sched := .host :: rest }) hp
    obtain ⟨u, hu, hseen⟩ := hostTurn_poll_idle (s := { t with sched := rest }) hidle (by rw [hhost]; exact hpoll)
    exact ⟨t, u, (step_of_engine_turn rfl).trans ht, (step_of_host_turn hsched).trans hu, hseen⟩

end Sys2Proof.Machine
end

section
/-! PROOFS. Reads outside the busy window and the gate of OUT (spec 20_memory R63, R64, R68). -/

open Sys2Proof Sys2Proof.Machine

namespace Sys2Proof.Machine

theorem State.busy_eq_false {s : State} : s.busy = false ↔ s.pending = none ∧ s.busyWindow = false := by
  simp [State.busy]

/-- Outside the busy window a read changes nothing at all (R68). -/
theorem busRead_quiet_state {s : State} (h : s.busy = false) (off : Word) : (s.busRead off).1 = s := by
  obtain ⟨hp, hw⟩ := State.busy_eq_false.1 h
  by_cases hstatus : addressMap s.params off = .reg .status
  · rw [busRead_status hstatus, readStatus_idle hp, ← hw]
  · rw [busRead_stable rfl hstatus (by rw [h, Bool.false_and])]

/-- Settles O47: a read moves at most the draw counter and the window, and outside the window it leaves the same state for the
next read. -/
theorem readsHaveNoSideEffects : Obligations.ReadsHaveNoSideEffects := by
  intro s off
  constructor
  · obtain ⟨draws, window, h, -⟩ := busRead_state s off
    rw [h]
  · intro h
    rw [busRead_quiet_state h]

/-! ### OUT -/

/-- OUT's region ignores writes (R63). -/
theorem writeTarget_outTarget (s : State) (p : Params) (n : Nat) (v : Word) : s.writeTarget (outTarget p n) v = s := by
  unfold outTarget
  split <;> rfl

theorem outRead_eq_zero {s : State} {n : Nat}
    (h : s.out.valid = false ∨ s.out.w.toNat * s.out.h.toNat * s.out.ch.toNat ≤ n) : s.outRead n = 0 := by
  unfold State.outRead
  rcases h with h | h
  · simp [h]
  · simp [Nat.not_lt.2 h]

theorem outRead_eq_outCell {s : State} {n : Nat} (hv : s.out.valid = true)
    (hn : n < s.out.w.toNat * s.out.h.toNat * s.out.ch.toNat) : s.outRead n = s.outCell n := by
  simp [State.outRead, hv, hn]

theorem outTarget_of_lt {p : Params} {n : Nat} (h : n < 3 * bufferCells p) : outTarget p n = .outCell n := if_pos h

theorem outTarget_of_ge {p : Params} {n : Nat} (h : 3 * bufferCells p ≤ n) : outTarget p n = .hole :=
  if_neg (Nat.not_lt.2 h)

/-- Settles O43: the offset addresses OUT cell n, which the gate opens or shuts, or past the buffer's end a hole. -/
theorem outReadsAreGated : Obligations.OutReadsAreGated := by
  intro s n v _ h hn
  have hmap : addressMap s.params (BitVec.ofNat 32 (0x40000000 + 4 * n)) = outTarget s.params n :=
    addressMap_outCell s.params n hn
  rw [busWrite_quiet h hmap, writeTarget_outTarget, busRead_quiet_state h, busRead_quiet s _ h, hmap]
  refine ⟨rfl, rfl, fun hshut => ?_, fun hvalid hext hbuf => ?_⟩
  · rcases Nat.lt_or_ge n (3 * bufferCells s.params) with hlt | hge
    · rw [outTarget_of_lt hlt]
      exact outRead_eq_zero (hshut.imp_right fun hpast => hpast.resolve_right (Nat.not_le.2 hlt))
    · rw [outTarget_of_ge hge]
      rfl
  · rw [outTarget_of_lt hbuf]
    exact outRead_eq_outCell hvalid hext

end Sys2Proof.Machine
end

section
/-! PROOFS. The host-side stream convention (spec 20_memory R79, R80, R82): the geometry of its frames, and the depths and
dimensions a host reads. -/

open Sys2Proof Sys2Proof.Machine

namespace Sys2Proof.Machine

/-- Settles O53: with w = 2a and h = 2b the luma plane is four times a·b samples, and the halves have YUV420's ratio. -/
theorem streamFrameIsYuv420 : Obligations.StreamFrameIsYuv420 := by
  intro w h bits hw hh hwEven hhEven
  have hfits : 2 * (w / 2) = w ∧ 2 * (h / 2) = h := by omega
  refine ⟨?_, (classifyByExactRatio w h (w / 2) (h / 2) .yuv420 hw hh).2 ⟨nofun, hfits⟩⟩
  have hluma : streamLumaLength w h bits = 4 * (w / 2 * (h / 2) * ((bits + 7) / 8)) :=
    calc streamLumaLength w h bits = 2 * (w / 2) * (2 * (h / 2)) * ((bits + 7) / 8) := by rw [hfits.1, hfits.2]; rfl
      _ = 4 * (w / 2 * (h / 2) * ((bits + 7) / 8)) := by ring
  rw [streamChromaLength, hluma, Nat.mul_div_cancel_left _ (by decide)]

/-- A plane is staged by PUTs of its own cells (R62). -/
theorem mem_stagePlane {k : PlaneId} {samples : List Word} {line : Pseudo} (h : line ∈ stagePlane k samples) :
    ∃ n cell, line = .put k n cell := by
  obtain ⟨vn, -, rfl⟩ := List.mem_map.1 h
  exact ⟨vn.2, vn.1, rfl⟩

/-- Depth 8 is u8, 10 and 16 are u16 (R80). -/
theorem streamType_of_read_depth {bits : Nat} (h : bits = 8 ∨ bits = 10 ∨ bits = 16) :
    ∃ t, streamType bits = some t ∧ t.code = if bits = 8 then 0 else 1 := by
  rcases h with rfl | rfl | rfl
  · exact ⟨.u8, rfl, rfl⟩
  · exact ⟨.u16, rfl, rfl⟩
  · exact ⟨.u16, rfl, rfl⟩

theorem streamType_eq_none {bits : Nat} (h : bits ≠ 8 ∧ bits ≠ 10 ∧ bits ≠ 16) : streamType bits = none := by
  obtain ⟨h8, h10, h16⟩ := h
  unfold streamType
  split
  · exact absurd rfl h8
  · exact absurd rfl h10
  · exact absurd rfl h16
  · rfl

theorem streamFrameType_of_even {w h : Nat} (hw : w % 2 = 0) (hh : h % 2 = 0) (bits : Nat) :
    streamFrameType w h bits = streamType bits := if_neg (by omega)

/-- An odd dimension or another depth gives no frame (R80, R82). -/
theorem streamFrameType_eq_none {w h bits : Nat}
    (hno : w % 2 = 1 ∨ h % 2 = 1 ∨ (bits ≠ 8 ∧ bits ≠ 10 ∧ bits ≠ 16)) : streamFrameType w h bits = none := by
  unfold streamFrameType
  split
  · rfl
  · next heven => exact streamType_eq_none (by tauto)

theorem streamNextFrame_eq_notRead {w h bits : Nat} (ht : streamFrameType w h bits = none) (order : ByteOrder)
    (bytes : List Byte) : streamNextFrame order w h bits bytes = .notRead := by
  simp only [streamNextFrame, ht]

/-- Settles O59: the routed type decides whether host code exists and, where it does, stands in its SETCFG line. -/
theorem streamDepthRoutesType : Obligations.StreamDepthRoutesType := by
  intro order w h bits y u v bytes
  refine ⟨fun hw hh hbits => ?_, fun hno => ?_⟩
  · obtain ⟨t, ht, hcode⟩ := streamType_of_read_depth hbits
    refine ⟨stagePlane .plane1 y ++ stagePlane .plane2 u ++ stagePlane .plane3 v, ?_, fun line hline => ?_⟩
    · rw [stageFrame, streamFrameType_of_even hw hh, ht, ← hcode]
      rfl
    · rcases List.mem_append.1 hline with hyu | hv
      · rcases List.mem_append.1 hyu with hy | hu
        · exact ⟨_, mem_stagePlane hy⟩
        · exact ⟨_, mem_stagePlane hu⟩
      · exact ⟨_, mem_stagePlane hv⟩
  · have ht := streamFrameType_eq_none hno
    have hread := streamNextFrame_eq_notRead ht order bytes
    exact ⟨by rw [stageFrame, ht]; rfl, hread, by simp only [loadNextFrame, hread]⟩

end Sys2Proof.Machine
end

section
/-! PROOFS. The command words (spec 30_encoding R92 to R100): which words decode and to what, and the illegal words of R95. -/

open Sys2Proof Sys2Proof.Machine

namespace Sys2Proof

/-! ### The fields of a command word, as numbers -/

theorem fieldOpcode_toNat (w : Word) : (fieldOpcode w).toNat = w.toNat % 16 := by
  rw [fieldOpcode, BitVec.extractLsb'_toNat, Nat.shiftRight_zero]

theorem fieldArity_toNat (w : Word) : (fieldArity w).toNat = w.toNat / 16 % 16 := by
  rw [fieldArity, BitVec.extractLsb'_toNat, Nat.shiftRight_eq_div_pow]

theorem fieldSel_toNat (w : Word) : (fieldSel w).toNat = w.toNat / 256 % 4 := by
  rw [fieldSel, BitVec.extractLsb'_toNat, Nat.shiftRight_eq_div_pow]

/-- The bits from k upward are all 0 exactly in the words below 2^k. -/
theorem extractLsb'_top_eq_zero {w : Word} {k n : Nat} (hkn : k + n = 32) : w.extractLsb' k n = 0 ↔ w.toNat < 2 ^ k := by
  have htop : w.toNat / 2 ^ k < 2 ^ n := Nat.div_lt_of_lt_mul (by rw [← Nat.pow_add, hkn]; exact w.isLt)
  rw [← BitVec.toNat_inj, BitVec.extractLsb'_toNat, Nat.shiftRight_eq_div_pow, Nat.mod_eq_of_lt htop, BitVec.ofNat_eq_ofNat,
    BitVec.toNat_zero, Nat.div_eq_zero_iff_lt (Nat.two_pow_pos k)]

theorem fieldAboveOpcode_eq_zero {w : Word} : fieldAboveOpcode w = 0 ↔ w.toNat < 16 := extractLsb'_top_eq_zero rfl

theorem fieldAboveSel_eq_zero {w : Word} : fieldAboveSel w = 0 ↔ w.toNat < 1024 := extractLsb'_top_eq_zero rfl

/-! ### The encoder -/

/-- The part of a command's word above its opcode: READ's ARITY from bit 4 and SEL from bit 8 (R92). -/
def operandBits : Instr → Nat
  | .read arity sel => 16 * arity + 256 * sel
  | _ => 0

theorem Instr.wellFormed_read {arity sel : Nat} : (Instr.read arity sel).wellFormed = true ↔ arity < 16 ∧ sel < 4 := by
  rw [Instr.wellFormed, Bool.and_eq_true, decide_eq_true_eq, decide_eq_true_eq]

/-- The operands lie above the opcode (R92). -/
theorem command_word_mod (i : Instr) : (opcodeNumber i + operandBits i) % 16 = opcodeNumber i := by
  cases i with
  | read arity sel =>
    simp only [opcodeNumber, operandBits]
    omega
  | load | normalize | upsample | toRgb | exportOut => rfl

theorem or_shiftLeft_of_lt {x k : Nat} (h : x < 2 ^ k) (n : Nat) : x ||| n <<< k = x + 2 ^ k * n := by
  rw [Nat.or_comm, ← Nat.shiftLeft_add_eq_or_of_lt h, Nat.shiftLeft_eq, Nat.add_comm, Nat.mul_comm]

theorem encode_read_toNat {arity sel : Nat} (ha : arity < 16) (hs : sel < 4) :
    (encode (.read arity sel)).toNat = 2 + 16 * arity + 256 * sel :=
  calc (encode (.read arity sel)).toNat
      = 2 ||| (arity % 2 ^ 32) <<< 4 % 2 ^ 32 ||| (sel % 2 ^ 32) <<< 8 % 2 ^ 32 := by
        simp only [encode, BitVec.toNat_or, BitVec.toNat_shiftLeft, BitVec.toNat_ofNat, Nat.reduceMod, Nat.reducePow]
    _ = 2 ||| arity <<< 4 ||| sel <<< 8 := by
        rw [Nat.mod_eq_of_lt (by omega), Nat.mod_eq_of_lt (by omega), Nat.mod_eq_of_lt (by omega),
          Nat.mod_eq_of_lt (by omega)]
    _ = 2 + 16 * arity + 256 * sel := by
        rw [or_shiftLeft_of_lt (k := 4) (by decide), or_shiftLeft_of_lt (k := 8) (by omega)]
        rfl

/-- The encoder sets the opcode and the operands side by side (R92, R100). -/
theorem encode_toNat {i : Instr} (h : i.wellFormed = true) : (encode i).toNat = opcodeNumber i + operandBits i := by
  cases i with
  | read arity sel =>
    obtain ⟨ha, hs⟩ := Instr.wellFormed_read.1 h
    exact (encode_read_toNat ha hs).trans (Nat.add_assoc _ _ _)
  | load | normalize | upsample | toRgb | exportOut => rfl

/-! ### The decoder -/

theorem plainCommand_eq_ok {w : Word} {i j : Instr} : plainCommand w i = .ok j ↔ w.toNat < 16 ∧ i = j := by
  rw [plainCommand, ← fieldAboveOpcode_eq_zero]
  split
  · next hres => rw [Except.ok.injEq, and_iff_right hres]
  · next hres => exact ⟨nofun, fun h => absurd h.1 hres⟩

/-- Each opcode but READ's gives one command, once the bits above it are 0 (R92, R99). -/
theorem decode_of_plain_opcode {w : Word} {i : Instr} (hop : (fieldOpcode w).toNat = opcodeNumber i)
    (hplain : opcodeNumber i ≠ 2) : decode w = plainCommand w i := by
  cases i with
  | read arity sel => exact absurd rfl hplain
  | load | normalize | upsample | toRgb | exportOut => simp only [decode, hop, opcodeNumber]

/-- READ's opcode gives READ with the operands of its word, once the bits above them are 0 (R92, R96, R99). -/
theorem decode_of_read_opcode {w : Word} (hop : (fieldOpcode w).toNat = 2) :
    decode w = if fieldAboveSel w = 0 then .ok (.read (fieldArity w).toNat (fieldSel w).toNat)
      else .error .reservedBit := by
  simp only [decode, hop]

/-- A word decodes to a command of its own opcode. -/
theorem opcode_of_decode {w : Word} {i : Instr} (h : decode w = .ok i) : (fieldOpcode w).toNat = opcodeNumber i := by
  unfold decode at h
  split at h
  case h_2 hop =>
    split at h
    · cases h
      exact hop
    · cases h
  case h_7 => cases h
  case h_1 hop | h_3 hop | h_4 hop | h_5 hop | h_6 hop =>
    obtain ⟨-, rfl⟩ := plainCommand_eq_ok.1 h
    exact hop

/-- A word decodes to a command exactly when it is that command's opcode with its operands (R99). -/
theorem decode_eq_ok_iff {w : Word} {i : Instr} :
    decode w = .ok i ↔ i.wellFormed = true ∧ w.toNat = opcodeNumber i + operandBits i := by
  by_cases hop : (fieldOpcode w).toNat = opcodeNumber i
  case neg =>
    refine ⟨fun h => absurd (opcode_of_decode h) hop, fun ⟨_, hw⟩ => absurd ?_ hop⟩
    rw [fieldOpcode_toNat, hw, command_word_mod]
  case pos =>
    cases i with
    | read arity sel =>
      rw [decode_of_read_opcode hop, Instr.wellFormed_read, fieldArity_toNat, fieldSel_toNat]
      simp only [fieldOpcode_toNat, opcodeNumber, operandBits, fieldAboveSel_eq_zero] at hop ⊢
      split
      · rw [Except.ok.injEq, Instr.read.injEq]
        omega
      · exact ⟨nofun, by omega⟩
    | load | normalize | upsample | toRgb | exportOut =>
      rw [decode_of_plain_opcode hop (by decide), plainCommand_eq_ok]
      simp only [fieldOpcode_toNat, opcodeNumber, operandBits, Instr.wellFormed, and_true, true_and] at hop ⊢
      omega

/-- Settles O3: an encoded command is its opcode with its operands, and such a word decodes to that command. -/
theorem decodeOfEncode : Obligations.DecodeOfEncode := fun _ h => decode_eq_ok_iff.2 ⟨h, encode_toNat h⟩

/-- Settles O4: a word that decodes to a command has the number of that command's encoding. -/
theorem encodeOfDecoded : Obligations.EncodeOfDecoded := by
  intro w i h
  obtain ⟨hwf, hw⟩ := decode_eq_ok_iff.1 h
  exact ⟨hwf, BitVec.eq_of_toNat_eq ((encode_toNat hwf).trans hw.symm)⟩

/-- The decoder inverts the encoder, and only there does it give a command (R99, R100). -/
theorem decode_eq_ok_iff_encode {w : Word} {i : Instr} : decode w = .ok i ↔ i.wellFormed = true ∧ encode i = w :=
  ⟨encodeOfDecoded w i, fun ⟨hwf, hw⟩ => hw ▸ decodeOfEncode i hwf⟩

/-- Settles O1: each word is run through the decoder. -/
theorem specWordsDecode : Obligations.SpecWordsDecode := by
  unfold Obligations.SpecWordsDecode
  decide

/-! ### The opcode table -/

/-- The mask of a row without operands keeps the whole word (R93). -/
theorem decode_eq_ok_iff_fullMask {w : Word} {i : Instr} (h : i.wellFormed = true) :
    decode w = .ok i ↔ w &&& 0xFFFFFFFF#32 = encode i := by
  rw [decode_eq_ok_iff_encode, and_iff_right h, show 0xFFFFFFFF#32 = BitVec.allOnes 32 from rfl, BitVec.and_allOnes, eq_comm]

/-- READ's mask clears the six bits of its operands and keeps the others (R93). -/
theorem and_readMask_toNat (w : Word) : (w &&& 0xFFFFFC0F#32).toNat = 1024 * (w.toNat / 1024) + w.toNat % 16 := by
  rw [BitVec.toNat_and, BitVec.toNat_ofNat, Nat.mod_eq_of_lt (by decide)]
  have hlow : (w.toNat &&& 0xFFFFFC0F) % 2 ^ 4 = w.toNat % 2 ^ 4 := by
    rw [Nat.and_mod_two_pow, ← Nat.and_two_pow_sub_one_eq_mod, Nat.and_assoc]
    rfl
  have hmid : (w.toNat &&& 0xFFFFFC0F) / 2 ^ 4 % 2 ^ 6 = 0 := by
    rw [Nat.and_div_two_pow, Nat.and_mod_two_pow]
    exact Nat.and_zero _
  have htop : (w.toNat &&& 0xFFFFFC0F) / 2 ^ 10 = w.toNat / 2 ^ 10 := by
    have hw := w.isLt
    rw [Nat.and_div_two_pow]
    exact (Nat.and_two_pow_sub_one_eq_mod _ 22).trans (Nat.mod_eq_of_lt (by omega))
  omega

/-- Settles O2: a word under its row's mask is the row's pattern exactly when it is that row's command's word. -/
theorem decodeMatchesOpcodeTable : Obligations.DecodeMatchesOpcodeTable := by
  intro w
  refine ⟨decode_eq_ok_iff_fullMask rfl, fun arity sel => ?_, decode_eq_ok_iff_fullMask rfl,
    decode_eq_ok_iff_fullMask rfl, decode_eq_ok_iff_fullMask rfl, decode_eq_ok_iff_fullMask rfl⟩
  rw [decode_eq_ok_iff, Instr.wellFormed_read, ← BitVec.toNat_inj, and_readMask_toNat, BitVec.toNat_ofNat]
  simp only [opcodeNumber, operandBits]
  omega

end Sys2Proof

namespace Sys2Proof.Machine

/-! ### Illegal words -/

/-- The opcodes R95 leaves legal are those of the six commands. -/
theorem exists_command_word {n : Nat} (h1 : 1 ≤ n) (h6 : n ≤ 6) :
    ∃ i : Instr, i.wellFormed = true ∧ opcodeNumber i + operandBits i = n := by
  interval_cases n
  exacts [⟨.load, rfl, rfl⟩, ⟨.read 0 0, rfl, rfl⟩, ⟨.normalize, rfl, rfl⟩, ⟨.upsample, rfl, rfl⟩, ⟨.toRgb, rfl, rfl⟩,
    ⟨.exportOut, rfl, rfl⟩]

theorem not_illegalWord_of_decode {w : Word} {i : Instr} (h : decode w = .ok i) : ¬ illegalWord w := by
  obtain ⟨hwf, hw⟩ := decode_eq_ok_iff.1 h
  unfold illegalWord
  cases i with
  | read arity sel =>
    obtain ⟨ha, hs⟩ := Instr.wellFormed_read.1 hwf
    simp only [opcodeNumber, operandBits] at hw
    omega
  | load | normalize | upsample | toRgb | exportOut =>
    simp only [opcodeNumber, operandBits] at hw
    omega

theorem decode_of_not_illegalWord {w : Word} (h : ¬ illegalWord w) : ∃ i, decode w = .ok i := by
  unfold illegalWord at h
  by_cases hop : w.toNat % 16 = 2
  · refine ⟨.read (w.toNat / 16 % 16) (w.toNat / 256), decode_eq_ok_iff.2 ⟨Instr.wellFormed_read.2 (by omega), ?_⟩⟩
    simp only [opcodeNumber, operandBits]
    omega
  · obtain ⟨i, hwf, hi⟩ := exists_command_word (n := w.toNat) (by omega) (by omega)
    exact ⟨i, decode_eq_ok_iff.2 ⟨hwf, hi.symm⟩⟩

/-- The decoder refuses the illegal words and no others (R95). -/
theorem illegalWord_iff {w : Word} : illegalWord w ↔ ∃ e, decode w = .error e := by
  cases hdec : decode w with
  | ok i => exact iff_of_false (not_illegalWord_of_decode hdec) nofun
  | error e =>
    refine iff_of_true (by_contra fun hlegal => ?_) ⟨e, rfl⟩
    obtain ⟨i, hi⟩ := decode_of_not_illegalWord hlegal
    exact nomatch hdec.symm.trans hi

/-- Settles O6: an illegal word does not decode, so the engine raises IllegalCommand at the state with `pending` cleared. -/
theorem illegalWordChangesOnlyResult : Obligations.IllegalWordChangesOnlyResult := by
  intro s w
  refine ⟨illegalWord_iff, fun hill hp => ?_⟩
  obtain ⟨e, he⟩ := illegalWord_iff.1 hill
  rw [engineTurn_of_pending hp, runWord_error _ he]
  rfl

end Sys2Proof.Machine
end

section
/-! PROOFS. The host's operations (spec 30_encoding R101): what each operation does to the temporaries and on the bus. -/

open Sys2Proof Sys2Proof.Machine

namespace Sys2Proof.Machine

/-! ### Each operation -/

theorem accessForm_eq_true {off : Word} (h : off.toNat % 4 = 0) : accessForm 4 off = true := by
  simp [accessForm, h]

/-- `sw OFF, V` is one write on the bus, at the state whose host has moved on (R101). -/
theorem runHostOp_sw (s : State) {off : Word} (h : off.toNat % 4 = 0) (v : Word) :
    s.runHostOp (.sw off v) = s.hostNext.busWrite off v := if_pos (accessForm_eq_true h)

/-- `lw tN, OFF` is one read on the bus, whose answer goes to tN (R101). -/
theorem runHostOp_lw (s : State) {off : Word} (h : off.toNat % 4 = 0) (t : Temp) :
    s.runHostOp (.lw t off) = .next ((s.hostNext.busRead off).1.setTemp t (s.hostNext.busRead off).2) :=
  if_pos (accessForm_eq_true h)

/-- `bnez tN, L` goes to L unless tN holds 0 (R101). -/
theorem runHostOp_bnez (s : State) (t : Temp) (target : Nat) :
    s.runHostOp (.bnez t target) =
      .next { s with host := if s.host.temps.get t = 0 then s.hostNext.host else { s.host with pc := target } } := by
  by_cases h : s.host.temps.get t = 0
  · rw [if_pos h]
    exact if_neg (not_not.2 h)
  · rw [if_neg h]
    exact if_pos h

theorem Temps.get_set (ts : Temps) (t u : Temp) (v : Word) : (ts.set t v).get u = if u = t then v else ts.get u := by
  split
  · next h => rw [h, Temps.get_set_same]
  · next h => exact Temps.get_set_other ts t u v h

/-! ### A read and the host -/

theorem busRead_host (s : State) (off : Word) : (s.busRead off).1.host = s.host := by
  obtain ⟨draws, window, hread, -⟩ := busRead_state s off
  rw [hread]

/-- The bus does not see the host that uses it: moving the host on leaves the answer of a read. -/
theorem busRead_hostNext_answer (s : State) (off : Word) : (s.hostNext.busRead off).2 = (s.busRead off).2 := by
  by_cases hstatus : addressMap s.params off = .reg .status
  · rw [busRead_status (s := s.hostNext) hstatus, busRead_status hstatus, State.readStatus, State.readStatus,
      State.hostNext_pending]
    split <;> rfl
  · cases hdraw : s.busy && (addressMap s.params off).isResult with
    | false =>
      rw [busRead_stable (s := s.hostNext) rfl hstatus hdraw, busRead_stable rfl hstatus hdraw]
      rfl
    | true =>
      obtain ⟨hbusy, hresult⟩ := Bool.and_eq_true_iff.1 hdraw
      rw [busRead_draw (s := s.hostNext) rfl hbusy hresult, busRead_draw rfl hbusy hresult]
      rfl

/-- Settles O48: the rule of each operation; a read keeps the host, so `lw` writes its temporary in the host as it stood. -/
theorem hostOperationsFollowNotation : Obligations.HostOperationsFollowNotation := by
  intro s td ts off v k n target
  refine ⟨fun h => ⟨runHostOp_sw s h v, ?_⟩, rfl, rfl, runHostOp_bnez s ts target, Temps.get_set _ _ _ _⟩
  rw [runHostOp_lw s h td, State.setTemp, busRead_host, busRead_hostNext_answer]
  rfl

end Sys2Proof.Machine
end

section
/-! PROOFS. LOAD (spec 40_load R110 to R117): what each check answers, and the frame built from the staged planes. -/

open Sys2Proof Sys2Proof.Machine

namespace Sys2Proof.Machine

/-! ### The registers LOAD checks -/

theorem mem_suppliedPlanes {k : PlaneId} {p : Nat} : k ∈ suppliedPlanes p ↔ k.number ≤ p := by
  match p with
  | 0 | 1 | 2 => cases k <;> decide
  | n + 3 => cases k <;> simp [suppliedPlanes, PlaneId.number]

theorem all_dimsLegal_iff {s : State} {p : Nat} :
    (suppliedPlanes p).all s.dimsLegal = true ↔ suppliedDimsLegal s p := by
  simp only [List.all_eq_true, mem_suppliedPlanes, State.dimsLegal, Bool.and_eq_true, decide_eq_true_eq, and_assoc,
    suppliedDimsLegal]

theorem loadableType_isSome_iff {code : Nat} : (loadableType code).isSome = true ↔ code ≤ 1 := by
  match code with
  | 0 | 1 => decide
  | n + 2 => exact ⟨nofun, fun h => absurd h (by omega)⟩

theorem all_typeLegal_iff {s : State} {p : Nat} :
    (suppliedPlanes p).all s.typeLegal = true ↔ suppliedTypesLegal s p := by
  simp only [List.all_eq_true, mem_suppliedPlanes, State.typeLegal, loadableType_isSome_iff, suppliedTypesLegal]

/-- The width of a legal declared type: u8 is 8, u16 is 16 (R112, R113). -/
theorem State.elemType_width {s : State} {k : PlaneId} (h : cfgType s.inCfg k ≤ 1) :
    (s.elemType k).width = 8 * (1 + cfgType s.inCfg k) := by
  unfold State.elemType
  match cfgType s.inCfg k, h with
  | 0, _ | 1, _ => rfl

/-! ### The format of the supplied planes -/

theorem loadFormat_one (s : State) : s.loadFormat 1 = .ok .gray := rfl

/-- Without a third plane, or with one that differs from the second, the chroma is inconsistent (R114). -/
theorem loadFormat_inconsistent {s : State} {p : Nat}
    (h : p = 2 ∨ (p = 3 ∧ ¬(s.inW .plane2 = s.inW .plane3 ∧ s.inH .plane2 = s.inH .plane3))) :
    s.loadFormat p = .error .inconsistentChromaSize := by
  rcases h with rfl | h
  · rfl
  · exact (if_neg (by omega)).trans (if_pos h)

/-- Three planes with equal chroma dimensions are classified (R116). -/
theorem loadFormat_three {s : State} (hw : s.inW .plane2 = s.inW .plane3) (hh : s.inH .plane2 = s.inH .plane3) :
    s.loadFormat 3 = (classify (s.inW .plane1).toNat (s.inH .plane1).toNat (s.inW .plane2).toNat
      (s.inH .plane2).toNat).elim (.error .unknownSubsampling) .ok := by
  have hsame : ¬(3 = 3 ∧ ¬(s.inW .plane2 = s.inW .plane3 ∧ s.inH .plane2 = s.inH .plane3)) := fun h => h.2 ⟨hw, hh⟩
  rw [State.loadFormat, if_neg (by decide), if_neg hsame, if_neg (by decide)]
  split
  · next hc => rw [hc]; rfl
  · next hc => rw [hc]; rfl

theorem classify_eq_none {yW yH uW uH : Nat} (hw : 1 ≤ yW) (hh : 1 ≤ yH)
    (h : ∀ f, f ≠ .gray → ¬chromaFits f yW yH uW uH) : classify yW yH uW uH = none :=
  Option.eq_none_iff_forall_ne_some.2 fun f hf =>
    have ⟨hgray, hfits⟩ := (classifyByExactRatio yW yH uW uH f hw hh).1 hf
    h f hgray hfits

/-! ### LOAD's checks in their order -/

/-- The structural checks of R111 hold. -/
structure State.LoadRegistersLegal (s : State) : Prop where
  planes : cfgPlanes s.inCfg ≠ 0
  depthPos : 1 ≤ (cfgBitDepth s.inCfg).toNat
  depthMax : (cfgBitDepth s.inCfg).toNat ≤ 16
  dims : suppliedDimsLegal s (cfgPlanes s.inCfg)

theorem State.LoadRegistersLegal.luma_pos {s : State} (h : s.LoadRegistersLegal) :
    1 ≤ (s.inW .plane1).toNat ∧ 1 ≤ (s.inH .plane1).toNat := by
  obtain ⟨hw, -, hh, -⟩ := h.dims .plane1 (Nat.one_le_iff_ne_zero.2 h.planes)
  exact ⟨hw, hh⟩

/-- R111 comes first. -/
theorem loadCheck_of_illegal_registers {s : State} (h : ¬s.LoadRegistersLegal) :
    s.loadCheck = .error .illegalCommand := by
  simp only [State.loadCheck]
  split
  · rfl
  next hp =>
  split
  · rfl
  next hbd =>
  split
  · rfl
  next hd => exact absurd ⟨hp, by omega, by omega, all_dimsLegal_iff.1 (not_not.1 hd)⟩ h

/-- Past R111, the types of R112 and the width of R113 are checked, then the format is found. -/
theorem loadCheck_of_legal_registers {s : State} (h : s.LoadRegistersLegal) :
    s.loadCheck =
      if ¬(suppliedPlanes (cfgPlanes s.inCfg)).all s.typeLegal then .error .invalidSampleType
      else if (s.elemType .plane1).width < (cfgBitDepth s.inCfg).toNat then .error .illegalCommand
      else s.loadFormat (cfgPlanes s.inCfg) := by
  obtain ⟨hp, h1, h16, hd⟩ := h
  rw [State.loadCheck, if_neg hp, if_neg (by omega), if_neg (not_not.2 (all_dimsLegal_iff.2 hd))]

theorem loadCheck_of_illegal_types {s : State} (h : s.LoadRegistersLegal)
    (ht : ¬suppliedTypesLegal s (cfgPlanes s.inCfg)) : s.loadCheck = .error .invalidSampleType := by
  rw [loadCheck_of_legal_registers h, if_pos (mt all_typeLegal_iff.1 ht)]

theorem loadCheck_of_legal_types {s : State} (h : s.LoadRegistersLegal)
    (ht : suppliedTypesLegal s (cfgPlanes s.inCfg)) :
    s.loadCheck = if 8 * (1 + cfgType s.inCfg .plane1) < (cfgBitDepth s.inCfg).toNat then .error .illegalCommand
      else s.loadFormat (cfgPlanes s.inCfg) := by
  have hwidth := State.elemType_width (ht .plane1 (Nat.one_le_iff_ne_zero.2 h.planes))
  rw [loadCheck_of_legal_registers h, if_neg (not_not.2 (all_typeLegal_iff.2 ht)), hwidth]

/-- A check that fails only sets RESULT (R117). -/
theorem exec_load_of_error {s : State} {e : ResultCode} (h : s.loadCheck = .error e) :
    exec .load s = .next { s with result := e } :=
  (finishOrRaise_map s _ _).trans (by rw [h]; rfl)

theorem exec_load_of_ok {s : State} {f : ChromaFormat} (h : s.loadCheck = .ok f) :
    exec .load s = .next (State.finish { s with frame := s.loadFrame f }) :=
  (finishOrRaise_map s _ _).trans (by rw [h])

/-- Settles O14: each check raises its own code once those before it pass. -/
theorem loadErrorsInOrder : Obligations.LoadErrorsInOrder := by
  intro s p bd
  refine ⟨fun hbad => ?_, fun hp h1 h16 hd => ?_⟩
  · refine exec_load_of_error (loadCheck_of_illegal_registers fun ⟨hp, h1, h16, hd⟩ => ?_)
    rcases hbad with h | h | h | h
    · exact hp h
    · exact absurd h1 (Nat.not_le.2 h)
    · exact absurd h16 (Nat.not_le.2 h)
    · exact h hd
  have hregs : s.LoadRegistersLegal := ⟨hp, h1, h16, hd⟩
  refine ⟨fun ht => exec_load_of_error (loadCheck_of_illegal_types hregs ht), fun ht => ?_⟩
  have hcheck := loadCheck_of_legal_types hregs ht
  refine ⟨fun hw => exec_load_of_error (hcheck.trans (if_pos hw)), fun hw => ?_⟩
  have hformat : s.loadCheck = s.loadFormat p := hcheck.trans (if_neg (Nat.not_lt.2 hw))
  refine ⟨fun hc => exec_load_of_error (hformat.trans (loadFormat_inconsistent hc)), fun h3 hcw hch hnone => ?_⟩
  obtain ⟨hyw, hyh⟩ := hregs.luma_pos
  refine exec_load_of_error (hformat.trans ?_)
  rw [h3, loadFormat_three hcw hch, classify_eq_none hyw hyh hnone]
  rfl

/-! ### The frame LOAD builds -/

/-- R110's conditions are what LOAD checks. -/
theorem loadCheck_of_loadAccepts {s : State} {f : ChromaFormat} (h : loadAccepts s f) : s.loadCheck = .ok f := by
  obtain ⟨hp, h1, h16, hd, ht, hw, hgray, hcolour⟩ := h
  have hregs : s.LoadRegistersLegal := ⟨by omega, h1, h16, hd⟩
  rw [loadCheck_of_legal_types hregs ht, if_neg (Nat.not_lt.2 hw)]
  rcases hp with h1p | h3p
  · rw [h1p, hgray h1p, loadFormat_one]
  · obtain ⟨hf, hcw, hch, hfits⟩ := hcolour h3p
    obtain ⟨hyw, hyh⟩ := hregs.luma_pos
    rw [h3p, loadFormat_three hcw hch, (classifyByExactRatio _ _ _ _ f hyw hyh).2 ⟨hf, hfits⟩]
    rfl

theorem State.loadFrame_planes {s : State} (f : ChromaFormat) (h : cfgPlanes s.inCfg = 1 ∨ cfgPlanes s.inCfg = 3) :
    (s.loadFrame f).planes.toNat = cfgPlanes s.inCfg := by
  rcases h with h | h <;> simp [State.loadFrame, h, PlaneCount.toNat]

/-- Every supplied plane is copied into its own register (R115). -/
theorem State.loadFrame_plane {s : State} (f : ChromaFormat) {k : PlaneId} (h : k.number ≤ cfgPlanes s.inCfg) :
    (s.loadFrame f).plane k = s.loadPlane k := by
  cases k with
  | plane1 => rfl
  | plane2 => exact if_neg (Nat.ne_of_gt h)
  | plane3 => exact if_neg (Nat.ne_of_gt (Nat.lt_of_succ_lt h))

theorem State.loadPlane_cell {s : State} {k : PlaneId} {r c : Nat} (hr : r < (s.inH k).toNat) (hc : c < (s.inW k).toNat) :
    (s.loadPlane k).cell r c =
      loadCell (s.elemType .plane1) (s.elemType k) (s.inCell k (r * (s.inW k).toNat + c)) := by
  have hn : r * (s.inW k).toNat + c < (s.inW k).toNat * (s.inH k).toNat := by
    calc r * (s.inW k).toNat + c < (r + 1) * (s.inW k).toNat := by rw [Nat.succ_mul]; omega
      _ ≤ (s.inH k).toNat * (s.inW k).toNat := Nat.mul_le_mul_right _ hr
      _ = (s.inW k).toNat * (s.inH k).toNat := Nat.mul_comm _ _
  simp only [Plane.cell, Plane.cellAt, State.loadPlane, List.getD_eq_getElem?_getD, List.getElem?_map,
    List.getElem?_range hn, Option.map_some, Option.getD_some]

/-- A cell is cut to the narrower of the frame's type and its plane's declared one (R115). -/
theorem loadCell_elemType {s : State} {k : PlaneId} (h1 : cfgType s.inCfg .plane1 ≤ 1) (hk : cfgType s.inCfg k ≤ 1)
    (w : Word) :
    loadCell (s.elemType .plane1) (s.elemType k) w =
      BitVec.ofNat 32 (w.toNat % 2 ^ (8 * (1 + min (cfgType s.inCfg .plane1) (cfgType s.inCfg k)))) := by
  rw [loadCell, State.elemType_width h1, State.elemType_width hk, Nat.mul_min_mul_left, Nat.add_min_add_left]

/-- Settles O13: the checks pass, and each plane register is the cut copy of its staged plane. -/
theorem loadBuildsFrame : Obligations.LoadBuildsFrame := by
  intro s f h
  have hcheck := loadCheck_of_loadAccepts h
  obtain ⟨hp, -, -, -, ht, -⟩ := h
  have hone : 1 ≤ cfgPlanes s.inCfg := by omega
  refine ⟨_, exec_load_of_ok hcheck, rfl, rfl, State.loadFrame_planes f hp, (elemType_of_loadCheck hcheck).1, rfl, rfl,
    fun k hk => ?_⟩
  have hplane : (State.finish { s with frame := s.loadFrame f }).frame.plane k = s.loadPlane k :=
    State.loadFrame_plane f hk
  rw [hplane]
  refine ⟨rfl, rfl, State.loadPlane_length s k, fun r c hr hc => ?_⟩
  rw [State.loadPlane_cell hr hc, loadCell_elemType (ht .plane1 hone) (ht k hk)]

end Sys2Proof.Machine
end

section
/-! PROOFS. READ (spec 41_read R130 to R134): the plane it selects, the cell it returns, and its errors in order. -/

open Sys2Proof Sys2Proof.Machine

namespace Sys2Proof.Machine

/-! ### The plane READ selects -/

theorem selectedPlane_eq_some_iff {sel : Nat} {k : PlaneId} : selectedPlane sel = some k ↔ k.number = sel + 1 := by
  match sel with
  | 0 | 1 | 2 => cases k <;> decide
  | n + 3 => cases k <;> simp [selectedPlane, PlaneId.number]

/-- The arity is the one the format needs and `k` is the plane the selector names; on a GRAY frame that is P1, whatever the
selector (R131, R132). -/
def State.ReadSelects (s : State) (arity sel : Nat) (k : PlaneId) : Prop :=
  (s.frame.fmt = .gray ∧ arity = 2 ∧ k = .plane1) ∨ (s.frame.fmt ≠ .gray ∧ arity = 3 ∧ k.number = sel + 1)

theorem readPlane_of_uninitialized {s : State} (hi : s.frame.init = false) (arity sel : Nat) :
    s.readPlane arity sel = .error .uninitializedFrame := if_pos hi

theorem readPlane_of_gray {s : State} (hi : s.frame.init = true) (hg : s.frame.fmt = .gray) (arity sel : Nat) :
    s.readPlane arity sel = if arity = 2 then .ok .plane1 else .error .invalidIndexArity := by
  rw [State.readPlane, if_neg (by simp [hi]), if_pos hg]

theorem readPlane_of_colour {s : State} (hi : s.frame.init = true) (hg : s.frame.fmt ≠ .gray) (arity sel : Nat) :
    s.readPlane arity sel = if arity ≠ 3 then .error .invalidIndexArity
      else (selectedPlane sel).elim (.error .indexOutOfRange) .ok := by
  rw [State.readPlane, if_neg (by simp [hi]), if_neg hg]
  cases selectedPlane sel <;> rfl

/-- An arity the format does not take is refused before the selector is looked at (R131, R211). -/
theorem readPlane_of_wrong_arity {s : State} {arity : Nat} (hi : s.frame.init = true)
    (h : (s.frame.fmt = .gray ∧ arity ≠ 2) ∨ (s.frame.fmt ≠ .gray ∧ arity ≠ 3)) (sel : Nat) :
    s.readPlane arity sel = .error .invalidIndexArity := by
  rcases h with ⟨hg, ha⟩ | ⟨hg, ha⟩
  · rw [readPlane_of_gray hi hg, if_neg ha]
  · rw [readPlane_of_colour hi hg, if_pos ha]

theorem readPlane_of_selects {s : State} {arity sel : Nat} {k : PlaneId} (hi : s.frame.init = true)
    (h : s.ReadSelects arity sel k) : s.readPlane arity sel = .ok k := by
  rcases h with ⟨hg, ha, rfl⟩ | ⟨hg, ha, hk⟩
  · rw [readPlane_of_gray hi hg, if_pos ha]
  · rw [readPlane_of_colour hi hg, if_neg (not_not.2 ha), selectedPlane_eq_some_iff.2 hk]
    rfl

/-! ### The cell READ returns -/

theorem lowHalf_idx (s : State) : (lowHalf s.idx).toNat = idxRow s := BitVec.extractLsb'_toNat 0 16 s.idx

theorem highHalf_idx (s : State) : (highHalf s.idx).toNat = idxCol s := by
  have hlt : s.idx.toNat < 2 ^ 32 := s.idx.isLt
  rw [highHalf, BitVec.extractLsb'_toNat, Nat.shiftRight_eq_div_pow, idxCol]
  omega

theorem readCell_of_readPlane_error {s : State} {arity sel : Nat} {e : ResultCode}
    (h : s.readPlane arity sel = .error e) : s.readCell arity sel = .error e := by
  rw [State.readCell, h]

/-- The coordinates are IDX's halves, compared with the selected plane's own dimensions (R132, R133). -/
theorem readCell_of_readPlane_ok {s : State} {arity sel : Nat} {k : PlaneId} (h : s.readPlane arity sel = .ok k) :
    s.readCell arity sel =
      if (s.frame.plane k).h.toNat ≤ idxRow s ∨ (s.frame.plane k).w.toNat ≤ idxCol s then .error .indexOutOfRange
      else .ok ((s.frame.plane k).cell (idxRow s) (idxCol s)) := by
  rw [State.readCell, h]
  simp only [lowHalf_idx, highHalf_idx]

/-! ### What READ answers -/

/-- A check that fails only sets RESULT (R134, R201). -/
theorem exec_read_of_error {s : State} {arity sel : Nat} {e : ResultCode} (h : s.readCell arity sel = .error e) :
    exec (.read arity sel) s = .next { s with result := e } :=
  (finishOrRaise_map s _ _).trans (by rw [h]; rfl)

theorem exec_read_of_ok {s : State} {arity sel : Nat} {v : Word} (h : s.readCell arity sel = .ok v) :
    exec (.read arity sel) s = .next { s with rdata := v, result := .ok } :=
  (finishOrRaise_map s _ _).trans (by rw [h]; rfl)

theorem exec_read_of_readPlane_error {s : State} {arity sel : Nat} {e : ResultCode}
    (h : s.readPlane arity sel = .error e) : exec (.read arity sel) s = .next { s with result := e } :=
  exec_read_of_error (readCell_of_readPlane_error h)

/-- Settles O16: the plane is selected, both coordinates lie in it, and the cell at them goes to RDATA. -/
theorem readReturnsCell : Obligations.ReadReturnsCell := by
  intro s arity sel k hi hsel hr hc
  have hplane : s.readPlane arity sel = .ok k := readPlane_of_selects hi hsel
  have hinside : ¬((s.frame.plane k).h.toNat ≤ idxRow s ∨ (s.frame.plane k).w.toNat ≤ idxCol s) := by omega
  exact exec_read_of_ok ((readCell_of_readPlane_ok hplane).trans (if_neg hinside))

/-- Settles O17: each check raises its own code once those before it pass. -/
theorem readErrorsInOrder : Obligations.ReadErrorsInOrder := by
  intro s arity sel _
  refine ⟨fun hi => ?uninitialized, fun hi => ⟨fun harity => ?arity, fun hg ha hs => ?selector,
    fun k hsel hout => ?coordinate⟩⟩
  case uninitialized => exact exec_read_of_readPlane_error (readPlane_of_uninitialized hi arity sel)
  case arity => exact exec_read_of_readPlane_error (readPlane_of_wrong_arity hi harity sel)
  case selector =>
    refine exec_read_of_readPlane_error ?_
    rw [readPlane_of_colour hi hg, if_neg (not_not.2 ha), hs]
    rfl
  case coordinate =>
    have hplane : s.readPlane arity sel = .ok k := readPlane_of_selects hi hsel
    exact exec_read_of_error ((readCell_of_readPlane_ok hplane).trans (if_pos hout))

end Sys2Proof.Machine
end

section
/-! PROOFS. NORMALIZE (spec 42_normalize R140 to R144): the frame it leaves, and the quotient each integer sample becomes. -/

open Sys2Proof Sys2Proof.Machine

namespace Sys2Proof.Machine

/-! ### The frame NORMALIZE leaves -/

/-- Present planes are rewritten, absent ones kept (R140). -/
theorem Frame.mapPresent_plane (f : Frame) (g : Word → Word) (k : PlaneId) :
    (f.mapPresent g).plane k = if k.number ≤ f.planes.toNat then (f.plane k).mapCells g else f.plane k := by
  unfold Frame.mapPresent
  cases f.planes <;> cases k <;> rfl

/-- Only the plane registers and the sample type differ (R140). -/
theorem Frame.normalized_eq (f : Frame) :
    f.normalized = { f with p1 := f.normalized.p1, p2 := f.normalized.p2, p3 := f.normalized.p3, sampleType := .f32 } := by
  have heta : f.normalized = ⟨f.normalized.init, f.normalized.planes, f.normalized.p1, f.normalized.p2, f.normalized.p3,
    f.normalized.sampleType, f.normalized.bitDepth, f.normalized.fmt⟩ := rfl
  rwa [Frame.normalized_init, Frame.normalized_planes, Frame.normalized_bitDepth, Frame.normalized_fmt] at heta

/-- The spec's reading of a cell and its divisor is the model's (R140, R143). -/
theorem normalizeCell_eq_specNormalize (t : SampleType) (bd : BitVec 5) :
    normalizeCell t bd = specNormalize t bd.toNat := by
  cases t <;> rfl

theorem Frame.normalized_plane (f : Frame) (k : PlaneId) :
    f.normalized.plane k = if k.number ≤ f.planes.toNat
      then { f.plane k with cells := (f.plane k).cells.map (specNormalize f.sampleType f.bitDepth.toNat) }
      else f.plane k := by
  rw [← normalizeCell_eq_specNormalize]
  exact (show f.normalized.plane k = (f.mapPresent _).plane k by cases k <;> rfl).trans (f.mapPresent_plane _ k)

/-! ### What NORMALIZE answers -/

theorem exec_normalize_of_uninitialized {s : State} (hi : s.frame.init = false) :
    exec .normalize s = .next { s with result := .uninitializedFrame } :=
  (finishOrRaise_map s _ _).trans (by rw [State.normalizeCheck, if_pos hi]; rfl)

theorem exec_normalize_of_initialized {s : State} (hi : s.frame.init = true) :
    exec .normalize s = .next (State.finish { s with frame := s.frame.normalized }) :=
  (finishOrRaise_map s _ _).trans (by rw [State.normalizeCheck, if_neg (by simp [hi])])

/-- Settles O18: the only check passes on an initialized frame, and `Frame.normalized` rewrites the present planes. -/
theorem normalizeDividesPresentCells : Obligations.NormalizeDividesPresentCells := by
  intro s
  refine ⟨exec_normalize_of_uninitialized, fun hi => ⟨_, exec_normalize_of_initialized hi, rfl,
    s.frame.normalized_eq, fun k => ⟨fun hpresent => ?_, fun habsent => ?_⟩⟩⟩
  · exact (s.frame.normalized_plane k).trans (if_pos hpresent)
  · exact (s.frame.normalized_plane k).trans (if_neg (Nat.not_le.2 habsent))

/-! ### The quotient of two natural numbers -/

namespace F32

theorem sign_ofNat (n : Nat) : sign (F32.ofNat n) = false := by
  rw [F32.ofNat, ofScaled, sign_pack _ (roundMag_lt _ _)]
  exact decide_eq_false (by omega)

/-- The exponent and fraction bits of n / d, both converted to binary32 first. -/
def quotientBits (n d : Nat) : Nat := roundMag (n * 2 ^ 149 * 2 ^ 149) (d * 2 ^ 149)

theorem div_ofNat {n d : Nat} (hn : n < 2 ^ 24) (hd : d < 2 ^ 24) (hpos : 1 ≤ d) :
    div (F32.ofNat n) (F32.ofNat d) = pack false (quotientBits n d) := by
  have hmag : mag (F32.ofNat d) ≠ 0 := by rw [mag_ofNat hd]; omega
  rw [div_of_finite (ofNat_exact hn).1 (ofNat_exact hd).1 hmag, sign_ofNat, sign_ofNat, mag_ofNat hn, mag_ofNat hd]
  rfl

/-- 0x3F800000 is the code of 1.0. -/
theorem codeMag_one : codeMag 0x3F800000 = 2 ^ 149 := by decide

/-- The least value above 1.0 is 1 + 2^-23. -/
theorem codeMag_after_one : codeMag 0x3F800001 = 2 ^ 149 + 2 ^ 126 := by decide

theorem quotientBits_zero {d : Nat} (hpos : 1 ≤ d) : quotientBits 0 d = 0 := by
  rw [quotientBits, Nat.zero_mul, Nat.zero_mul, roundMag_zero (by omega)]

theorem quotientBits_self {d : Nat} (hpos : 1 ≤ d) : quotientBits d d = 0x3F800000 := by
  rw [quotientBits, Nat.mul_comm (d * 2 ^ 149) (2 ^ 149), ← codeMag_one]
  exact roundMag_exact (Nat.mul_pos hpos (by decide)) (by decide)

/-- Rounding does not move a quotient across 1.0: one at most 1 rounds to at most 1.0, and one above 1 is at least
(d + 1) / d, which is no nearer to 1.0 than the next code after it (R142). -/
theorem quotientBits_le_one_iff {n d : Nat} (hpos : 1 ≤ d) (hd : d ≤ 2 ^ 23) :
    quotientBits n d ≤ 0x3F800000 ↔ n ≤ d := by
  refine ⟨fun hle => ?_, fun hnd => ?_⟩
  · by_contra hlt
    have hgap : 0x3F800001 ≤ quotientBits n d := le_roundMag (by omega) (by decide) (by rw [codeMag_after_one]; omega)
    omega
  · exact roundMag_le (by omega) (by rw [codeMag_one]; omega)

theorem quotientBits_le_infinity (n d : Nat) : quotientBits n d ≤ 0x7F800000 := Nat.min_le_right _ _

theorem scaled_pack_false {c : Nat} (h : c ≤ 0x7F800000) : scaled (pack false c) = codeMag c :=
  scaled_pack false (by omega)

/-- Codes are ordered as the values they stand for, here about 1.0. -/
theorem codeMag_le_one_iff {c : Nat} (h : c ≤ 0x7F800000) : codeMag c ≤ 2 ^ 149 ↔ c ≤ 0x3F800000 := by
  refine ⟨fun hle => ?_, fun hc => codeMag_one ▸ codeMag_mono (by decide) hc⟩
  by_contra hgt
  have hnext : codeMag 0x3F800001 ≤ codeMag c := codeMag_mono h (by omega)
  rw [codeMag_after_one] at hnext
  omega

end F32

open F32

/-! ### A normalized integer sample -/

section
variable {t : SampleType} (ht : t ≠ .f32)
include ht

theorem width_le_of_integer : t.width ≤ 16 := by
  cases t with
  | u8 => decide
  | u16 => decide
  | f32 => exact absurd rfl ht

/-- An integer cell that fits its type's width is converted as it stands (R24, R140). -/
theorem cellAsF32_integer {x : Word} (hx : x.toNat < 2 ^ t.width) : cellAsF32 t x = F32.ofNat x.toNat := by
  cases t with
  | u8 => exact congrArg F32.ofNat (Nat.mod_eq_of_lt hx)
  | u16 => exact congrArg F32.ofNat (Nat.mod_eq_of_lt hx)
  | f32 => exact absurd rfl ht

variable {bd : BitVec 5} (h1 : 1 ≤ bd.toNat) (h16 : bd.toNat ≤ 16)
include h1 h16

/-- R140 on an integer sample: the sign is + and the other bits are the rounded quotient's. -/
theorem normalizeCell_integer {x : Word} (hx : x.toNat < 2 ^ t.width) :
    normalizeCell t bd x = pack false (quotientBits x.toNat (normDivisor t bd)) := by
  obtain ⟨hlo, hhi⟩ := normDivisor_bounds t h1 h16
  have hwidth : 2 ^ t.width ≤ 2 ^ 16 := Nat.pow_le_pow_right (by decide) (width_le_of_integer ht)
  rw [normalizeCell, cellAsF32_integer ht hx]
  exact div_ofNat (by omega) (by omega) hlo

theorem normalizeCell_zero : normalizeCell t bd 0 = 0 := by
  rw [normalizeCell_integer ht h1 h16 (Nat.two_pow_pos _)]
  exact congrArg (pack false) (quotientBits_zero (normDivisor_bounds t h1 h16).1)

theorem normDivisor_lt_two_pow_width : normDivisor t bd < 2 ^ t.width := by
  cases t with
  | u8 => exact (by decide : 255 < 2 ^ 8)
  | u16 => exact Nat.lt_succ_of_le (fullScale_bounds h1 h16).2
  | f32 => exact absurd rfl ht

theorem normalizeCell_divisor : normalizeCell t bd (BitVec.ofNat 32 (normDivisor t bd)) = one := by
  obtain ⟨hlo, hhi⟩ := normDivisor_bounds t h1 h16
  have hval : (BitVec.ofNat 32 (normDivisor t bd)).toNat = normDivisor t bd := by
    rw [BitVec.toNat_ofNat]
    omega
  have hfits := normDivisor_lt_two_pow_width ht h1 h16
  rw [normalizeCell_integer ht h1 h16 (hval.symm ▸ hfits), hval, quotientBits_self hlo]
  rfl

end

/-- Settles O19: 0 / d and d / d are exact, whatever the divisor d. -/
theorem normalizeEndpoints : Obligations.NormalizeEndpoints :=
  ⟨normalizeCell_zero (by decide) (by decide) (by decide), normalizeCell_divisor (by decide) (by decide) (by decide),
    fun _ h1 h16 => ⟨normalizeCell_zero (by decide) h1 h16, normalizeCell_divisor (by decide) h1 h16⟩⟩

/-- Settles O20: the quotient's sign is +, and neither rounding nor the order of codes crosses 1.0. -/
theorem normalizedSampleInUnitIffInRange : Obligations.NormalizedSampleInUnitIffInRange := by
  intro t bd x hx h1 h16
  obtain ⟨ht, hfits⟩ : t ≠ .f32 ∧ x.toNat < 2 ^ t.width := by
    rcases hx with ⟨rfl, hlt⟩ | ⟨rfl, hlt⟩
    · exact ⟨by decide, hlt⟩
    · exact ⟨by decide, hlt⟩
  have hdivisor : normDivisor t bd = if t = .u8 then 255 else 2 ^ bd.toNat - 1 := by cases t <;> rfl
  obtain ⟨hlo, hhi⟩ := normDivisor_bounds t h1 h16
  have hfinite : finite (normalizeCell t bd x) = true :=
    (cellForm_normalizeCell (Nat.le_refl _) (exists_code_of_lt (by decide)) h1 h16 (cellForm_of_lt ht hfits _)).1
  refine ⟨hfinite, ?_⟩
  have hbits := quotientBits_le_infinity x.toNat (normDivisor t bd)
  rw [normalizeCell_integer ht h1 h16 hfits, scaled_pack_false hbits, ← hdivisor]
  refine ⟨Int.natCast_nonneg _, ?_⟩
  calc (codeMag (quotientBits x.toNat (normDivisor t bd)) : Int) ≤ 2 ^ 149
      ↔ codeMag (quotientBits x.toNat (normDivisor t bd)) ≤ 2 ^ 149 := by omega
    _ ↔ quotientBits x.toNat (normDivisor t bd) ≤ 0x3F800000 := codeMag_le_one_iff hbits
    _ ↔ x.toNat ≤ normDivisor t bd := quotientBits_le_one_iff hlo (by omega)

end Sys2Proof.Machine
end

section
/-! PROOFS. UPSAMPLE (spec 43_upsample R150 to R157): the coefficient table, the weighted sum of one axis, the constant and
the mirrored plane, and the cells of LANCZOS3_Q14 in the spec's terms. -/

open Sys2Proof Sys2Proof.Machine

namespace Sys2Proof.Machine

/-! ### The coefficient table -/

theorem taps_length (f p : Nat) : (taps f p).2.length = 6 := by
  unfold taps
  split <;> rfl

/-- Every row sums to exactly 2^14 (R154). -/
theorem taps_sum (f p : Nat) : (taps f p).2.sum = 16384 := by
  unfold taps
  split <;> rfl

/-- Opposite phases reverse the coefficients, and the six taps of one cover the reflected places of the other's
(R157 case 5). A copied axis (f = 1) is not of this form: its one phase has five taps of weight 0 placed off-centre. -/
theorem taps_mirror {f p : Nat} (hf : f = 2 ∨ f = 4) (hp : p < f) :
    taps f (f - 1 - p) = (-5 - (taps f p).1, (taps f p).2.reverse) := by
  rcases hf with rfl | rfl
  · exact (by decide : ∀ p < 2, taps 2 (2 - 1 - p) = (-5 - (taps 2 p).1, (taps 2 p).2.reverse)) p hp
  · exact (by decide : ∀ p < 4, taps 4 (4 - 1 - p) = (-5 - (taps 4 p).1, (taps 4 p).2.reverse)) p hp

/-- Settles O24: the rows are the table's own, and the sums and mirrors are those of every row. -/
theorem coefficientRowsSumAndMirror : Obligations.CoefficientRowsSumAndMirror :=
  ⟨⟨rfl, rfl, rfl, rfl, rfl, rfl, rfl⟩, taps_sum 1 0, taps_sum 2 0, taps_sum 2 1, taps_sum 4 0, taps_sum 4 1, taps_sum 4 2,
    taps_sum 4 3, congrArg Prod.snd (taps_mirror (p := 0) (.inl rfl) (by decide)),
    congrArg Prod.snd (taps_mirror (p := 1) (.inr rfl) (by decide)),
    congrArg Prod.snd (taps_mirror (p := 0) (.inr rfl) (by decide))⟩

theorem specCoeff_mirror {f p i : Nat} (hf : f = 2 ∨ f = 4) (hp : p < f) (hi : i < 6) :
    specCoeff f (f - 1 - p) i = specCoeff f p (5 - i) := by
  have hlen := taps_length f p
  rw [specCoeff, specCoeff, taps_mirror hf hp, List.getD_eq_getElem _ _ (by rw [List.length_reverse]; omega),
    List.getD_eq_getElem _ _ (by omega), List.getElem_reverse]
  congr 1
  omega

/-! ### The edge rule -/

theorem clampIndex_lt {n : Nat} (hn : 1 ≤ n) (z : Int) : clampIndex z n < n := by
  unfold clampIndex clampInt
  omega

theorem clampIndex_of_lt {o n : Nat} (h : o < n) : clampIndex o n = o := by
  unfold clampIndex clampInt
  omega

/-- Clamping commutes with the reflection of an axis (R156). -/
theorem clampIndex_mirror {n : Nat} (hn : 1 ≤ n) (z : Int) : clampIndex ((n : Int) - 1 - z) n = n - 1 - clampIndex z n := by
  unfold clampIndex clampInt
  omega

/-! ### The weighted sum of one axis -/

theorem sumInt_eq_sum (l : List Int) : sumInt l = l.sum := List.sum_eq_foldr.symm

/-- The taps of output index o on one axis, each coefficient times a value at its source index (R153, R155). -/
def axisSum (f o n : Nat) (g : Nat → Int) : Int := sumInt ((axisTaps f o n).map fun t => t.1 * g t.2)

/-- The double sum of R155 is one axis's sum of the other's. -/
theorem lanczosAcc_eq_axisSum (x : Plane) (fx fy r c : Nat) (t : SampleType) :
    lanczosAcc x fx fy r c t =
      axisSum fy r x.h.toNat fun i => axisSum fx c x.w.toNat fun j => scaledVal (x.cell i j) t := rfl

/-- The source index of tap i, clamped to the axis (R153, R156). -/
def tapIndex (f o n i : Nat) : Nat := clampIndex (((o / f : Nat) : Int) + (taps f (o % f)).1 + i) n

theorem tapIndex_lt {n : Nat} (hn : 1 ≤ n) (f o i : Nat) : tapIndex f o n i < n := clampIndex_lt hn _

theorem axisTaps_eq (f o n : Nat) :
    axisTaps f o n = (List.range 6).map fun i => (specCoeff f (o % f) i, tapIndex f o n i) := by
  have hlen := taps_length f (o % f)
  refine List.ext_getElem (by simp [axisTaps, hlen]) fun i hi _ => ?_
  have hi6 : i < (taps f (o % f)).2.length := by simpa [axisTaps] using hi
  simp [axisTaps, specCoeff, tapIndex, List.getElem?_eq_getElem hi6]

theorem axisSum_eq_list (f o n : Nat) (g : Nat → Int) :
    axisSum f o n g = ((List.range 6).map fun i => specCoeff f (o % f) i * g (tapIndex f o n i)).sum := by
  rw [axisSum, sumInt_eq_sum, axisTaps_eq, List.map_map]
  rfl

theorem axisSum_eq_sum (f o n : Nat) (g : Nat → Int) :
    axisSum f o n g = ∑ i ∈ Finset.range 6, specCoeff f (o % f) i * g (tapIndex f o n i) := axisSum_eq_list f o n g

/-- Only values at indices on the axis are weighed (R156). -/
theorem axisSum_congr {n : Nat} (hn : 1 ≤ n) (f o : Nat) {g g' : Nat → Int} (h : ∀ i < n, g i = g' i) :
    axisSum f o n g = axisSum f o n g' := by
  rw [axisSum_eq_sum, axisSum_eq_sum]
  exact Finset.sum_congr rfl fun i _ => by rw [h _ (tapIndex_lt hn f o i)]

theorem specCoeff_sum (f p : Nat) : ∑ i ∈ Finset.range 6, specCoeff f p i = 16384 := by
  calc ((List.range 6).map (specCoeff f p)).sum = (taps f p).2.sum := by
        congr 1
        refine List.ext_getElem (by simp [taps_length]) fun i _ hi => ?_
        simp [specCoeff, List.getElem?_eq_getElem hi]
    _ = 16384 := taps_sum f p

/-- The weights sum to 2^14, so a constant is scaled by just that (R157 case 2). -/
theorem axisSum_const {n : Nat} (hn : 1 ≤ n) (f o : Nat) {g : Nat → Int} {v : Int} (h : ∀ i < n, g i = v) :
    axisSum f o n g = 16384 * v := by
  rw [axisSum_congr hn f o h, axisSum_eq_sum, ← Finset.sum_mul, specCoeff_sum]

/-- On a copied axis the sum is the sample itself, scaled (R154). -/
theorem axisSum_one {o n : Nat} (ho : o < n) (g : Nat → Int) : axisSum 1 o n g = 16384 * g o := by
  have hcentre : tapIndex 1 o n 2 = o := by simpa [tapIndex, taps] using clampIndex_of_lt ho
  simp [axisSum_eq_sum, Finset.sum_range_succ, specCoeff, taps, hcentre]

/-- Tap i of an output index reads where tap 5 - i of the mirrored output index reads, mirrored (R157 case 5). -/
theorem tapIndex_mirror {f o n i : Nat} (hf : f = 2 ∨ f = 4) (ho : o < f * n) (hi : i < 6) :
    tapIndex f (f * n - 1 - o) n i = n - 1 - tapIndex f o n (5 - i) := by
  have hn : 1 ≤ n := Nat.pos_of_mul_pos_left (Nat.zero_lt_of_lt ho)
  obtain ⟨hdiv, hmod, hlt, hp⟩ : (f * n - 1 - o) / f = n - 1 - o / f ∧ (f * n - 1 - o) % f = f - 1 - o % f ∧
      o / f < n ∧ o % f < f := by
    rcases hf with rfl | rfl <;> omega
  rw [tapIndex, tapIndex, ← clampIndex_mirror hn, hdiv, hmod, taps_mirror hf hp]
  congr 1
  dsimp only
  omega

/-- An axis's sum at the mirrored output index is the sum of the mirrored values (R157 case 5). -/
theorem axisSum_mirror {f o n : Nat} (hf : f = 1 ∨ f = 2 ∨ f = 4) (ho : o < f * n) (g : Nat → Int) :
    axisSum f o n (fun j => g (n - 1 - j)) = axisSum f (f * n - 1 - o) n g := by
  rcases hf with rfl | hf
  · rw [Nat.one_mul] at ho ⊢
    rw [axisSum_one ho, axisSum_one (by omega)]
  · have hmod : (f * n - 1 - o) % f = f - 1 - o % f := by rcases hf with rfl | rfl <;> omega
    have hp : o % f < f := Nat.mod_lt _ (by omega)
    rw [axisSum_eq_sum, axisSum_eq_sum, ← Finset.sum_range_reflect]
    refine Finset.sum_congr rfl fun i hi => ?_
    have hi6 : i < 6 := Finset.mem_range.1 hi
    rw [hmod, specCoeff_mirror hf hp hi6, tapIndex_mirror hf ho hi6]

/-! ### The constant and the mirrored plane -/

/-- An integer output is rounded once and saturated to the storage range (R155). -/
theorem lanczosRound_integer (acc : Int) {t : SampleType} (ht : t ≠ .f32) :
    lanczosRound acc t = BitVec.ofInt 32 (min (max (rheInt acc (2 ^ 28)) 0) (2 ^ t.width - 1)) := by
  cases t with
  | u8 => rfl
  | u16 => rfl
  | f32 => exact absurd rfl ht

theorem scaledVal_of_lt {t : SampleType} (ht : t ≠ .f32) {v : Word} (hv : v.toNat < 2 ^ t.width) :
    scaledVal v t = v.toNat := by
  cases t with
  | u8 => exact congrArg Nat.cast (Nat.mod_eq_of_lt hv)
  | u16 => exact congrArg Nat.cast (Nat.mod_eq_of_lt hv)
  | f32 => exact absurd rfl ht

/-- An integer value that fits its type, scaled by both axes, comes back exactly (R155). -/
theorem lanczosRound_exact {t : SampleType} (ht : t ≠ .f32) {v : Word} (hv : v.toNat < 2 ^ t.width) :
    lanczosRound (scaledVal v t * ((2 ^ 28 : Nat) : Int)) t = v := by
  have hinRange : min (max (v.toNat : Int) 0) (2 ^ t.width - 1) = v.toNat := by
    have hlt : (v.toNat : Int) < 2 ^ t.width := by exact_mod_cast hv
    omega
  rw [lanczosRound_integer _ ht, rheInt_mul _ (Nat.two_pow_pos 28), scaledVal_of_lt ht hv, hinRange, BitVec.ofInt_natCast,
    BitVec.ofNat_toNat, BitVec.setWidth_eq]

/-- Settles O25: each axis scales the constant by exactly 2^14, and the one rounding divides by 2^28. -/
theorem lanczosKeepsConstantPlane : Obligations.LanczosKeepsConstantPlane := by
  intro x fx fy r c t v ht hv _ _ hw hh hconst
  have hinteger : t ≠ .f32 := by rcases ht with rfl | rfl <;> decide
  have hrow : ∀ i < x.h.toNat,
      axisSum fx c x.w.toNat (fun j => scaledVal (x.cell i j) t) = 16384 * scaledVal v t :=
    fun i hi => axisSum_const hw fx c fun j hj => by rw [hconst i j hi hj]
  have hacc : lanczosAcc x fx fy r c t = scaledVal v t * ((2 ^ 28 : Nat) : Int) := by
    rw [lanczosAcc_eq_axisSum, axisSum_const hh fy r hrow]
    ring
  rw [lanczosCell, hacc, lanczosRound_exact hinteger hv]

/-- Settles O26: every row's sum is mirrored, and the rows are weighed alike. -/
theorem lanczosMirrors : Obligations.LanczosMirrors := by
  intro x y fx fy r c t hfx _ hw hh hh1 hmirror hc
  have hw1 : 1 ≤ x.w.toNat := Nat.pos_of_mul_pos_left (Nat.zero_lt_of_lt hc)
  have hrow : ∀ i < x.h.toNat, axisSum fx c x.w.toNat (fun j => scaledVal (y.cell i j) t) =
      axisSum fx (fx * x.w.toNat - 1 - c) x.w.toNat fun j => scaledVal (x.cell i j) t := by
    intro i hi
    rw [← axisSum_mirror hfx hc]
    exact axisSum_congr hw1 fx c fun j hj => by rw [hmirror i j hi hj]
  rw [lanczosCell, lanczosCell, lanczosAcc_eq_axisSum, lanczosAcc_eq_axisSum, hw, hh, axisSum_congr hh1 fy r hrow]

/-! ### The filter in the spec's terms -/

theorem scaledVal_eq_specVal (cell : Word) (t : SampleType) : scaledVal cell t = specVal cell t := by
  cases t with
  | u8 => rfl
  | u16 => rfl
  | f32 => exact (F32.specScaled_eq cell).symm

theorem lanczosAcc_eq_specLanczosAcc (x : Plane) (fx fy r c : Nat) (t : SampleType) :
    lanczosAcc x fx fy r c t = specLanczosAcc x fx fy r c t := by
  simp only [lanczosAcc_eq_axisSum, axisSum_eq_list, ← List.sum_map_mul_left, ← mul_assoc, scaledVal_eq_specVal]
  rfl

/-- One output cell is the spec's: the same sum, rounded once (R155). -/
theorem lanczosCell_eq_specLanczosCell (x : Plane) (fx fy r c : Nat) (t : SampleType) :
    lanczosCell x fx fy r c t = specLanczosCell x fx fy r c t := by
  rw [lanczosCell, lanczosAcc_eq_specLanczosAcc, specLanczosCell]
  split
  · next ht => rw [ht]; rfl
  · next ht => exact lanczosRound_integer _ ht

/-! ### UPSAMPLE's planes -/

/-- Entry (r, c) of a list laid out row by row (R11, R21). -/
theorem getD_map_range_rowMajor (g : Nat → Word) {w h r c : Nat} (hr : r < h) (hc : c < w) :
    ((List.range (w * h)).map g).getD (r * w + c) 0 = g (r * w + c) := by
  have hn : r * w + c < w * h := by
    calc r * w + c < (r + 1) * w := by rw [Nat.succ_mul]; omega
      _ ≤ h * w := Nat.mul_le_mul_right _ hr
      _ = w * h := Nat.mul_comm _ _
  rw [List.getD_eq_getElem _ _ (by simpa using hn), List.getElem_map, List.getElem_range]

theorem upsampleFilter_cell (choice : FilterChoice) (x : Plane) {w h : Half} (t : SampleType) {r c : Nat} (hr : r < h.toNat)
    (hc : c < w.toNat) :
    (upsampleFilter choice x w h t).cell r c = filterCell choice x w.toNat h.toNat t (r * w.toNat + c) :=
  getD_map_range_rowMajor _ hr hc

/-- A plane's sample values exist where its binary32 cells are finite (R30). -/
theorem Plane.valuesDefined_of_finite {x : Plane} {t : SampleType}
    (h : t = .f32 → ∀ w ∈ x.cells, F32.finite w = true) : x.valuesDefined t = true := by
  cases t with
  | u8 => rfl
  | u16 => rfl
  | f32 => exact List.all_eq_true.2 (h rfl)

/-- Positive dimensions in admissible ratios, with values, lie in the filter's domain (R151). -/
theorem filterFactors_of_ratios {x : Plane} {w h fx fy : Nat} {t : SampleType} (hfx : fx = 1 ∨ fx = 2 ∨ fx = 4)
    (hfy : fy = 1 ∨ fy = 2) (hw : 1 ≤ w) (hh : 1 ≤ h) (hratioW : fx * x.w.toNat = w) (hratioH : fy * x.h.toNat = h)
    (hvalues : x.valuesDefined t = true) : filterFactors x w h t = some (fx, fy) := by
  have hx : axisFactor [1, 2, 4] w x.w.toNat = some fx :=
    axisFactor_of_mul (by simpa using hfx) (Nat.pos_of_mul_pos_left (hratioW ▸ hw)) hratioW
  have hy : axisFactor [1, 2] h x.h.toNat = some fy :=
    axisFactor_of_mul (by simpa using hfy) (Nat.pos_of_mul_pos_left (hratioH ▸ hh)) hratioH
  rw [filterFactors, hx, hy]
  exact if_pos hvalues

/-- The plane LANCZOS3_Q14 returns, cell by cell (R151, R155). -/
theorem upsampleFilter_lanczos_cell {x : Plane} {w h : Half} {fx fy : Nat} {t : SampleType}
    (hfx : fx = 1 ∨ fx = 2 ∨ fx = 4) (hfy : fy = 1 ∨ fy = 2) (hratioW : fx * x.w.toNat = w.toNat)
    (hratioH : fy * x.h.toNat = h.toNat) (hfinite : t = .f32 → ∀ w ∈ x.cells, F32.finite w = true) {r c : Nat}
    (hr : r < h.toNat) (hc : c < w.toNat) :
    (upsampleFilter .lanczos3Q14 x w h t).cell r c = specLanczosCell x fx fy r c t := by
  have hfactors : filterFactors x w.toNat h.toNat t = some (fx, fy) :=
    filterFactors_of_ratios hfx hfy (Nat.zero_lt_of_lt hc) (Nat.zero_lt_of_lt hr) hratioW hratioH
      (Plane.valuesDefined_of_finite hfinite)
  have hrow : (r * w.toNat + c) / w.toNat = r := by
    rw [Nat.mul_comm, Nat.mul_add_div (Nat.zero_lt_of_lt hc), Nat.div_eq_of_lt hc, Nat.add_zero]
  have hcol : (r * w.toNat + c) % w.toNat = c := Nat.mul_add_mod_of_lt hc
  simp only [upsampleFilter_cell _ x t hr hc, filterCell, hfactors, hrow, hcol, lanczosCell_eq_specLanczosCell]

/-- Settles O21: the checks pass, and both chroma planes are LANCZOS3_Q14's over its domain. -/
theorem upsampleAppliesLanczos : Obligations.UpsampleAppliesLanczos := by
  intro s fx fy hfilter hi hg hs hw hh hfx hfy hratioW hratioH hfinite
  refine ⟨_, exec_upsample_of_ok (upsampleCheck_of_subsampled hi hg hs), rfl, rfl, fun k hk => ?_⟩
  have hplane : ∀ x : Plane, x.w = s.frame.p2.w → x.h = s.frame.p2.h →
      (s.frame.sampleType = .f32 → ∀ w ∈ x.cells, F32.finite w = true) →
      ∀ r c, r < s.frame.p1.h.toNat → c < s.frame.p1.w.toNat →
        (upsampleFilter s.params.upsampleFilter x s.frame.p1.w s.frame.p1.h s.frame.sampleType).cell r c =
          specLanczosCell x fx fy r c s.frame.sampleType := by
    intro x hxw hxh hx r c hr hc
    rw [hfilter]
    exact upsampleFilter_lanczos_cell hfx hfy (hxw ▸ hratioW) (hxh ▸ hratioH) hx hr hc
  cases k with
  | plane1 => exact absurd rfl hk
  | plane2 =>
    exact ⟨rfl, rfl, upsampleFilter_length .., hplane s.frame.p2 rfl rfl fun ht w hmem => hfinite ht w (.inl hmem)⟩
  | plane3 =>
    exact ⟨rfl, rfl, upsampleFilter_length .., hplane s.frame.p3 hw hh fun ht w hmem => hfinite ht w (.inr hmem)⟩

end Sys2Proof.Machine
end

section
/-! PROOFS. TO_RGB (spec 44_to_rgb R170 to R177): the cells of the three planes it leaves, and a pixel whose chroma is zero. -/

open Sys2Proof Sys2Proof.Machine

namespace Sys2Proof.Machine

/-! ### What TO_RGB answers -/

theorem toRgbCheck_of_yuv444 {s : State} (hi : s.frame.init = true) (h4 : s.frame.fmt = .yuv444) :
    s.toRgbCheck = .ok () := by
  simp [State.toRgbCheck, hi, h4]

/-- TO_RGB's body runs when its checks pass (R170). -/
theorem exec_toRgb_of_ok {s : State} (h : s.toRgbCheck = .ok ()) :
    exec .toRgb s = .next (State.finish { s with frame := s.frame.converted s.params.castRound }) :=
  (finishOrRaise_map s _ _).trans (by rw [h])

/-! ### The frame the conversion reads -/

/-- Cell (r, c) has a row-major index below W·H (R21). -/
theorem rowMajor_lt_size {x : Plane} {r c : Nat} (hr : r < x.h.toNat) (hc : c < x.w.toNat) :
    r * x.w.toNat + c < x.size := by
  calc r * x.w.toNat + c < (r + 1) * x.w.toNat := by rw [Nat.succ_mul]; omega
    _ ≤ x.h.toNat * x.w.toNat := Nat.mul_le_mul_right _ hr
    _ = x.size := Nat.mul_comm _ _

/-- Each stored cell of a three-plane frame is read normalized, unless the frame is f32 (R172). -/
theorem Frame.asFloat_cellAt {f : Frame} (h3 : f.planes = .three) {k : PlaneId} {n : Nat}
    (hn : n < (f.plane k).cells.length) :
    (f.asFloat.plane k).cellAt n = specRgbInput f.sampleType f.bitDepth.toNat ((f.plane k).cellAt n) := by
  have hpresent : k.number ≤ f.planes.toNat := by
    rw [h3]
    cases k <;> decide
  rw [Frame.asFloat_eq, specRgbInput]
  split
  · rfl
  · rw [Frame.normalized_plane, if_pos hpresent, Plane.cellAt, Plane.cellAt,
      List.getD_eq_getElem _ _ (by simpa using hn), List.getD_eq_getElem _ _ hn, List.getElem_map]

/-! ### The planes it leaves -/

theorem rgbCell_eq_specRgbCell (cr : CastRound) (t : SampleType) (bd : BitVec 5) (x : Word) :
    rgbCell cr t bd x = specRgbCell cr t bd.toNat x := by
  cases t <;> rfl

/-- A three-plane frame whose planes all have plane 1's dimensions and every cell of them. -/
structure Frame.FullPlanes (f : Frame) : Prop where
  three : f.planes = .three
  w : ∀ k, (f.plane k).w = f.p1.w
  h : ∀ k, (f.plane k).h = f.p1.h
  length : ∀ k, (f.plane k).cells.length = f.p1.size

/-- TO_RGB computes plane k from the pixels of all three planes by this channel (R170). -/
def rgbChannel : PlaneId → Word → Word → Word → Word
  | .plane1 => specR
  | .plane2 => specG
  | .plane3 => specB

/-- The model's channels take the chroma with its offset removed, the spec's remove it (R170, R174). -/
theorem Frame.converted_plane (f : Frame) (cr : CastRound) (k : PlaneId) :
    (f.converted cr).plane k = { f.plane k with
      cells := (List.range f.asFloat.p1.size).map fun n =>
        rgbCell cr f.sampleType f.asFloat.bitDepth
          (rgbChannel k (f.asFloat.p1.cellAt n) (f.asFloat.p2.cellAt n) (f.asFloat.p3.cellAt n)) } := by
  cases k <;> rfl

section
variable {f : Frame} (hf : f.FullPlanes) (cr : CastRound) (k : PlaneId)
include hf

/-- Dimensions stay, and every cell is written (R175). -/
theorem Frame.converted_dims :
    ((f.converted cr).plane k).w = f.p1.w ∧ ((f.converted cr).plane k).h = f.p1.h ∧
      ((f.converted cr).plane k).cells.length = f.p1.size := by
  rw [Frame.converted_plane]
  exact ⟨hf.w k, hf.h k, by rw [List.length_map, List.length_range, Frame.asFloat_size]⟩

/-- Cell (r, c) of plane k is the channel of pixel (r, c), in its stored form (R170, R172). -/
theorem Frame.converted_cell {r c : Nat} (hr : r < f.p1.h.toNat) (hc : c < f.p1.w.toNat) :
    ((f.converted cr).plane k).cell r c =
      specRgbCell cr f.sampleType f.bitDepth.toNat
        (rgbChannel k (specRgbInput f.sampleType f.bitDepth.toNat (f.p1.cell r c))
          (specRgbInput f.sampleType f.bitDepth.toNat (f.p2.cell r c))
          (specRgbInput f.sampleType f.bitDepth.toNat (f.p3.cell r c))) := by
  have hread : ∀ j, (f.asFloat.plane j).cellAt (r * f.p1.w.toNat + c) =
      specRgbInput f.sampleType f.bitDepth.toNat ((f.plane j).cell r c) := fun j => by
    rw [Plane.cell, hf.w j]
    exact Frame.asFloat_cellAt hf.three (hf.length j ▸ rowMajor_lt_size hr hc)
  have hy : f.asFloat.p1.cellAt _ = specRgbInput _ _ (f.p1.cell r c) := hread .plane1
  have hu : f.asFloat.p2.cellAt _ = specRgbInput _ _ (f.p2.cell r c) := hread .plane2
  have hv : f.asFloat.p3.cellAt _ = specRgbInput _ _ (f.p3.cell r c) := hread .plane3
  rw [Frame.converted_plane, Plane.cell, hf.w k, Frame.asFloat_size, Frame.asFloat_bitDepth]
  refine (getD_map_range_rowMajor _ hr hc).trans ?_
  simp only [hy, hu, hv, rgbCell_eq_specRgbCell]

end

/-- Settles O27: the checks pass, and each plane is its channel of every pixel. -/
theorem toRgbConvertsEveryPixel : Obligations.ToRgbConvertsEveryPixel := by
  intro s hi h4 h3 hw2 hh2 hw3 hh3 hlen
  have hf : s.frame.FullPlanes := by
    refine ⟨h3, fun k => ?_, fun k => ?_, fun k => (hlen k).trans ?_⟩
    · cases k <;> simp only [Frame.plane, hw2, hw3]
    · cases k <;> simp only [Frame.plane, hh2, hh3]
    · cases k <;> simp only [Frame.plane, Plane.size, hw2, hh2, hw3, hh3]
  exact ⟨_, exec_toRgb_of_ok (toRgbCheck_of_yuv444 hi h4), rfl, rfl, fun k => Frame.converted_dims hf _ k,
    fun r c hr hc => ⟨Frame.converted_cell hf _ .plane1 hr hc, Frame.converted_cell hf _ .plane2 hr hc,
      Frame.converted_cell hf _ .plane3 hr hc⟩⟩

/-! ### Zero chroma -/

namespace F32

/-- A zero of either sign (log 12). -/
def isZero (z : Word) : Prop := finite z = true ∧ scaled z = 0

theorem isZero_pack_zero (negative : Bool) : isZero (pack negative 0) := by
  cases negative
  · exact ⟨by decide, by decide⟩
  · exact ⟨by decide, by decide⟩

theorem isZero_neg {z : Word} (h : isZero z) : isZero (neg z) :=
  ⟨by rw [finite_neg, h.1], by rw [scaled_neg, h.2, neg_zero]⟩

theorem isZero_mul {x z : Word} (hx : finite x = true) (hz : isZero z) : isZero (mul x z) := by
  rw [mul_of_finite hx hz.1, mag_eq_natAbs z, hz.2, Int.natAbs_zero, Nat.mul_zero, roundMag_zero (Nat.two_pow_pos _)]
  exact isZero_pack_zero _

/-- Adding a zero gives the same word, unless both terms are zeros, whose sum is one. -/
theorem add_isZero {y z : Word} (hy : finite y = true) (hz : isZero z) :
    add y z = y ∨ (isZero y ∧ isZero (add y z)) := by
  have hsum : scaled y + scaled z = scaled y := by rw [hz.2, add_zero]
  by_cases h0 : scaled y = 0
  · rw [add_of_zero_sum hy hz.1 (hsum.trans h0)]
    exact .inr ⟨⟨hy, h0⟩, isZero_pack_zero _⟩
  · rw [add_of_nonzero_sum hy hz.1 (hsum.trans_ne h0), hsum, ofScaled_scaled hy h0]
    exact .inl rfl

/-- The clip sends both zeros to +0.0 (R171). -/
theorem clip01_isZero {z : Word} (h : isZero z) : clip01 z = 0 :=
  clip01_nonpos (isNaN_of_finite h.1) (Int.le_of_eq h.2)

/-- A zero term does not change the clipped value, and the sum stays finite. -/
theorem clip01_add_isZero {y z : Word} (hy : finite y = true) (hz : isZero z) :
    finite (add y z) = true ∧ clip01 (add y z) = clip01 y := by
  rcases add_isZero hy hz with h | ⟨hy0, h0⟩
  · rw [h]
    exact ⟨hy, rfl⟩
  · exact ⟨h0.1, (clip01_isZero h0).trans (clip01_isZero hy0).symm⟩

theorem clip01_sub_isZero {y z : Word} (hy : finite y = true) (hz : isZero z) :
    finite (sub y z) = true ∧ clip01 (sub y z) = clip01 y :=
  clip01_add_isZero hy (isZero_neg hz)

end F32

/-- Chroma 0.5 is centred to zero (R174). -/
theorem centred_half : F32.isZero (centred F32.half) := ⟨by decide, by decide⟩

/-- Settles O29: every chroma product is a zero, and a zero term does not change the clipped luma. -/
theorem zeroChromaGivesGray : Obligations.ZeroChromaGivesGray := by
  intro y hy
  have hterm : ∀ {k : Word}, F32.finite k = true → F32.isZero (F32.mul k (centred F32.half)) :=
    fun hk => F32.isZero_mul hk centred_half
  have hG := F32.clip01_sub_isZero hy (hterm (k := kGU) (by decide))
  exact ⟨(F32.clip01_add_isZero hy (hterm (k := kRV) (by decide))).2,
    (F32.clip01_sub_isZero hG.1 (hterm (k := kGV) (by decide))).2.trans hG.2,
    (F32.clip01_add_isZero hy (hterm (k := kBU) (by decide))).2⟩

end Sys2Proof.Machine
end

section
/-! PROOFS. EXPORT (spec 45_export R190 to R193): what it answers, what OUT then reads, and the place of each pixel's
channels in it. -/

open Sys2Proof Sys2Proof.Machine

namespace Sys2Proof.Machine

/-! ### What EXPORT answers -/

theorem exportChannels_of_gray {s : State} (hi : s.frame.init = true) (hg : s.frame.fmt = .gray) :
    s.exportChannels = .ok .one := by
  simp [State.exportChannels, hi, hg]

theorem exportChannels_of_yuv444 {s : State} (hi : s.frame.init = true) (h4 : s.frame.fmt = .yuv444) :
    s.exportChannels = .ok .three := by
  simp [State.exportChannels, hi, h4]

/-- EXPORT's body runs when its checks pass (R190). -/
theorem exec_exportOut_of_ok {s : State} {ch : PlaneCount} (h : s.exportChannels = .ok ch) :
    exec .exportOut s = .next (s.exported ch).finish :=
  (finishOrRaise_map s _ _).trans (by rw [h])

/-! ### What OUT reads after an EXPORT -/

/-- The n-th exported cell is stored in OUT cell n (R63, R190). -/
theorem State.exported_outCell (s : State) (ch : PlaneCount) {n : Nat} (hn : n < (exportCells s.frame ch).length) :
    (s.exported ch).outCell n = (exportCells s.frame ch).getD n 0 := by
  refine State.memWord_of_lanes _ _ _ fun i hi => ?_
  rw [show outAddr n + i = outAddr 0 + 4 * n + i by unfold outAddr; omega]
  exact Memory.read?_writeWords_lane _ _ _ _ _ hn hi

/-- The gate of OUT is open for each exported cell (R64). -/
theorem State.exported_outRead (s : State) (ch : PlaneCount) {n : Nat} (hn : n < s.frame.p1.size * ch.toNat) :
    (s.exported ch).finish.outRead n = (exportCells s.frame ch).getD n 0 :=
  (outRead_eq_outCell (s := (s.exported ch).finish) rfl hn).trans
    (s.exported_outCell ch (by rwa [exportCells_length]))

/-! ### The order of the exported cells -/

/-- Where every entry contributes d elements, element n·d + j comes from entry n. -/
theorem getElem?_flatMap_of_length {α β : Type} {g : α → List β} {d : Nat} (hd : ∀ x, (g x).length = d)
    {j : Nat} (hj : j < d) (l : List α) (n : Nat) :
    (l.flatMap g)[n * d + j]? = l[n]?.bind fun x => (g x)[j]? := by
  induction l generalizing n with
  | nil => rfl
  | cons x xs ih =>
    rw [List.flatMap_cons]
    cases n with
    | zero => simp [List.getElem?_append_left (hj.trans_eq (hd x).symm)]
    | succ n =>
      have hoff : (n + 1) * d + j = (g x).length + (n * d + j) := by rw [hd, Nat.succ_mul]; omega
      rw [hoff, List.getElem?_append_right (Nat.le_add_right _ _), Nat.add_sub_cancel_left, ih]
      rfl

/-- A one-channel export lists P1's cells in their order (R191). -/
theorem exportCells_one_getD (f : Frame) {n : Nat} (hn : n < f.p1.size) :
    (exportCells f .one).getD n 0 = f.p1.cellAt n := by
  simp [exportCells, hn]

theorem PlaneId.number_sub_one_lt (k : PlaneId) : k.number - 1 < 3 := by cases k <;> decide

/-- A three-channel export lists the channels of pixel n from 3n on, plane by plane (R191). -/
theorem exportCells_three_getD (f : Frame) (k : PlaneId) {n : Nat} (hn : n < f.p1.size) :
    (exportCells f .three).getD (n * 3 + (k.number - 1)) 0 = (f.plane k).cellAt n := by
  rw [exportCells, List.getD_eq_getElem?_getD,
    getElem?_flatMap_of_length (d := 3) (fun _ => rfl) k.number_sub_one_lt, List.getElem?_range hn]
  cases k <;> rfl

/-! ### Where a pixel is read -/

/-- After a GRAY export OUT cell r·W + c reads P1[r][c] (R191). -/
theorem State.exported_one_outRead (s : State) {r c : Nat} (hr : r < s.frame.p1.h.toNat) (hc : c < s.frame.p1.w.toNat) :
    (s.exported .one).finish.outRead (r * s.frame.p1.w.toNat + c) = s.frame.p1.cell r c := by
  have hn := rowMajor_lt_size hr hc
  rw [s.exported_outRead .one (by simpa [PlaneCount.toNat] using hn), exportCells_one_getD _ hn, Plane.cell]

/-- After a three-channel export channel k of pixel (r, c) is read k − 1 cells past (r·W + c)·3 (R191). -/
theorem State.exported_three_outRead (s : State) (k : PlaneId) (hw : (s.frame.plane k).w = s.frame.p1.w) {r c : Nat}
    (hr : r < s.frame.p1.h.toNat) (hc : c < s.frame.p1.w.toNat) :
    (s.exported .three).finish.outRead ((r * s.frame.p1.w.toNat + c) * 3 + (k.number - 1)) =
      (s.frame.plane k).cell r c := by
  have hn := rowMajor_lt_size hr hc
  have hk := k.number_sub_one_lt
  rw [s.exported_outRead .three (by simp only [PlaneCount.toNat]; omega), exportCells_three_getD _ _ hn, Plane.cell, hw]

/-- EXPORT changes no byte outside the W·H·CH cells from OUT cell 0 on (R190). -/
theorem State.exported_memByte_outside (s : State) (ch : PlaneCount) {a : Nat}
    (h : a < 0x40000000 ∨ 0x40000000 + 4 * (s.frame.p1.size * ch.toNat) ≤ a) :
    (s.exported ch).finish.memByte a = s.memByte a :=
  s.memByte_exported ch (by rwa [exportCells_length])

/-- Settles O30: the checks pass, and each cell of the pixel list is read through OUT's open gate. -/
theorem exportLaysOutPixels : Obligations.ExportLaysOutPixels := by
  intro s hi
  constructor
  · intro h4 hw2 hw3
    exact ⟨_, exec_exportOut_of_ok (exportChannels_of_yuv444 hi h4), rfl,
      fun r c hr hc => ⟨s.exported_three_outRead .plane1 rfl hr hc, s.exported_three_outRead .plane2 hw2 hr hc,
        s.exported_three_outRead .plane3 hw3 hr hc⟩,
      fun a ha => s.exported_memByte_outside .three (by rwa [PlaneCount.toNat, Nat.mul_comm _ 3])⟩
  · intro hg
    exact ⟨_, exec_exportOut_of_ok (exportChannels_of_gray hi hg), rfl,
      fun r c hr hc => s.exported_one_outRead hr hc,
      fun a ha => s.exported_memByte_outside .one (by rwa [PlaneCount.toNat, Nat.mul_one])⟩

end Sys2Proof.Machine
end

section
/-! PROOFS. Results and errors (spec 60_exceptions R200 to R213): which codes a command ends with, what an error leaves
unchanged, the sequencing errors, and the call order that meets none. -/

open Sys2Proof Sys2Proof.Machine

namespace Sys2Proof.Machine

/-- Settles O32: a command that did not complete its body raised its result. -/
theorem raisedErrorChangesOnlyResult : Obligations.RaisedErrorChangesOnlyResult := by
  intro i s t h hne
  rcases exec_cases h with ⟨e, -, rfl⟩ | ⟨u, -, rfl⟩
  · rfl
  · exact absurd rfl hne

/-! ### The codes a command's checks raise -/

/-- A check raises only codes of the list. -/
def RaisesOnly {α : Type} (codes : List ResultCode) (x : Except ResultCode α) : Prop :=
  ∀ e, x = .error e → e ∈ codes

section
variable {α : Type} {codes : List ResultCode}

theorem RaisesOnly.ok (a : α) : RaisesOnly codes (.ok a) := nofun

theorem RaisesOnly.error {e : ResultCode} (h : e ∈ codes) : RaisesOnly codes (.error e : Except ResultCode α) :=
  fun _ he => Except.error.inj he ▸ h

theorem RaisesOnly.ite {c : Prop} [Decidable c] {x y : Except ResultCode α} (hx : RaisesOnly codes x)
    (hy : RaisesOnly codes y) : RaisesOnly codes (if c then x else y) := by
  split
  · exact hx
  · exact hy

/-- One check of a sequence: it raises its own code, or those after it decide (R211). -/
theorem RaisesOnly.check {c : Prop} [Decidable c] {e : ResultCode} {y : Except ResultCode α} (he : e ∈ codes)
    (hy : RaisesOnly codes y) : RaisesOnly codes (if c then .error e else y) :=
  .ite (.error he) hy

/-- A command ends with OK or a code its checks raise (R203). -/
theorem RaisesOnly.result_mem {s t : State} {x : Except ResultCode α} {f : α → State} (hx : RaisesOnly codes x)
    (hok : .ok ∈ codes) (h : finishOrRaise s (x.map f) = .next t) : t.result ∈ codes := by
  rcases finishOrRaise_map_cases h with ⟨e, he, rfl⟩ | ⟨a, -, rfl⟩
  · exact hx e he
  · exact hok

end

theorem loadFormat_raisesOnly (s : State) (p : Nat) : RaisesOnly (possibleResults .load) (s.loadFormat p) := by
  refine .check (by decide) (.check (by decide) (.ite (.ok _) ?_))
  split
  · exact .ok _
  · exact .error (by decide)

theorem loadCheck_raisesOnly (s : State) : RaisesOnly (possibleResults .load) s.loadCheck :=
  .check (by decide) (.check (by decide) (.check (by decide) (.check (by decide) (.check (by decide)
    (loadFormat_raisesOnly s _)))))

theorem readPlane_raisesOnly (s : State) (arity sel : Nat) :
    RaisesOnly (possibleResults (.read arity sel)) (s.readPlane arity sel) := by
  refine .check (by simp [possibleResults])
    (.ite (.ite (.ok _) (.error (by simp [possibleResults]))) (.check (by simp [possibleResults]) ?_))
  split
  · exact .ok _
  · exact .error (by simp [possibleResults])

theorem readCell_raisesOnly (s : State) (arity sel : Nat) :
    RaisesOnly (possibleResults (.read arity sel)) (s.readCell arity sel) := by
  unfold State.readCell
  split
  · next e he => exact .error (readPlane_raisesOnly s arity sel e he)
  · exact .check (by simp [possibleResults]) (.ok _)

theorem normalizeCheck_raisesOnly (s : State) : RaisesOnly (possibleResults .normalize) s.normalizeCheck :=
  .check (by decide) (.ok _)

theorem upsampleCheck_raisesOnly (s : State) : RaisesOnly (possibleResults .upsample) s.upsampleCheck :=
  .check (by decide) (.check (by decide) (.check (by decide) (.ok _)))

theorem toRgbCheck_raisesOnly (s : State) : RaisesOnly (possibleResults .toRgb) s.toRgbCheck :=
  .check (by decide) (.check (by decide) (.check (by decide) (.ok _)))

theorem exportChannels_raisesOnly (s : State) : RaisesOnly (possibleResults .exportOut) s.exportChannels :=
  .check (by decide) (.ite (.ok _) (.ite (.ok _) (.error (by decide))))

/-- Settles O33: each command's checks raise only the codes listed for it. -/
theorem resultCodesOfCommands : Obligations.ResultCodesOfCommands := by
  intro i s t h
  cases i with
  | load => exact (loadCheck_raisesOnly s).result_mem (by decide) h
  | read arity sel => exact (readCell_raisesOnly s arity sel).result_mem (by simp [possibleResults]) h
  | normalize => exact (normalizeCheck_raisesOnly s).result_mem (by decide) h
  | upsample => exact (upsampleCheck_raisesOnly s).result_mem (by decide) h
  | toRgb => exact (toRgbCheck_raisesOnly s).result_mem (by decide) h
  | exportOut => exact (exportChannels_raisesOnly s).result_mem (by decide) h

/-! ### The sequencing errors -/

/-- Checks that fail only set RESULT (R201). -/
theorem exec_upsample_of_error {s : State} {e : ResultCode} (h : s.upsampleCheck = .error e) :
    exec .upsample s = .next { s with result := e } :=
  (finishOrRaise_map s _ _).trans (by rw [h]; rfl)

theorem exec_toRgb_of_error {s : State} {e : ResultCode} (h : s.toRgbCheck = .error e) :
    exec .toRgb s = .next { s with result := e } :=
  (finishOrRaise_map s _ _).trans (by rw [h]; rfl)

theorem exec_exportOut_of_error {s : State} {e : ResultCode} (h : s.exportChannels = .error e) :
    exec .exportOut s = .next { s with result := e } :=
  (finishOrRaise_map s _ _).trans (by rw [h]; rfl)

/-- Every command but LOAD needs a frame (R204). -/
theorem exec_of_uninitialized {s : State} {i : Instr} (hi : s.frame.init = false) (hload : i ≠ .load) :
    exec i s = .next { s with result := .uninitializedFrame } := by
  cases i with
  | load => exact absurd rfl hload
  | read arity sel => exact exec_read_of_readPlane_error (readPlane_of_uninitialized hi arity sel)
  | normalize => exact exec_normalize_of_uninitialized hi
  | upsample => exact exec_upsample_of_error (if_pos hi)
  | toRgb => exact exec_toRgb_of_error (if_pos hi)
  | exportOut => exact exec_exportOut_of_error (if_pos hi)

/-- Settles O31: each check raises its own code once those before it pass. -/
theorem sequencingErrorsInOrder : Obligations.SequencingErrorsInOrder := by
  intro s
  refine ⟨fun hi i hload => exec_of_uninitialized hi hload, fun hi hgray => ⟨?upsampleGray, ?toRgbGray⟩,
    fun hi hcolour hw hh => ?upsampleFull, fun hi hcolour hsub => ⟨?toRgbSubsampled, ?exportSubsampled⟩⟩
  case upsampleGray => exact exec_upsample_of_error (by simp [State.upsampleCheck, hi, hgray])
  case toRgbGray => exact exec_toRgb_of_error (by simp [State.toRgbCheck, hi, hgray])
  case upsampleFull => exact exec_upsample_of_error (by simp [State.upsampleCheck, hi, hcolour, hw, hh])
  case toRgbSubsampled => exact exec_toRgb_of_error (by simp [State.toRgbCheck, hi, hcolour, hsub])
  case exportSubsampled => exact exec_exportOut_of_error (by simp [State.exportChannels, hi, hcolour, hsub])

/-! ### The call order -/

theorem Frame.Loaded.planes_of_colour {p : Params} {f : Frame} (h : f.Loaded p) (hg : f.fmt ≠ .gray) :
    f.planes = .three := by
  cases hp : f.planes with
  | none => exact absurd hp h.some
  | one => exact absurd (h.gray.1 hp) hg
  | three => rfl

/-- The chroma planes of a subsampled frame are smaller than luma in a direction, so UPSAMPLE does not find them full
(R29, R207). -/
theorem Frame.Loaded.chroma_not_full {p : Params} {f : Frame} (h : f.Loaded p) (hg : f.fmt ≠ .gray)
    (h4 : f.fmt ≠ .yuv444) : ¬(f.p2.w = f.p1.w ∧ f.p2.h = f.p1.h) := by
  rintro ⟨hw, hh⟩
  have hfits := h.fits (h.planes_of_colour hg)
  have hwpos := h.p1.wPos
  have hhpos := h.p1.hPos
  rw [hw, hh] at hfits
  cases hfmt : f.fmt with
  | gray => exact hg hfmt
  | yuv444 => exact h4 hfmt
  | yuv422 | yuv420 | yuv411 | yuv440 =>
    rw [hfmt] at hfits
    obtain ⟨hx, hy⟩ := hfits
    omega

/-- TO_RGB keeps `init` and the format, so EXPORT's checks pass after it (R178, R213). -/
theorem toRgb_then_export_succeed {s : State} (hi : s.frame.init = true) (h4 : s.frame.fmt = .yuv444) :
    ∃ b c, exec .toRgb s = .next b ∧ b.result = .ok ∧ exec .exportOut b = .next c ∧ c.result = .ok ∧
      c.out.ch = .three :=
  ⟨_, _, exec_toRgb_of_ok (toRgbCheck_of_yuv444 hi h4), rfl,
    exec_exportOut_of_ok (exportChannels_of_yuv444 hi h4), rfl, rfl⟩

/-- Settles O38: UPSAMPLE's checks pass on a subsampled frame and leave it YUV444, where the other two succeed. -/
theorem callOrderMeetsNoError : Obligations.CallOrderMeetsNoError := by
  intro s hinv hi
  refine ⟨fun hg => ⟨_, exec_exportOut_of_ok (exportChannels_of_gray hi hg), rfl, rfl⟩, fun hg => ?_⟩
  by_cases h4 : s.frame.fmt = .yuv444
  · obtain ⟨b, c, hrest⟩ := toRgb_then_export_succeed hi h4
    exact ⟨s, b, c, by rw [if_pos h4], hrest⟩
  · have hup := exec_upsample_of_ok
      (upsampleCheck_of_subsampled hi hg ((hinv.frame.loaded hi).chroma_not_full hg h4))
    obtain ⟨b, c, hrest⟩ := toRgb_then_export_succeed (s := State.finish { s with frame := s.upsampledFrame }) hi rfl
    exact ⟨_, b, c, by rw [if_neg h4]; exact ⟨hup, rfl⟩, hrest⟩

end Sys2Proof.Machine
end
